-- ==== Sys2Proof/Word.lean ====
section
/-! DEFINITION. The 16-bit Word, the byte, and the three width changes of the spec (rules R7 to R10, R14). -/

namespace Sys2Proof

/-- A register or memory Word: a 16-bit two's-complement pattern (R9). Its signed value is `BitVec.toInt`. -/
abbrev Word := BitVec 16

/-- One 8-bit lane of a Word, and one element of the input and output buffers (R29, R56). -/
abbrev Byte := BitVec 8

/-- `wrap16` of R9: an exact integer becomes the Word that holds its low 16 bits. -/
def wrap16 (x : Int) : Word := BitVec.ofInt 16 x

/-- `bits16` of R10: the unsigned pattern of a Word. -/
def bits16 (v : Word) : Nat := v.toNat

/-- `sext_16` of R10: a pattern in 0..65535 read as a Word. -/
def sext16 (p : Nat) : Word := BitVec.ofNat 16 p

/-- `PROGSTART` (R5): the first word of the program, and the boundary between system calls and user calls. -/
def progStart : Int := 401

end Sys2Proof
end

