-- ==== Sys2Proof/Syntax.lean ====
section
/-! DEFINITION. The instructions: one constructor per row of spec/opcode_table.json (rules R81 to R88), and the operand
forms every opcode takes (R83, R84). -/

namespace Sys2Proof

/-- The base of an operand (R83, stage 1): the unsigned inline operand, or the signed data word. -/
inductive OperandBase where
  | inline (n : BitVec 8)
  | dataWord (v : Word)
  deriving DecidableEq, Repr

/-- An operand as encoded (R83, R84): its base, the P flag and the I flag. The D flag is the choice of base. -/
structure Operand where
  base : OperandBase
  /-- The P flag: `sp` is added to the base. -/
  frameRel : Bool
  /-- The I flag: the value is replaced by the Word it addresses. -/
  indirect : Bool
  deriving DecidableEq, Repr

/-- How many words an instruction with this operand has (R80). -/
def Operand.words (o : Operand) : Nat :=
  match o.base with
  | .inline _ => 1
  | .dataWord _ => 2

/-- The 23 operators of R85, in the order of their numbers. -/
inductive Operator where
  | indirection | negate | bitNot | ret | multiply | divide | remainder | add | subtract
  | equal | notEqual | less | greaterOrEqual | greater | lessOrEqual | leftShift | rightShift
  | bitAnd | bitOr | bitXor | bitEqv | finish | switch
  deriving DecidableEq, Repr

/-- An instruction. A row `X<k>` of the table is the canonical inline word of operator k; `execute` is every other form of
X, whose operator is found at run time (R85); `unknownOperator` is an inline X whose number is no operator (R88);
`unknownOpcode` is a word whose reserved bits are not 00 (R87). -/
inductive Instr where
  | load (o : Operand)
  | store (o : Operand)
  | add (o : Operand)
  | jump (o : Operand)
  | testTrue (o : Operand)
  | testFalse (o : Operand)
  | call (o : Operand)
  | execute (o : Operand)
  | xIndirection
  | xNegate
  | xBitNot
  | xReturn
  | xMultiply
  | xDivide
  | xRemainder
  | xAdd
  | xSubtract
  | xEqual
  | xNotEqual
  | xLess
  | xGreaterOrEqual
  | xGreater
  | xLessOrEqual
  | xLeftShift
  | xRightShift
  | xBitAnd
  | xBitOr
  | xBitXor
  | xBitEqv
  | xFinish
  | xSwitch
  | unknownOperator (n : BitVec 8)
  | unknownOpcode (w : Word)
  deriving DecidableEq, Repr

/-- How many words an instruction has (R80). A word with reserved bits set ends at itself: its fault comes before any
data word is fetched (R302). -/
def Instr.words : Instr → Nat
  | .load o | .store o | .add o | .jump o | .testTrue o | .testFalse o | .call o | .execute o => o.words
  | .xIndirection | .xNegate | .xBitNot | .xReturn | .xMultiply | .xDivide | .xRemainder | .xAdd
  | .xSubtract | .xEqual | .xNotEqual | .xLess | .xGreaterOrEqual | .xGreater | .xLessOrEqual
  | .xLeftShift | .xRightShift | .xBitAnd | .xBitOr | .xBitXor | .xBitEqv | .xFinish | .xSwitch => 1
  | .unknownOperator _ => 1
  | .unknownOpcode _ => 1

end Sys2Proof
end

