-- ==== Sys2Proof/WellFormed.lean ====
section
/-! DEFINITION. Which instruction terms stand for an encoding: the three choices that keep one word from having two
terms (rules R85, R87, R88). -/

namespace Sys2Proof

/-- An operand that is the plain inline number: D = P = I = 0. -/
def Operand.isPlainInline (o : Operand) : Bool :=
  match o with
  | ⟨.inline _, false, false⟩ => true
  | _ => false

/-- The inline number of an X word that names no operator: 0 or 24..255 (R88). -/
def isUnknownInline (n : BitVec 8) : Bool := n.toNat == 0 || 24 ≤ n.toNat

/-- The reserved field of a word is not 00 (R87). -/
def hasReservedBits (w : Word) : Bool := w.getLsbD 6 || w.getLsbD 7

/-- A term stands for an encoding: a plain inline X is one of the named operators or `unknownOperator`, `unknownOperator`
holds a number that is no operator, and `unknownOpcode` holds a word with a reserved bit set. -/
def WellFormed : Instr → Bool
  | .load _ | .store _ | .add _ | .jump _ | .testTrue _ | .testFalse _ | .call _ => true
  | .execute o => !o.isPlainInline
  | .xIndirection | .xNegate | .xBitNot | .xReturn | .xMultiply | .xDivide | .xRemainder | .xAdd
  | .xSubtract | .xEqual | .xNotEqual | .xLess | .xGreaterOrEqual | .xGreater | .xLessOrEqual
  | .xLeftShift | .xRightShift | .xBitAnd | .xBitOr | .xBitXor | .xBitEqv | .xFinish | .xSwitch => true
  | .unknownOperator n => isUnknownInline n
  | .unknownOpcode w => hasReservedBits w

end Sys2Proof
end

