-- ==== Sys2Proof/Decode.lean ====
section
/-! DEFINITION. The decoder, total on any words, and the encoder, both from the word format of rule R81 and the tables of
rules R82 and R85. -/

namespace Sys2Proof

/-! ## Fields of an instruction word (R81, R164) -/

/-- `f = w[2:0]`, the opcode. -/
def opcodeField (w : Word) : BitVec 3 := w.extractLsb' 0 3

/-- `I = w[3]`. -/
def indirectFlag (w : Word) : Bool := w.getLsbD 3

/-- `P = w[4]`. -/
def frameFlag (w : Word) : Bool := w.getLsbD 4

/-- `D = w[5]`. -/
def dataFlag (w : Word) : Bool := w.getLsbD 5

/-- `res = w[7:6]`, which must be 00. -/
def reservedField (w : Word) : BitVec 2 := w.extractLsb' 6 2

/-- `n = w[15:8]`, the inline operand. -/
def inlineField (w : Word) : BitVec 8 := w.extractLsb' 8 8

/-- A data word follows: the D flag of a word whose reserved bits are 00 (R80, R302). -/
def takesDataWord (w : Word) : Bool := reservedField w == 0 && dataFlag w

/-! ## Operators by number (R85) -/

/-- The number of an operator. -/
def operatorNumber : Operator → Nat
  | .indirection => 1 | .negate => 2 | .bitNot => 3 | .ret => 4 | .multiply => 5 | .divide => 6
  | .remainder => 7 | .add => 8 | .subtract => 9 | .equal => 10 | .notEqual => 11 | .less => 12
  | .greaterOrEqual => 13 | .greater => 14 | .lessOrEqual => 15 | .leftShift => 16 | .rightShift => 17
  | .bitAnd => 18 | .bitOr => 19 | .bitXor => 20 | .bitEqv => 21 | .finish => 22 | .switch => 23

/-- The operator of a number, none outside 1..23 (R88). -/
def operatorOfNumber : Nat → Option Operator
  | 1 => some .indirection | 2 => some .negate | 3 => some .bitNot | 4 => some .ret
  | 5 => some .multiply | 6 => some .divide | 7 => some .remainder | 8 => some .add
  | 9 => some .subtract | 10 => some .equal | 11 => some .notEqual | 12 => some .less
  | 13 => some .greaterOrEqual | 14 => some .greater | 15 => some .lessOrEqual
  | 16 => some .leftShift | 17 => some .rightShift | 18 => some .bitAnd | 19 => some .bitOr
  | 20 => some .bitXor | 21 => some .bitEqv | 22 => some .finish | 23 => some .switch
  | _ => none

/-- The instruction that is the canonical inline word of an operator. -/
def instrOfOperator : Operator → Instr
  | .indirection => .xIndirection | .negate => .xNegate | .bitNot => .xBitNot | .ret => .xReturn
  | .multiply => .xMultiply | .divide => .xDivide | .remainder => .xRemainder | .add => .xAdd
  | .subtract => .xSubtract | .equal => .xEqual | .notEqual => .xNotEqual | .less => .xLess
  | .greaterOrEqual => .xGreaterOrEqual | .greater => .xGreater | .lessOrEqual => .xLessOrEqual
  | .leftShift => .xLeftShift | .rightShift => .xRightShift | .bitAnd => .xBitAnd | .bitOr => .xBitOr
  | .bitXor => .xBitXor | .bitEqv => .xBitEqv | .finish => .xFinish | .switch => .xSwitch

/-! ## Decoding -/

/-- The operand of an instruction word `w`, with `v` the word after it (R83). The inline field is not read when D = 1. -/
def decodeOperand (w v : Word) : Operand where
  base := if dataFlag w then .dataWord v else .inline (inlineField w)
  frameRel := frameFlag w
  indirect := indirectFlag w

/-- An X word with D = P = I = 0 (R85, R88). -/
def decodeInlineExecute (n : BitVec 8) : Instr :=
  match operatorOfNumber n.toNat with
  | some op => instrOfOperator op
  | none => .unknownOperator n

/-- Any X word: the plain inline form names its operator, every other form finds it at run time (R85). -/
def decodeExecute (o : Operand) : Instr :=
  match o with
  | ⟨.inline n, false, false⟩ => decodeInlineExecute n
  | o => .execute o

/-- The instruction of the word `w` with `v` the word after it (R82, R87, R164). -/
def decodeWords (w v : Word) : Instr :=
  if reservedField w ≠ 0 then .unknownOpcode w
  else
    match (opcodeField w).toNat with
    | 0 => .load (decodeOperand w v)
    | 1 => .store (decodeOperand w v)
    | 2 => .add (decodeOperand w v)
    | 3 => .jump (decodeOperand w v)
    | 4 => .testTrue (decodeOperand w v)
    | 5 => .testFalse (decodeOperand w v)
    | 6 => .call (decodeOperand w v)
    | _ => decodeExecute (decodeOperand w v)

/-- Why a word sequence holds no whole instruction. Every whole word decodes (R89), so these are the only two. -/
inductive DecodeError where
  /-- There is no word. -/
  | noWord
  /-- The D flag is set and the word is the last one. -/
  | noDataWord
  deriving DecidableEq, Repr

/-- The first instruction of a word sequence and the words after it (R80). -/
def decode : List Word → Except DecodeError (Instr × List Word)
  | [] => .error .noWord
  | w :: rest =>
    if takesDataWord w then
      match rest with
      | [] => .error .noDataWord
      | v :: rest => .ok (decodeWords w v, rest)
    else .ok (decodeWords w 0, rest)

/-- The words of a byte sequence, low lane first (R57). A last odd byte is no word and is dropped. -/
def wordsOfBytes : List Byte → List Word
  | lo :: hi :: rest => (hi ++ lo) :: wordsOfBytes rest
  | [_] => []
  | [] => []

/-- The first instruction of a byte sequence, total on any bytes. -/
def decodeBytes (bs : List Byte) : Except DecodeError (Instr × List Word) := decode (wordsOfBytes bs)

/-! ## Encoding (R90) -/

/-- `enc(f, I, P, D, n)` of R90. -/
def encodeWord (f : Nat) (i p d : Bool) (n : BitVec 8) : Word :=
  wrap16 (n.toNat * 256 + d.toNat * 32 + p.toNat * 16 + i.toNat * 8 + f)

/-- The words of opcode `f` with operand `o`: the inline form, or the instruction word with n = 0 and the data word. -/
def encodeOperand (f : Nat) (o : Operand) : List Word :=
  match o.base with
  | .inline n => [encodeWord f o.indirect o.frameRel false n]
  | .dataWord v => [encodeWord f o.indirect o.frameRel true 0, v]

/-- The canonical inline word of operator `k` (R85). -/
def encodeOperator (op : Operator) : List Word := [encodeWord 7 false false false (BitVec.ofNat 8 (operatorNumber op))]

/-- The words of an instruction (R81, R82, R85, R90). -/
def encode : Instr → List Word
  | .load o => encodeOperand 0 o
  | .store o => encodeOperand 1 o
  | .add o => encodeOperand 2 o
  | .jump o => encodeOperand 3 o
  | .testTrue o => encodeOperand 4 o
  | .testFalse o => encodeOperand 5 o
  | .call o => encodeOperand 6 o
  | .execute o => encodeOperand 7 o
  | .xIndirection => encodeOperator .indirection
  | .xNegate => encodeOperator .negate
  | .xBitNot => encodeOperator .bitNot
  | .xReturn => encodeOperator .ret
  | .xMultiply => encodeOperator .multiply
  | .xDivide => encodeOperator .divide
  | .xRemainder => encodeOperator .remainder
  | .xAdd => encodeOperator .add
  | .xSubtract => encodeOperator .subtract
  | .xEqual => encodeOperator .equal
  | .xNotEqual => encodeOperator .notEqual
  | .xLess => encodeOperator .less
  | .xGreaterOrEqual => encodeOperator .greaterOrEqual
  | .xGreater => encodeOperator .greater
  | .xLessOrEqual => encodeOperator .lessOrEqual
  | .xLeftShift => encodeOperator .leftShift
  | .xRightShift => encodeOperator .rightShift
  | .xBitAnd => encodeOperator .bitAnd
  | .xBitOr => encodeOperator .bitOr
  | .xBitXor => encodeOperator .bitXor
  | .xBitEqv => encodeOperator .bitEqv
  | .xFinish => encodeOperator .finish
  | .xSwitch => encodeOperator .switch
  | .unknownOperator n => [encodeWord 7 false false false n]
  | .unknownOpcode w => [w]

/-! ## The host's question -/

/-- The bytes of `w` as the hardware lays them out: two 16-bit words, low lane first (R57), bits above `nbits` zero. -/
def tableBytes (nbits w : Nat) : List Byte :=
  (List.range 4).map fun k => BitVec.ofNat 8 (w % 2 ^ nbits / 256 ^ k)

/-- The instruction the decoder reads from an instruction whose bits are `w`, bit 0 the least significant bit of its
first word. -/
def decodeTableWord (nbits w : Nat) : Option Instr :=
  match decodeBytes (tableBytes nbits w) with
  | .ok (i, _) => some i
  | .error _ => none

end Sys2Proof
end

