-- ==== Sys2Proof/Config.lean ====
section
/-! DEFINITION. What an implementation fixes: the named parameters of rule R6 and the system-call numbers of rule
R284. The model takes them as an argument: they stand in State as read-only data (see notes/assumptions/1.md). -/

namespace Sys2Proof

/-- The sign rule of Remainder, the OPEN parameter `REM_MODE` (R6, R227). -/
inductive RemMode where
  | truncate
  | floor
  deriving DecidableEq, Repr

/-- The kind of Right-shift, the parameter `RSH_MODE` (R6, R237). -/
inductive RshMode where
  | logical
  | arithmetic
  deriving DecidableEq, Repr

/-- The 21 system calls of R284. -/
inductive SysName where
  | selectInput | selectOutput | readChar | writeChar | stop | level | longJump | makeClosure
  | findOutput | findInput | writeString | writeNumber | writeDecimalPadded | readNumber
  | writeHex | writeFormatted | writeOctal | getByte | putByte | getVector | freeVector
  deriving DecidableEq, Repr

/-- Every system call, Write-string first: its number is the only one the source fixes (R284). -/
def SysName.all : List SysName :=
  [.writeString, .selectInput, .selectOutput, .readChar, .writeChar, .stop, .level, .longJump,
   .makeClosure, .findOutput, .findInput, .writeNumber, .writeDecimalPadded, .readNumber, .writeHex,
   .writeFormatted, .writeOctal, .getByte, .putByte, .getVector, .freeVector]

/-- The OPEN part of `SysNum` (R284): one call number for every name but Write-string. -/
structure SysNums where
  selectInput : Word
  selectOutput : Word
  readChar : Word
  writeChar : Word
  stop : Word
  level : Word
  longJump : Word
  makeClosure : Word
  findOutput : Word
  findInput : Word
  writeNumber : Word
  writeDecimalPadded : Word
  readNumber : Word
  writeHex : Word
  writeFormatted : Word
  writeOctal : Word
  getByte : Word
  putByte : Word
  getVector : Word
  freeVector : Word
  deriving DecidableEq, Repr

/-- `SysNum` of R284: Write-string is 60, every other name has the number the parameter gives it. -/
def SysNums.num (t : SysNums) : SysName → Word
  | .selectInput => t.selectInput
  | .selectOutput => t.selectOutput
  | .readChar => t.readChar
  | .writeChar => t.writeChar
  | .stop => t.stop
  | .level => t.level
  | .longJump => t.longJump
  | .makeClosure => t.makeClosure
  | .findOutput => t.findOutput
  | .findInput => t.findInput
  | .writeString => 60
  | .writeNumber => t.writeNumber
  | .writeDecimalPadded => t.writeDecimalPadded
  | .readNumber => t.readNumber
  | .writeHex => t.writeHex
  | .writeFormatted => t.writeFormatted
  | .writeOctal => t.writeOctal
  | .getByte => t.getByte
  | .putByte => t.putByte
  | .getVector => t.getVector
  | .freeVector => t.freeVector

/-- The named parameters of R6. -/
structure Params where
  /-- `MEMSIZE`, the number of words of core memory. -/
  memSize : Nat
  /-- `LABMAX`, the number of label-table slots. -/
  labMax : Nat
  /-- `BUDGET`, the most instructions one run may complete. -/
  budget : Nat
  remMode : RemMode
  rshMode : RshMode
  sysNums : SysNums
  inputHandle : Word
  printHandle : Word
  deriving DecidableEq, Repr

/-- What R6 and R284 require of the parameters: the bounds of MEMSIZE, a positive BUDGET, two distinct handles, and an
injective call-number map into [-32768, 400] without the number 1. -/
structure Params.Valid (p : Params) : Prop where
  memSize_ge : 408 ≤ p.memSize
  memSize_le : p.memSize ≤ 32767
  budget_pos : 1 ≤ p.budget
  handles_ne : p.inputHandle ≠ p.printHandle
  sysNum_nodup : (SysName.all.map p.sysNums.num).Nodup
  sysNum_range : ∀ n ∈ SysName.all, (p.sysNums.num n).toInt < progStart ∧ p.sysNums.num n ≠ 1

/-- The reference default column of R284, which the spec calls informative and not normative. -/
def SysNums.reference : SysNums where
  selectInput := 11
  selectOutput := 12
  readChar := 13
  writeChar := 14
  stop := 30
  level := 31
  longJump := 32
  makeClosure := 40
  findOutput := 41
  findInput := 42
  writeNumber := 62
  writeDecimalPadded := 68
  readNumber := 70
  writeHex := 75
  writeFormatted := 76
  writeOctal := 77
  getByte := 85
  putByte := 86
  getVector := 87
  freeVector := 88

/-- The parameters State.reset names. MEMSIZE, LABMAX and RSH_MODE are the defaults of R6. DESIGN CHOICE: every other
value is OPEN in the spec and named here only so that reset is a state (notes/assumptions/1.md); no statement rests on it. -/
def Params.reference : Params where
  memSize := 19900
  labMax := 10000
  budget := 1000000
  remMode := .truncate
  rshMode := .logical
  sysNums := SysNums.reference
  inputHandle := 0
  printHandle := 1

end Sys2Proof
end

