-- ==== Sys2Proof/Machine/State.lean ====
section
/-! DEFINITION. All the state the spec gives the machine, as plain data: the core (rules R20 to R31), the
label-resolution engine (R32, R33) with its answer (R110), and the lifecycle of one instance (R68, R330). -/

namespace Sys2Proof.Machine

/-! ## Core memory -/

/-- Core memory (R30, R50), and the engine's image buffer (R32): the byte lanes that differ from what construction leaves.
Lane `l` of the Word at address `i` is the cell at key `2 * i + l` (R56). -/
abbrev Memory := List Host.Cell

/-- What an unlisted lane holds: the Word at address i is i for i in 0..400 and 0 above (R53). -/
def constructionByte (key : Nat) : Byte :=
  if key / 2 ≤ 400 then BitVec.ofNat 8 (key / 2 / 256 ^ (key % 2)) else 0

/-- The canonical form: keys strictly rising, and no lane listed at its construction value. -/
abbrev Memory.wf (m : Memory) : Prop :=
  m.Pairwise (fun c d => c.1 < d.1) ∧ ∀ c ∈ m, c.2 ≠ constructionByte c.1

/-- Every listed lane lies at a word address below `n`. -/
abbrev Memory.within (m : Memory) (n : Nat) : Prop := ∀ c ∈ m, c.1 < 2 * n

/-! ## Faults and warnings of the core -/

/-- Which access raised a MemoryFault (R301). -/
inductive AccessKind where
  | fetch
  | read
  | write
  deriving DecidableEq, Repr

/-- The five fatal fault codes with their info fields (R300 to R307). -/
inductive FaultCause where
  /-- Code 1: an access outside [0, MEMSIZE), with the exact address (R301). -/
  | memoryFault (addr : Int) (kind : AccessKind)
  /-- Code 2: the pattern of a word whose reserved bits are not 00 (R302). -/
  | unknownOpcode (w : Word)
  /-- Code 3: the resolved operand of an X outside 1..23 (R304). -/
  | unknownOperator (d : Int)
  /-- Code 4: the step count when it equals BUDGET (R306). -/
  | instructionBudgetExceeded (steps : Nat)
  /-- Code 5: the length of an image that does not fit (R307). -/
  | loadFault (len : Nat)
  deriving DecidableEq, Repr

/-- The code numbers of R300. -/
def FaultCause.code : FaultCause → Nat
  | .memoryFault _ _ => 1
  | .unknownOpcode _ => 2
  | .unknownOperator _ => 3
  | .instructionBudgetExceeded _ => 4
  | .loadFault _ => 5

/-- The fault record `(code, pc_of_instruction, info)` of R26. A LoadFault belongs to no instruction, so `ipc` is none. -/
structure FaultRecord where
  cause : FaultCause
  ipc : Option Int
  deriving DecidableEq, Repr

/-- The warning `UnknownSystemCall(callno, ipc)` (R262, R308). -/
structure CoreWarning where
  callno : Word
  ipc : Int
  deriving DecidableEq, Repr

/-! ## The label-resolution engine -/

/-- The engine's fatal errors (R309). -/
inductive AsmError where
  /-- `AsmSyntaxError(position, character)`; none is the end of the text (R132). -/
  | syntaxError (position : Nat) (character : Option Char)
  /-- `LabelRangeError(k)` (R120). -/
  | labelRange (k : Int)
  /-- `AsmImageOverflow` at an address (R112, R118). -/
  | imageOverflow (addr : Int)
  deriving DecidableEq, Repr

/-- The engine's warnings (R309). -/
inductive AsmWarning where
  /-- `UnresolvedLabel(k, s)` (R129, R130). -/
  | unresolvedLabel (k : Nat) (s : Int)
  /-- `DuplicateLabel(k, old, new)` (R119). -/
  | duplicateLabel (k : Nat) (old new : Int)
  deriving DecidableEq, Repr

/-- A definition whose backpatch chain is being walked (R118): the label and the slot value still to follow. -/
structure ChainWalk where
  label : Nat
  link : Int
  deriving DecidableEq, Repr

/-- The state of one assembly run (R32, R33). It is blank outside an assembly run. -/
structure Engine where
  /-- The input text from the read position on; its head is the character of lookahead. -/
  text : List Char
  /-- The read position, counted in characters. -/
  position : Nat
  /-- The write cursor. -/
  cursor : Nat
  /-- The image buffer. -/
  image : Memory
  /-- The label table: the slots that are not 0, by rising label number. -/
  table : List (Nat × Int)
  /-- The warning list, oldest first. -/
  warnings : List AsmWarning
  /-- The fatal-error field. -/
  fatal : Option AsmError
  /-- The chain walk in progress, which R118 implies. -/
  walk : Option ChainWalk
  /-- The end of the text was reached and the image is ready (R130). -/
  finished : Bool
  deriving DecidableEq, Repr

/-- The engine outside an assembly run: no text, nothing emitted, no label (R111 before the bootstrap of R113). -/
def Engine.blank : Engine where
  text := []
  position := 0
  cursor := 401
  image := []
  table := []
  warnings := []
  fatal := none
  walk := none
  finished := false

/-- What an assembly run answered beside its image (R110): the warning list, or the fatal error. The engine's own state is
discarded at the end of the run (R32), so this answer has a place of its own. -/
inductive AsmResult where
  /-- The image was handed over, with these warnings (R119, R129, R130). -/
  | assembled (warnings : List AsmWarning)
  /-- A fatal error: there is no image (R110). -/
  | failed (error : AsmError)
  deriving DecidableEq, Repr

/-! ## The machine -/

/-- Where one instance is in its life (R68, R330). The model's own field: it is what "construct, then load once" says. -/
inductive Phase where
  /-- The engine is turning text into an image; no image was loaded. -/
  | assembling
  /-- The assembly run ended in a fatal error: there is no image to load (R110). -/
  | noImage
  /-- The core is constructed and no image was loaded: it has no step (R330). -/
  | constructed
  /-- The instance was loaded: the core runs, has halted, or has faulted. -/
  | loaded
  deriving DecidableEq, Repr

/-- The whole machine. -/
structure State where
  /-- The accumulator (R20). -/
  a : Word
  /-- The secondary accumulator (R21). -/
  b : Word
  /-- The program counter, an exact integer that never wraps (R22). -/
  pc : Int
  /-- The frame pointer (R23). -/
  sp : Word
  /-- The running flag (R25). -/
  running : Bool
  /-- The fault register (R26). -/
  faultReg : Option FaultRecord
  /-- The step counter (R27). -/
  steps : Nat
  /-- The input buffer, next byte first (R29). -/
  input : List Byte
  /-- The output buffer, oldest byte first (R29). -/
  output : List Byte
  /-- The current input handle (R29). -/
  cin : Word
  /-- The current output handle (R29). -/
  cout : Word
  /-- The heap watermark `W`, an exact integer (R29). -/
  watermark : Int
  /-- Core memory (R30). -/
  mem : Memory
  /-- The warning log, oldest first (R31). -/
  warnings : List CoreWarning
  /-- The label-resolution engine (R32). -/
  engine : Engine
  /-- What the assembly run of this instance answered (R110), once it has ended; the model's own field, which no step of
  the core touches. -/
  assembly : Option AsmResult
  /-- The lifecycle of the instance, the model's own field. -/
  phase : Phase
  /-- The parameters of R6, the model's own field: read by steps, written by none. -/
  params : Params
  deriving DecidableEq, Repr

/-- Why the machine takes no step. Each is a stuck state of the spec, none is a fault of an instruction: an instruction's
fault is recorded in `State.faultReg` by a next state (R305). -/
inductive Fault where
  /-- Raised by `step` once Finish or Stop cleared the running flag (R161, R317; I3). Safe: the spec gives no step here. -/
  | halted
  /-- Raised by `step` while the fault register is not empty (R161, R305; I3). Safe: the spec gives no step here. -/
  | faulted
  /-- Raised by `step` after a fatal error of the engine: there is no image to load (R110). Safe: no run exists. -/
  | noImage
  deriving DecidableEq, Repr

/-- What the machine does not admit. -/
inductive Refusal where
  /-- Raised by an arm of `exec` whose instruction has no meaning. No arm raises it. Safe: it stops. -/
  | notModelled (mnemonic : String)
  /-- Raised by `step` on an instance that was never loaded (R330, R332; I2: "refuse"). Safe: it stops. -/
  | notLoaded
  /-- Raised by `load` on an instance that was already loaded (R68; I1: "refuse"). Safe: it stops. -/
  | alreadyLoaded
  deriving DecidableEq, Repr

/-- The start state of a run right after `load` (R332), for the image of length 0 (notes/assumptions/2.md) and no input
byte, with the parameters `Params.reference` (notes/assumptions/1.md). -/
def State.reset : State where
  a := 0
  b := 0
  pc := 401
  sp := 0
  running := true
  faultReg := none
  steps := 0
  input := []
  output := []
  cin := Params.reference.inputHandle
  cout := Params.reference.printHandle
  watermark := Params.reference.memSize
  mem := []
  warnings := []
  engine := Engine.blank
  assembly := none
  phase := .loaded
  params := Params.reference

end Sys2Proof.Machine
end

