-- ==== Sys2Proof/Machine/Ops.lean ====
section
/-! DEFINITION. The named operations over memory, registers and runtime state, and the entry into a fault (rules R12, R13,
R54 to R57, R161, R281, R305). -/

namespace Sys2Proof.Machine

/-! ## Lanes and Words of a memory -/

/-- The lane at a key. -/
def readByte : Memory → Nat → Byte
  | [], key => constructionByte key
  | c :: m, key => if c.1 = key then c.2 else readByte m key

/-- Put a cell before the first cell of a greater key. -/
def insertCell (c : Host.Cell) : Memory → Memory
  | [] => [c]
  | d :: m => if d.1 < c.1 then d :: insertCell c m else c :: d :: m

/-- Replace the lane at a key, keeping the canonical form. -/
def writeByte (m : Memory) (key : Nat) (b : Byte) : Memory :=
  let rest := m.filter fun c => c.1 ≠ key
  if b = constructionByte key then rest else insertCell (key, b) rest

/-- The Word at a word address: lane 0 is bits 7:0 and lane 1 is bits 15:8 (R57). -/
def readWord (m : Memory) (addr : Nat) : Word :=
  readByte m (2 * addr + 1) ++ readByte m (2 * addr)

/-- Replace the whole Word at a word address (R55). -/
def writeWord (m : Memory) (addr : Nat) (v : Word) : Memory :=
  writeByte (writeByte m (2 * addr) (v.extractLsb' 0 8)) (2 * addr + 1) (v.extractLsb' 8 8)

/-! ## Register and status updates -/

def State.setA (s : State) (v : Word) : State := { s with a := v }
def State.setB (s : State) (v : Word) : State := { s with b := v }
def State.setPc (s : State) (v : Int) : State := { s with pc := v }
def State.setSp (s : State) (v : Word) : State := { s with sp := v }
def State.setMem (s : State) (m : Memory) : State := { s with mem := m }
def State.setInput (s : State) (l : List Byte) : State := { s with input := l }
def State.setCin (s : State) (v : Word) : State := { s with cin := v }
def State.setCout (s : State) (v : Word) : State := { s with cout := v }
def State.setWatermark (s : State) (w : Int) : State := { s with watermark := w }

/-- Clear the running flag: the run has ended with success (R25, R170). -/
def State.halt (s : State) : State := { s with running := false }

/-- `out` of R281 for a sequence of bytes: appended while the current output handle is the print handle, else dropped. -/
def State.out (s : State) (bytes : List Byte) : State :=
  if s.cout = s.params.printHandle then { s with output := s.output ++ bytes } else s

/-- `warn UnknownSystemCall(callno, ipc)` (R13, R308). -/
def State.warn (s : State) (callno : Word) (ipc : Int) : State :=
  { s with warnings := s.warnings ++ [⟨callno, ipc⟩] }

/-- Count one completed instruction (R161). -/
def State.countStep (s : State) : State := { s with steps := s.steps + 1 }

/-! ## Memory access (R12, R54) -/

/-- An address is in [0, MEMSIZE), checked as the exact integer (R54). -/
def State.inBounds (s : State) (addr : Int) : Bool := 0 ≤ addr && addr < s.params.memSize

/-- The bounds check of R12: the word index, or the MemoryFault of that access. -/
def checkAddr (s : State) (kind : AccessKind) (addr : Int) : Except FaultCause Nat :=
  if s.inBounds addr then .ok addr.toNat else .error (.memoryFault addr kind)

/-- `MemRead` as an access of the given kind. -/
def memReadAs (s : State) (kind : AccessKind) (addr : Int) : Except FaultCause Word :=
  match checkAddr s kind addr with
  | .ok i => .ok (readWord s.mem i)
  | .error c => .error c

/-- `MemRead(addr)` (R12). -/
def memRead (s : State) (addr : Int) : Except FaultCause Word := memReadAs s .read addr

/-- `MemWrite(addr, v)` (R12). -/
def memWrite (s : State) (addr : Int) (v : Word) : Except FaultCause State :=
  match checkAddr s .write addr with
  | .ok i => .ok (s.setMem (writeWord s.mem i v))
  | .error c => .error c

/-! ## The byte helper (R56) -/

/-- The word address of byte offset `off` from `addr`, with floor division. -/
def laneAddr (addr off : Int) : Int := addr + off.fdiv 2

/-- The lane of byte offset `off`, 0 or 1. -/
def laneIndex (off : Int) : Nat := (off.emod 2).toNat

/-- `getByte(addr, off)`. -/
def getByte (s : State) (addr off : Int) : Except FaultCause Byte :=
  match memRead s (laneAddr addr off) with
  | .ok w => .ok (BitVec.ofNat 8 (bits16 w >>> (8 * laneIndex off)))
  | .error c => .error c

/-- The Word `w` with one lane replaced and the other undisturbed. -/
def mergeLane (w : Word) (lane : Nat) (v : Byte) : Word :=
  (w &&& ~~~((0xFF : Word) <<< (8 * lane))) ||| (v.zeroExtend 16 <<< (8 * lane))

/-- `setByte(addr, off, v)`. -/
def setByte (s : State) (addr off : Int) (v : Byte) : Except FaultCause State :=
  match memRead s (laneAddr addr off) with
  | .ok w => memWrite s (laneAddr addr off) (mergeLane w (laneIndex off) v)
  | .error c => .error c

/-! ## Taking a fault (R169, R305)

A fault has no handler and no return (R303, R311): the one thing entered is the fault register. -/

/-- Fault entry, shared by every fatal condition of a step: the record `(code, ipc, info)` is written with `ipc` the pc of
the faulting instruction, and nothing else changes (R305). -/
def takeFault (s : State) (c : FaultCause) : State := { s with faultReg := some ⟨c, some s.pc⟩ }

/-- The end of an instruction: its state, or the state it began in with the fault taken (R169). -/
def commit (s : State) (r : Except FaultCause State) : Host.Outcome State Fault Refusal :=
  match r with
  | .ok t => .next t
  | .error c => .next (takeFault s c)

/-- The end of a step: an instruction that completed is counted, one that faulted is not (R161). -/
def retire (o : Host.Outcome State Fault Refusal) : Host.Outcome State Fault Refusal :=
  match o with
  | .next t => if t.faultReg.isNone then .next t.countStep else .next t
  | o => o

end Sys2Proof.Machine
end

