-- ==== Sys2Proof/Machine/Engine.lean ====
section
/-! DEFINITION. The label-resolution address-chaining engine (rules R110 to R136). One `engineStep` reads one item of the
text, or follows one link of a backpatch chain (R118): a chain walk is not bounded by the text. -/

namespace Sys2Proof.Machine

/-! ## The label table (R33) -/

/-- The slot of a label; a label with no entry has slot 0. -/
def slotGet : List (Nat × Int) → Nat → Int
  | [], _ => 0
  | e :: t, k => if e.1 = k then e.2 else slotGet t k

/-- Put an entry before the first entry of a greater label. -/
def slotInsert (e : Nat × Int) : List (Nat × Int) → List (Nat × Int)
  | [] => [e]
  | f :: t => if f.1 < e.1 then f :: slotInsert e t else e :: f :: t

/-- Write the slot of a label; a slot of 0 has no entry. -/
def slotSet (t : List (Nat × Int)) (k : Nat) (v : Int) : List (Nat × Int) :=
  let rest := t.filter fun e => e.1 ≠ k
  if v = 0 then rest else slotInsert (k, v) rest

/-- The warnings of R130: every slot that is still positive, by rising label number. -/
def unresolved (t : List (Nat × Int)) : List AsmWarning :=
  (t.filter fun e => 0 < e.2).map fun e => .unresolvedLabel e.1 e.2

/-! ## Characters and numbers (R114 to R116) -/

/-- A separator character: codes 0..32, code 127, and `$` (R114). -/
def isSeparator (c : Char) : Bool := c.toNat ≤ 32 || c.toNat == 127 || c == '$'

/-- A line feed or a carriage return, which ends a comment (R115). -/
def isLineEnd (c : Char) : Bool := c.toNat == 10 || c.toNat == 13

/-- One of the digits 0..9. -/
def isDigitChar (c : Char) : Bool := 48 ≤ c.toNat && c.toNat ≤ 57

/-- Unread text and its position. -/
structure Scan where
  text : List Char
  position : Nat
  deriving DecidableEq, Repr

/-- `skipSep()` on the text from a position, `inComment` between a `/` and its line end (R114, R115). The line terminators
after a comment are separators. -/
def skipFrom : Bool → List Char → Nat → Scan
  | _, [], p => ⟨[], p⟩
  | inComment, c :: rest, p =>
    if inComment then skipFrom (!isLineEnd c) rest (p + 1)
    else if c == '/' then skipFrom true rest (p + 1)
    else if isSeparator c then skipFrom false rest (p + 1)
    else ⟨c :: rest, p⟩

/-- `skipSep()`. -/
def skipSep (sc : Scan) : Scan := skipFrom false sc.text sc.position

/-- `AsmSyntaxError(position, character)` at the next character. -/
def syntaxErrorAt (sc : Scan) : AsmError := .syntaxError sc.position sc.text.head?

/-- The digits at the head of the text, after the value `v`. -/
def scanDigits : List Char → Nat → Nat → Nat × Scan
  | [], v, p => (v, ⟨[], p⟩)
  | c :: rest, v, p =>
    if isDigitChar c then scanDigits rest (v * 10 + (c.toNat - 48)) (p + 1) else (v, ⟨c :: rest, p⟩)

/-- One or more digits. -/
def readDigits (sc : Scan) : Except AsmError (Nat × Scan) :=
  match sc.text with
  | [] => .error (syntaxErrorAt sc)
  | c :: _ => if isDigitChar c then .ok (scanDigits sc.text 0 sc.position) else .error (syntaxErrorAt sc)

/-- `readNumber()` (R116): an optional `-` and one or more digits, exact. -/
def readNumber (sc : Scan) : Except AsmError (Int × Scan) :=
  match sc.text with
  | '-' :: rest =>
    match readDigits ⟨rest, sc.position + 1⟩ with
    | .ok (v, sc') => .ok (-(v : Int), sc')
    | .error e => .error e
  | _ =>
    match readDigits sc with
    | .ok (v, sc') => .ok (v, sc')
    | .error e => .error e

/-! ## Emitting and referencing -/

/-- The engine with its unread text moved on. -/
def Engine.moveTo (e : Engine) (sc : Scan) : Engine := { e with text := sc.text, position := sc.position }

/-- The engine's unread text. -/
def Engine.scan (e : Engine) : Scan := ⟨e.text, e.position⟩

/-- `emit(v)` (R112). -/
def emit (p : Params) (e : Engine) (v : Int) : Except AsmError Engine :=
  if p.memSize ≤ e.cursor then .error (.imageOverflow e.cursor)
  else .ok { e with image := writeWord e.image e.cursor (wrap16 v), cursor := e.cursor + 1 }

/-- `checkLabel(k)` (R120). -/
def checkLabel (p : Params) (k : Int) : Except AsmError Nat :=
  if 0 ≤ k ∧ k < p.labMax then .ok k.toNat else .error (.labelRange k)

/-- `ref(k, p)` of R121 for a checked label: store the address of a defined label, else extend the chain. -/
def reference (e : Engine) (k addr : Nat) : Engine :=
  let s := slotGet e.table k
  if s < 0 then { e with image := writeWord e.image addr (wrap16 (-s)) }
  else { e with image := writeWord e.image addr (wrap16 s), table := slotSet e.table k addr }

/-- Emit a placeholder and make it a reference to label `k` (R124, R127). -/
def emitReference (p : Params) (e : Engine) (k : Nat) : Except AsmError Engine := do
  let e' ← emit p e 0
  return reference e' k e.cursor

/-! ## Instructions (R122 to R125) -/

/-- The opcode of a letter (R82). -/
def opcodeOfLetter (c : Char) : Option Nat :=
  if c == 'L' then some 0 else if c == 'S' then some 1 else if c == 'A' then some 2
  else if c == 'J' then some 3 else if c == 'T' then some 4 else if c == 'F' then some 5
  else if c == 'K' then some 6 else if c == 'X' then some 7 else none

/-- The value of an instruction word as an integer, for `emit`. -/
def instrWord (f : Nat) (i p d : Bool) (n : BitVec 8) : Int := (encodeWord f i p d n).toInt

/-- An optional flag letter (R122): whether it stands next, and the text after it. -/
def readFlag (letter : Char) (sc : Scan) : Bool × Scan :=
  match sc.text with
  | c :: rest => if c == letter then (true, skipSep ⟨rest, sc.position + 1⟩) else (false, sc)
  | [] => (false, sc)

/-- `operandG(f, I, P)` after the `G` (R123): always the data-word form. -/
def operandGlobal (p : Params) (e : Engine) (f : Nat) (i fr : Bool) (sc : Scan) : Except AsmError Engine := do
  let (v, sc) ← readNumber (skipSep sc)
  let e ← emit p (e.moveTo sc) (instrWord f i fr true 0)
  emit p e v

/-- `operandL(f, I, P)` after the `L` (R124): always the data-word form, with a placeholder. -/
def operandLabel (p : Params) (e : Engine) (f : Nat) (i fr : Bool) (sc : Scan) : Except AsmError Engine := do
  let (v, sc) ← readNumber (skipSep sc)
  let k ← checkLabel p v
  let e ← emit p (e.moveTo sc) (instrWord f i fr true 0)
  emitReference p e k

/-- `operandN(f, I, P)` (R125): inline when the number is in 0..255. -/
def operandNumber (p : Params) (e : Engine) (f : Nat) (i fr : Bool) (sc : Scan) : Except AsmError Engine := do
  let (v, sc) ← readNumber sc
  if 0 ≤ v ∧ v ≤ 255 then emit p (e.moveTo sc) (instrWord f i fr false (BitVec.ofInt 8 v))
  else
    let e ← emit p (e.moveTo sc) (instrWord f i fr true 0)
    emit p e v

/-- `instruction()` after the opcode letter (R122). -/
def assembleInstruction (p : Params) (e : Engine) (f : Nat) (sc : Scan) : Except AsmError Engine :=
  let (i, sc) := readFlag 'I' (skipSep sc)
  let (fr, sc) := readFlag 'P' sc
  match sc.text with
  | [] => .error (syntaxErrorAt sc)
  | c :: rest =>
    if c == 'G' then operandGlobal p e f i fr ⟨rest, sc.position + 1⟩
    else if c == 'L' then operandLabel p e f i fr ⟨rest, sc.position + 1⟩
    else if isDigitChar c || c == '-' then operandNumber p e f i fr sc
    else .error (syntaxErrorAt sc)

/-! ## Directives and definitions (R118, R119, R126 to R130) -/

/-- `directiveC()` after the `C` (R126). -/
def directiveC (p : Params) (e : Engine) (sc : Scan) : Except AsmError Engine := do
  let (v, sc) ← readNumber (skipSep sc)
  emit p (e.moveTo sc) v

/-- `directiveD()` after the `D` (R127). -/
def directiveD (p : Params) (e : Engine) (sc : Scan) : Except AsmError Engine := do
  let sc := skipSep sc
  match sc.text with
  | 'L' :: rest =>
    let (v, sc) ← readNumber (skipSep ⟨rest, sc.position + 1⟩)
    let k ← checkLabel p v
    emitReference p (e.moveTo sc) k
  | _ =>
    let (v, sc) ← readNumber sc
    emit p (e.moveTo sc) v

/-- `directiveG()` after the `G` (R128): a reference in a global slot; the cursor does not move. -/
def directiveG (p : Params) (e : Engine) (sc : Scan) : Except AsmError Engine := do
  let (g, sc) ← readNumber (skipSep sc)
  let sc := skipSep sc
  match sc.text with
  | 'L' :: rest =>
    let (v, sc) ← readNumber (skipSep ⟨rest, sc.position + 1⟩)
    if 0 ≤ g ∧ g ≤ 400 then
      let k ← checkLabel p v
      let e := e.moveTo sc
      return reference { e with image := writeWord e.image g.toNat 0 } k g.toNat
    else .error (syntaxErrorAt sc)
  | _ => .error (syntaxErrorAt sc)

/-- `directiveZ()` after the `Z` (R129): report what is unresolved, then a fresh table. -/
def directiveZ (e : Engine) (sc : Scan) : Engine :=
  { e.moveTo sc with warnings := e.warnings ++ unresolved e.table, table := [] }

/-- `define(k)` up to its chain walk (R118, R119). -/
def beginDefinition (p : Params) (e : Engine) (v : Int) : Except AsmError Engine := do
  let k ← checkLabel p v
  let s := slotGet e.table k
  let e := { e with walk := some ⟨k, s⟩ }
  if s < 0 then return { e with warnings := e.warnings ++ [.duplicateLabel k (-s) e.cursor] }
  else return e

/-- One round of the loop of `define(k)`, or its end (R118). -/
def walkChain (p : Params) (e : Engine) (w : ChainWalk) : Except AsmError Engine :=
  if 0 < w.link then
    if p.memSize ≤ w.link.toNat then .error (.imageOverflow w.link)
    else
      .ok { e with
        image := writeWord e.image w.link.toNat (wrap16 e.cursor)
        walk := some ⟨w.label, (readWord e.image w.link.toNat).toInt⟩ }
  else .ok { e with table := slotSet e.table w.label (-(e.cursor : Int)), walk := none }

/-- The end of the text (R130). -/
def finishText (e : Engine) : Engine :=
  { e with warnings := e.warnings ++ unresolved e.table, finished := true }

/-! ## The main loop (R117) -/

/-- One item of the text. -/
def readItem (p : Params) (e : Engine) : Except AsmError Engine :=
  let sc := skipSep e.scan
  match sc.text with
  | [] => .ok (finishText (e.moveTo sc))
  | c :: rest =>
    let after : Scan := ⟨rest, sc.position + 1⟩
    if isDigitChar c || c == '-' then
      match readNumber sc with
      | .ok (v, sc') => beginDefinition p (e.moveTo sc') v
      | .error err => .error err
    else
      match opcodeOfLetter c with
      | some f => assembleInstruction p e f after
      | none =>
        if c == 'C' then directiveC p e after
        else if c == 'D' then directiveD p e after
        else if c == 'G' then directiveG p e after
        else if c == 'Z' then .ok (directiveZ e after)
        else .error (syntaxErrorAt sc)

/-- Keep the engine and record its fatal error: no image comes of it (R110). -/
def settleEngine (e : Engine) (r : Except AsmError Engine) : Engine :=
  match r with
  | .ok e' => e'
  | .error err => { e with fatal := some err }

/-- One step of the engine: a chain link while a definition is being walked, else one item of the text. An engine that has
finished or failed stays as it is. -/
def engineStep (p : Params) (e : Engine) : Engine :=
  if e.finished || e.fatal.isSome then e
  else
    match e.walk with
    | some w => settleEngine e (walkChain p e w)
    | none => settleEngine e (readItem p e)

/-- `n` steps of the engine. -/
def engineRun (p : Params) : Nat → Engine → Engine
  | 0, e => e
  | n + 1, e => engineRun p n (engineStep p e)

/-! ## Start and result (R91, R111, R113, R130) -/

/-- The bootstrap words 264, 518 and 5639 at 401 to 403 (R91, R113). -/
def bootstrapImage : Memory := writeWord (writeWord (writeWord [] 401 264) 402 518) 403 5639

/-- The engine at the start of `assemble(text)`, its bootstrap emitted (R111, R113). -/
def Engine.start (text : List Char) : Engine :=
  { Engine.blank with text := text, cursor := 404, image := bootstrapImage }

/-- The image words at 0..cursor-1 (R130). -/
def imageWords (e : Engine) : List Word := (List.range e.cursor).map (readWord e.image)

end Sys2Proof.Machine
end

