-- ==== Sys2Proof/Machine/Boot.lean ====
section
/-! DEFINITION. The life of one instance: construction, load, the hand-over of the engine's image, and the report of a run
(rules R67, R68, R170, R307, R330 to R333). -/

namespace Sys2Proof.Machine

/-- Copy words to rising word addresses from `addr` on (R331). -/
def copyWords : Memory → Nat → List Word → Memory
  | m, _, [] => m
  | m, addr, v :: rest => copyWords (writeWord m addr v) (addr + 1) rest

/-- The register and status values right after `load` (R332), which construction does not show yet (R330). No assembly run
is under way, so the engine is blank (R32). -/
def startRegisters (s : State) : State :=
  { s with
    a := 0, b := 0, pc := progStart, running := true, faultReg := none, steps := 0, output := []
    cin := s.params.inputHandle, cout := s.params.printHandle, watermark := s.params.memSize
    warnings := [], engine := Engine.blank, phase := .loaded }

/-- The end of an assembly run: the engine's state is discarded (R32), and its answer kept (R110). -/
def endAssembly (r : AsmResult) (s : State) : State := { s with engine := Engine.blank, assembly := some r }

/-- The effect of `load(image)` (R331, R332): an image that does not fit is a LoadFault, which belongs to no instruction
(R307); the caller's input bytes are already in the input buffer (R333). -/
def loadImage (image : List Word) (s : State) : State :=
  if s.params.memSize < image.length then
    { startRegisters s with faultReg := some ⟨.loadFault image.length, none⟩ }
  else { startRegisters s with mem := copyWords s.mem 0 image, sp := wrap16 image.length }

/-- `load(image)`, on an instance that was not loaded before (R68, R330). A word beyond the Word range is wrapped (R331). -/
def load (image : List Int) (s : State) : Host.Outcome State Fault Refusal :=
  match s.phase with
  | .loaded => .refused .alreadyLoaded
  | _ => .next (loadImage (image.map wrap16) s)

/-- Construction of an instance that awaits `load` (R330), with the input bytes of its run (R333). Memory has its
construction values; the registers show no value yet. -/
def construct (p : Params) (input : List Byte) : State :=
  { startRegisters { State.reset with params := p } with input := input, sp := 0, mem := [], phase := .constructed }

/-- Construction of an instance whose image the engine will assemble from `text` (R32, R110). -/
def constructWithText (p : Params) (text : List Char) (input : List Byte) : State :=
  { construct p input with engine := Engine.start text, phase := .assembling }

/-- One step of an assembly run: an engine step, or the end of the run. A fatal error ends it with no image (R110); the
finished image is loaded and nothing else of the engine reaches the core (R4, R32, R67). -/
def assemblyStep (s : State) : State :=
  match s.engine.fatal with
  | some err => { endAssembly (.failed err) s with phase := .noImage }
  | none =>
    if s.engine.finished then loadImage (imageWords s.engine) (endAssembly (.assembled s.engine.warnings) s)
    else { s with engine := engineStep s.params s.engine }

/-- The report of an ended run (R170): its output and warnings with the exit value, or with the fault record. -/
structure Report where
  success : Bool
  output : List Byte
  warnings : List CoreWarning
  exitValue : Option Word
  error : Option FaultRecord
  deriving DecidableEq, Repr

/-- The report, once the run has ended (R170, R305): none while it can take a step. -/
def reportOf (s : State) : Option Report :=
  match s.phase, s.faultReg, s.running with
  | .loaded, some f, _ => some ⟨false, s.output, s.warnings, none, some f⟩
  | .loaded, none, false => some ⟨true, s.output, s.warnings, some s.a, none⟩
  | _, _, _ => none

end Sys2Proof.Machine
end

