-- ==== Sys2Proof/Machine/Operands.lean ====
section
/-! DEFINITION. Resolving an operand in its three stages (rules R83, R84, R165 to R167), and running an instruction body on
the resolved operand. -/

namespace Sys2Proof.Machine

/-- Stage 1 (R165): the inline operand zero-extended, or the data word as a signed Word. -/
def baseValue : OperandBase → Int
  | .inline n => n.toNat
  | .dataWord v => v.toInt

/-- Stages 1 and 2 (R166): `sp` is added when P = 1, exactly. -/
def operandSum (o : Operand) (s : State) : Int :=
  baseValue o.base + (if o.frameRel then s.sp.toInt else 0)

/-- All three stages (R167): the resolved operand `d`, an exact integer. -/
def resolve (o : Operand) (s : State) : Except FaultCause Int :=
  if o.indirect then
    match memRead s (operandSum o s) with
    | .ok w => .ok w.toInt
    | .error c => .error c
  else .ok (operandSum o s)

/-- `pc` past an instruction of `n` words, as it stands when the instruction executes (R160, R168). -/
def State.past (s : State) (n : Nat) : State := s.setPc (s.pc + n)

/-- Run the body of an instruction with operand `o` on its resolved operand and the state with `pc` past it. -/
def withOperand (o : Operand) (s : State) (body : Int → State → Except FaultCause State) :
    Host.Outcome State Fault Refusal :=
  commit s <|
    match resolve o s with
    | .ok d => body d (s.past o.words)
    | .error c => .error c

/-- Run the body of a canonical inline operator word, one word long with nothing to resolve (R85). -/
def withoutOperand (s : State) (body : State → Except FaultCause State) : Host.Outcome State Fault Refusal :=
  commit s (body (s.past 1))

end Sys2Proof.Machine
end

