-- ==== Sys2Proof/Machine/Frame.lean ====
section
/-! DEFINITION. The call-frame stack controller: user calls, Return, and the three system calls that rewrite `sp` and `pc`
(rules R202 to R208). Each operation gets the state with `pc` past the instruction. A failed access discards every earlier
effect (R169), so writing in turn checks the addresses in the rule's order. -/

namespace Sys2Proof.Machine

/-- The argument `arg_i` of a system call with frame address `frame` (R201, R261). -/
def argument (t : State) (frame : Int) (i : Nat) : Except FaultCause Word := memRead t (frame + 2 + i)

/-- The user-call path of Call (R202). -/
def userCall (frame : Int) (t : State) : Except FaultCause State := do
  let t1 ← memWrite t frame t.sp
  let t2 ← memWrite t1 (frame + 1) (wrap16 t.pc)
  return (t2.setSp (wrap16 frame)).setPc t.a.toInt

/-- Return (R203): both words are read through the old `sp`, `sp + 1` first. -/
def opReturn (t : State) : Except FaultCause State := do
  let newpc ← memRead t (t.sp.toInt + 1)
  let newsp ← memRead t t.sp.toInt
  return (t.setPc newpc.toInt).setSp newsp

/-- Level (R206): `a <- sp`. -/
def sysLevel (t : State) : Except FaultCause State := .ok (t.setA t.sp)

/-- Long-jump (R207): the first argument goes to `sp` and the second to `pc`. -/
def sysLongJump (frame : Int) (t : State) : Except FaultCause State := do
  let newsp ← argument t frame 0
  let newpc ← argument t frame 1
  return (t.setSp newsp).setPc newpc.toInt

/-- Make-closure (R208): a frame of four words above the N + 1 vector words, and entry into the routine. -/
def sysMakeClosure (frame : Int) (t : State) : Except FaultCause State := do
  let routine ← argument t frame 0
  let count ← argument t frame 1
  let nf := frame + count.toInt + 1
  let t1 ← memWrite t nf t.sp
  let t2 ← memWrite t1 (nf + 1) (wrap16 t.pc)
  let t3 ← memWrite t2 (nf + 2) (wrap16 frame)
  let t4 ← memWrite t3 (nf + 3) count
  return (t4.setSp (wrap16 nf)).setPc routine.toInt

end Sys2Proof.Machine
end

