-- ==== Sys2Proof/Machine/Syscalls.lean ====
section
/-! DEFINITION. The system-call port and the runtime calls behind it (rules R260 to R284). Each call gets the state with
`pc` past the Call instruction; a call that fails discards all of its effects (R261). -/

namespace Sys2Proof.Machine

/-! ## Text rendering (R273, R274, R282) -/

/-- The ASCII code of a digit below 16, upper case. -/
def digitByte (d : Nat) : Byte := BitVec.ofNat 8 (if d < 10 then 48 + d else 55 + d)

/-- The decimal digits of `n` before `acc`, at most `fuel` of them, without leading zeros. -/
def decimalDigits : Nat → Nat → List Byte → List Byte
  | 0, _, acc => acc
  | fuel + 1, n, acc =>
    if n / 10 = 0 then digitByte (n % 10) :: acc
    else decimalDigits fuel (n / 10) (digitByte (n % 10) :: acc)

/-- `dec(v)` of R282. The magnitude of a Word has at most five digits. -/
def decBytes (v : Word) : List Byte :=
  (if v.toInt < 0 then [45] else []) ++ decimalDigits 5 v.toInt.natAbs []

/-- `dec(v)` after the spaces that fill it to the field width (R272). -/
def paddedBytes (v : Word) (width : Int) : List Byte :=
  List.replicate (width - (decBytes v).length).toNat 32 ++ decBytes v

/-- The low `m` digits of a pattern, `bits` bits a digit, most significant first (R273, R274). -/
def radixBytes (bits pattern : Nat) : Nat → List Byte
  | 0 => []
  | m + 1 => digitByte (pattern >>> (bits * m) % 2 ^ bits) :: radixBytes bits pattern m

/-- How many digits Write-hex and Write-octal output for the count argument `k`: max(k, 1). -/
def digitCount (k : Word) : Nat := (max k.toInt 1).toNat

/-! ## Reading strings (R270) -/

/-- The bytes at offsets `off`, `off + 1`, ... from `addr`. -/
def bytesFrom (t : State) (addr : Int) : Nat → Int → Except FaultCause (List Byte)
  | 0, _ => .ok []
  | n + 1, off => do
    let x ← getByte t addr off
    let rest ← bytesFrom t addr n (off + 1)
    return x :: rest

/-- The bytes of the length-prefixed string at `addr`, without the length byte. -/
def stringBytes (t : State) (addr : Int) : Except FaultCause (List Byte) := do
  let len ← getByte t addr 0
  bytesFrom t addr len.toNat 1

/-! ## Streams and character I/O -/

/-- Select-input (R263). -/
def sysSelectInput (frame : Int) (t : State) : Except FaultCause State := do
  let handle ← argument t frame 0
  return t.setCin handle

/-- Select-output (R264). -/
def sysSelectOutput (frame : Int) (t : State) : Except FaultCause State := do
  let handle ← argument t frame 0
  return t.setCout handle

/-- Read-char (R265): the next input byte, or -1. It reads the one input buffer whatever `cin` holds. -/
def sysReadChar (t : State) : Except FaultCause State :=
  match t.input with
  | [] => .ok (t.setA (-1))
  | x :: rest => .ok ((t.setA (x.zeroExtend 16)).setInput rest)

/-- Stop (R266). -/
def sysStop (frame : Int) (t : State) : Except FaultCause State := do
  let code ← argument t frame 0
  return (t.setA code).halt

/-- Write-char (R267): the low byte of the argument. -/
def sysWriteChar (frame : Int) (t : State) : Except FaultCause State := do
  let v ← argument t frame 0
  return t.out [v.extractLsb' 0 8]

/-- Find-input (R268). -/
def sysFindInput (t : State) : Except FaultCause State := .ok (t.setA t.params.inputHandle)

/-- Find-output (R269). -/
def sysFindOutput (t : State) : Except FaultCause State := .ok (t.setA t.params.printHandle)

/-! ## Formatted and string output -/

/-- Write-string (R270). -/
def sysWriteString (frame : Int) (t : State) : Except FaultCause State := do
  let addr ← argument t frame 0
  let bytes ← stringBytes t addr.toInt
  return t.out bytes

/-- Write-number (R271). -/
def sysWriteNumber (frame : Int) (t : State) : Except FaultCause State := do
  let v ← argument t frame 0
  return t.out (decBytes v)

/-- Write-decimal-padded (R272). -/
def sysWriteDecimalPadded (frame : Int) (t : State) : Except FaultCause State := do
  let v ← argument t frame 0
  let width ← argument t frame 1
  return t.out (paddedBytes v width.toInt)

/-- Write-hex (R273). -/
def sysWriteHex (frame : Int) (t : State) : Except FaultCause State := do
  let v ← argument t frame 0
  let k ← argument t frame 1
  return t.out (radixBytes 4 (bits16 v) (digitCount k))

/-- Write-octal (R274). -/
def sysWriteOctal (frame : Int) (t : State) : Except FaultCause State := do
  let v ← argument t frame 0
  let k ← argument t frame 1
  return t.out (radixBytes 3 (bits16 v) (digitCount k))

/-- The width a `%I` specifier takes from the byte after it (R275). -/
def formatWidth (x : Byte) : Int := if 48 ≤ x.toNat ∧ x.toNat ≤ 57 then (x.toNat : Int) - 48 else 0

/-- The output of the format string at `f` of length `len` from its byte `i` on, with `arg_k` the next argument (R275).
Each round passes at least one byte, so `len` rounds are enough. -/
def formatBytes (t : State) (frame f : Int) (len : Nat) : Nat → Nat → Nat → Except FaultCause (List Byte)
  | 0, _, _ => .ok []
  | fuel + 1, i, k => do
    if len < i then return []
    let c ← getByte t f i
    if c ≠ 37 then
      let rest ← formatBytes t frame f len fuel (i + 1) k
      return c :: rest
    if len < i + 1 then return []
    let x ← getByte t f (i + 1 : Nat)
    if x = 83 then -- S
      let addr ← argument t frame k
      let text ← stringBytes t addr.toInt
      let rest ← formatBytes t frame f len fuel (i + 2) (k + 1)
      return text ++ rest
    if x = 78 then -- N
      let v ← argument t frame k
      let rest ← formatBytes t frame f len fuel (i + 2) (k + 1)
      return decBytes v ++ rest
    if x = 67 then -- C
      let v ← argument t frame k
      let rest ← formatBytes t frame f len fuel (i + 2) (k + 1)
      return v.extractLsb' 0 8 :: rest
    if x = 73 then -- I
      if i + 2 ≤ len then
        let wc ← getByte t f (i + 2 : Nat)
        let v ← argument t frame k
        let rest ← formatBytes t frame f len fuel (i + 3) (k + 1)
        return paddedBytes v (formatWidth wc) ++ rest
      let v ← argument t frame k
      let rest ← formatBytes t frame f len fuel (i + 2) (k + 1)
      return paddedBytes v 0 ++ rest
    let rest ← formatBytes t frame f len fuel (i + 2) k
    return x :: rest

/-- Write-formatted (R275). -/
def sysWriteFormatted (frame : Int) (t : State) : Except FaultCause State := do
  let f ← argument t frame 0
  let len ← getByte t f.toInt 0
  let bytes ← formatBytes t frame f.toInt len.toNat len.toNat 1 1
  return t.out bytes

/-! ## Input parsing, bytes and the heap -/

/-- The run of decimal digits at the head of the input after the value `v`, and what follows it (R276). -/
def takeDecimal : List Byte → Nat → Nat × List Byte
  | [], v => (v, [])
  | x :: rest, v =>
    if 48 ≤ x.toNat ∧ x.toNat ≤ 57 then takeDecimal rest (v * 10 + (x.toNat - 48)) else (v, x :: rest)

/-- The value Read-number parses and the input it leaves (R276): a lone `-` is consumed and gives 0. -/
def parseNumber (input : List Byte) : Int × List Byte :=
  match input with
  | 45 :: rest => (-((takeDecimal rest 0).1 : Int), (takeDecimal rest 0).2)
  | input => ((takeDecimal input 0).1, (takeDecimal input 0).2)

/-- Read-number (R276). -/
def sysReadNumber (t : State) : Except FaultCause State :=
  .ok ((t.setA (wrap16 (parseNumber t.input).1)).setInput (parseNumber t.input).2)

/-- Get-byte (R277). -/
def sysGetByte (frame : Int) (t : State) : Except FaultCause State := do
  let addr ← argument t frame 0
  let off ← argument t frame 1
  let x ← getByte t addr.toInt off.toInt
  return t.setA (x.zeroExtend 16)

/-- Put-byte (R278). -/
def sysPutByte (frame : Int) (t : State) : Except FaultCause State := do
  let addr ← argument t frame 0
  let off ← argument t frame 1
  let v ← argument t frame 2
  setByte t addr.toInt off.toInt (v.extractLsb' 0 8)

/-- Get-vector (R279): no range and no collision check. -/
def sysGetVector (frame : Int) (t : State) : Except FaultCause State := do
  let n ← argument t frame 0
  let w := t.watermark - n.toInt
  return (t.setWatermark w).setA (wrap16 w)

/-- Free-vector (R280): nothing changes. -/
def sysFreeVector (t : State) : Except FaultCause State := .ok t

/-! ## The port (R260) -/

/-- The call whose `SysNum` is `callno` (R284). -/
def sysNameOf (nums : SysNums) (callno : Word) : Option SysName :=
  SysName.all.find? fun n => nums.num n = callno

/-- The call of each name. -/
def runSyscall (n : SysName) (frame : Int) (t : State) : Except FaultCause State :=
  match n with
  | .selectInput => sysSelectInput frame t
  | .selectOutput => sysSelectOutput frame t
  | .readChar => sysReadChar t
  | .writeChar => sysWriteChar frame t
  | .stop => sysStop frame t
  | .level => sysLevel t
  | .longJump => sysLongJump frame t
  | .makeClosure => sysMakeClosure frame t
  | .findOutput => sysFindOutput t
  | .findInput => sysFindInput t
  | .writeString => sysWriteString frame t
  | .writeNumber => sysWriteNumber frame t
  | .writeDecimalPadded => sysWriteDecimalPadded frame t
  | .readNumber => sysReadNumber t
  | .writeHex => sysWriteHex frame t
  | .writeFormatted => sysWriteFormatted frame t
  | .writeOctal => sysWriteOctal frame t
  | .getByte => sysGetByte frame t
  | .putByte => sysPutByte frame t
  | .getVector => sysGetVector frame t
  | .freeVector => sysFreeVector t

/-- `syscall(a, frame)` of R260 for the Call at `ipc`; an unknown number is logged and ignored (R262). -/
def syscall (ipc frame : Int) (t : State) : Except FaultCause State :=
  match sysNameOf t.params.sysNums t.a with
  | some n => runSyscall n frame t
  | none => .ok (t.warn t.a ipc)

end Sys2Proof.Machine
end

