-- ==== Sys2Proof/Machine/Call.lean ====
section
/-! DEFINITION. Call, which is a system call or a user call by the value of `a` (rules R200 to R202). -/

namespace Sys2Proof.Machine

/-- Call (R200): the frame is `d + sp`, exact; `a` below PROGSTART is a system call. -/
def execCall (o : Operand) (s : State) : Host.Outcome State Fault Refusal :=
  withOperand o s fun d t =>
    if t.a.toInt < progStart then syscall s.pc (d + t.sp.toInt) t else userCall (d + t.sp.toInt) t

end Sys2Proof.Machine
end

