-- ==== Sys2Proof/Machine/Flags.lean ====
section
/-! DEFINITION. Truth values as Words (rule R14). The core has no condition codes and no flags register (R34): a comparison
writes its truth value to `a`, and the tests read `a`. -/

namespace Sys2Proof.Machine

/-- `bool(c)` of R14: -1 for true, 0 for false. -/
def boolWord (c : Bool) : Word := if c then -1 else 0

/-- What TestTrue takes as true: any Word but 0 (R191). -/
def testsTrue (v : Word) : Bool := v != 0

/-- What TestFalse takes as false: 0 only (R192). -/
def testsFalse (v : Word) : Bool := v == 0

end Sys2Proof.Machine
end

