-- ==== Sys2Proof/Machine/Jumps.lean ====
section
/-! DEFINITION. Jump, TestTrue and TestFalse (rules R190 to R193). A target is not checked: a bad one faults at the next
fetch. -/

namespace Sys2Proof.Machine

/-- Jump (R190): `pc <- d`. -/
def execJump (o : Operand) (s : State) : Host.Outcome State Fault Refusal :=
  withOperand o s fun d t => .ok (t.setPc d)

/-- TestTrue (R191): the jump is taken when `a` is not 0. -/
def execTestTrue (o : Operand) (s : State) : Host.Outcome State Fault Refusal :=
  withOperand o s fun d t => .ok (if testsTrue t.a then t.setPc d else t)

/-- TestFalse (R192): the jump is taken when `a` is 0. -/
def execTestFalse (o : Operand) (s : State) : Host.Outcome State Fault Refusal :=
  withOperand o s fun d t => .ok (if testsFalse t.a then t.setPc d else t)

end Sys2Proof.Machine
end

