-- ==== Sys2Proof/Machine/Alu.lean ====
section
/-! DEFINITION. The 16-bit ALU: each result is computed on exact integers, or on bit patterns, and wrapped once (rules R221
to R241, R245, R247). The left operand is `b`, the right operand is `a`. -/

namespace Sys2Proof.Machine

/-- R223. -/
def aluNegate (a : Word) : Word := wrap16 (-a.toInt)

/-- R224. -/
def aluNot (a : Word) : Word := ~~~a

/-- R225. -/
def aluMultiply (b a : Word) : Word := wrap16 (b.toInt * a.toInt)

/-- R226: the quotient rounds toward minus infinity, and a zero divisor leaves `a`. -/
def aluDivide (b a : Word) : Word := if a = 0 then a else wrap16 (b.toInt.fdiv a.toInt)

/-- R227: the sign rule is the parameter `REM_MODE`, and a zero divisor leaves `a`. -/
def aluRemainder (mode : RemMode) (b a : Word) : Word :=
  if a = 0 then a
  else
    match mode with
    | .truncate => wrap16 (b.toInt - a.toInt * b.toInt.tdiv a.toInt)
    | .floor => wrap16 (b.toInt - a.toInt * b.toInt.fdiv a.toInt)

/-- R228, and R182 for a Word operand. -/
def aluAdd (b a : Word) : Word := wrap16 (b.toInt + a.toInt)

/-- R229. -/
def aluSubtract (b a : Word) : Word := wrap16 (b.toInt - a.toInt)

/-- R230. -/
def aluEqual (b a : Word) : Word := boolWord (b.toInt = a.toInt)

/-- R231. -/
def aluNotEqual (b a : Word) : Word := boolWord (b.toInt ≠ a.toInt)

/-- R232. -/
def aluLess (b a : Word) : Word := boolWord (b.toInt < a.toInt)

/-- R233. -/
def aluGreaterOrEqual (b a : Word) : Word := boolWord (b.toInt ≥ a.toInt)

/-- R234. -/
def aluGreater (b a : Word) : Word := boolWord (b.toInt > a.toInt)

/-- R235. -/
def aluLessOrEqual (b a : Word) : Word := boolWord (b.toInt ≤ a.toInt)

/-- R236: the amount is the pattern of `a`; 16 or more gives 0. -/
def aluLeftShift (b a : Word) : Word :=
  if 16 ≤ bits16 a then 0 else sext16 (bits16 b * 2 ^ bits16 a % 65536)

/-- R237: zero fill or sign fill by the parameter `RSH_MODE`. -/
def aluRightShift (mode : RshMode) (b a : Word) : Word :=
  match mode with
  | .logical => if 16 ≤ bits16 a then 0 else sext16 (bits16 b / 2 ^ bits16 a)
  | .arithmetic =>
    if 16 ≤ bits16 a then (if b.toInt < 0 then -1 else 0) else wrap16 (b.toInt.fdiv (2 ^ bits16 a))

/-- R238. -/
def aluAnd (b a : Word) : Word := b &&& a

/-- R239. -/
def aluOr (b a : Word) : Word := b ||| a

/-- R240. -/
def aluXor (b a : Word) : Word := b ^^^ a

/-- R241. -/
def aluEquivalence (b a : Word) : Word := ~~~(b ^^^ a)

end Sys2Proof.Machine
end

