-- ==== Sys2Proof/Machine/LoadStoreAdd.lean ====
section
/-! DEFINITION. Load, Store and Add (rules R180 to R182). -/

namespace Sys2Proof.Machine

/-- Load (R180): `b <- a`, then `a <- wrap16(d)`. -/
def execLoad (o : Operand) (s : State) : Host.Outcome State Fault Refusal :=
  withOperand o s fun d t => .ok ((t.setB t.a).setA (wrap16 d))

/-- Store (R181): `MemWrite(d, a)`. -/
def execStore (o : Operand) (s : State) : Host.Outcome State Fault Refusal :=
  withOperand o s fun d t => memWrite t d t.a

/-- Add (R182): `a <- wrap16(a + d)`, where `d` may lie outside the Word range and the sum is wrapped once. -/
def execAdd (o : Operand) (s : State) : Host.Outcome State Fault Refusal :=
  withOperand o s fun d t => .ok (t.setA (wrap16 (t.a.toInt + d)))

end Sys2Proof.Machine
end

