-- ==== Sys2Proof/Machine/Operators.lean ====
section
/-! DEFINITION. Execute and its 23 operators (rules R203, R220 to R244). An operator gets the state with `pc` past the
instruction; the canonical inline words and the run-time forms of X share it. -/

namespace Sys2Proof.Machine

/-! ## The operators -/

/-- A binary operator (R221): `b` on the left, `a` on the right, the result in `a`. -/
def opBinary (f : Word → Word → Word) (t : State) : Except FaultCause State := .ok (t.setA (f t.b t.a))

/-- Indirection (R222): `a <- MemRead(a)`. -/
def opIndirection (t : State) : Except FaultCause State := do
  let v ← memRead t t.a.toInt
  return t.setA v

/-- Negate (R223). -/
def opNegate (t : State) : Except FaultCause State := .ok (t.setA (aluNegate t.a))

/-- Bitwise-Not (R224). -/
def opBitNot (t : State) : Except FaultCause State := .ok (t.setA (aluNot t.a))

/-- Multiply (R225). -/
def opMultiply (t : State) : Except FaultCause State := opBinary aluMultiply t

/-- Divide (R226). -/
def opDivide (t : State) : Except FaultCause State := opBinary aluDivide t

/-- Remainder (R227). -/
def opRemainder (t : State) : Except FaultCause State := opBinary (aluRemainder t.params.remMode) t

/-- Add (R228). -/
def opAdd (t : State) : Except FaultCause State := opBinary aluAdd t

/-- Subtract (R229). -/
def opSubtract (t : State) : Except FaultCause State := opBinary aluSubtract t

/-- Equal (R230). -/
def opEqual (t : State) : Except FaultCause State := opBinary aluEqual t

/-- NotEqual (R231). -/
def opNotEqual (t : State) : Except FaultCause State := opBinary aluNotEqual t

/-- Less (R232). -/
def opLess (t : State) : Except FaultCause State := opBinary aluLess t

/-- GreaterOrEqual (R233). -/
def opGreaterOrEqual (t : State) : Except FaultCause State := opBinary aluGreaterOrEqual t

/-- Greater (R234). -/
def opGreater (t : State) : Except FaultCause State := opBinary aluGreater t

/-- LessOrEqual (R235). -/
def opLessOrEqual (t : State) : Except FaultCause State := opBinary aluLessOrEqual t

/-- LeftShift (R236). -/
def opLeftShift (t : State) : Except FaultCause State := opBinary aluLeftShift t

/-- RightShift (R237). -/
def opRightShift (t : State) : Except FaultCause State := opBinary (aluRightShift t.params.rshMode) t

/-- BitAnd (R238). -/
def opBitAnd (t : State) : Except FaultCause State := opBinary aluAnd t

/-- BitOr (R239). -/
def opBitOr (t : State) : Except FaultCause State := opBinary aluOr t

/-- BitXor (R240). -/
def opBitXor (t : State) : Except FaultCause State := opBinary aluXor t

/-- BitEqv (R241). -/
def opBitEqv (t : State) : Except FaultCause State := opBinary aluEquivalence t

/-- Finish (R242): only the running flag is written. -/
def opFinish (t : State) : Except FaultCause State := .ok t.halt

/-- The scan of a Switch table (R243): `n` pairs from address `p` on, the first pair whose value is `a` wins, and only the
pairs up to it are read. -/
def switchScan (t : State) (target : Word) : Nat → Int → Except FaultCause Word
  | 0, _ => .ok target
  | n + 1, p => do
    let v ← memRead t p
    let u ← memRead t (p + 1)
    if v = t.a then return u
    switchScan t target n (p + 2)

/-- Switch (R243): the count, the default target and the pairs follow the instruction. -/
def opSwitch (t : State) : Except FaultCause State := do
  let count ← memRead t t.pc
  let target ← memRead t (t.pc + 1)
  let found ← switchScan t target count.toInt.toNat (t.pc + 2)
  return t.setPc found.toInt

/-- The operator table (R220). -/
def runOperator (op : Operator) (t : State) : Except FaultCause State :=
  match op with
  | .indirection => opIndirection t
  | .negate => opNegate t
  | .bitNot => opBitNot t
  | .ret => opReturn t
  | .multiply => opMultiply t
  | .divide => opDivide t
  | .remainder => opRemainder t
  | .add => opAdd t
  | .subtract => opSubtract t
  | .equal => opEqual t
  | .notEqual => opNotEqual t
  | .less => opLess t
  | .greaterOrEqual => opGreaterOrEqual t
  | .greater => opGreater t
  | .lessOrEqual => opLessOrEqual t
  | .leftShift => opLeftShift t
  | .rightShift => opRightShift t
  | .bitAnd => opBitAnd t
  | .bitOr => opBitOr t
  | .bitXor => opBitXor t
  | .bitEqv => opBitEqv t
  | .finish => opFinish t
  | .switch => opSwitch t

/-- `op <- d` (R220): the operator of number `d`, or UnknownOperator (R244). -/
def executeNumber (d : Int) (t : State) : Except FaultCause State :=
  if d < 0 then .error (.unknownOperator d)
  else
    match operatorOfNumber d.toNat with
    | some op => runOperator op t
    | none => .error (.unknownOperator d)

/-! ## Execute and the canonical inline words -/

/-- Execute in every form that finds its operator at run time (R85, R220). -/
def execExecute (o : Operand) (s : State) : Host.Outcome State Fault Refusal :=
  withOperand o s fun d t => executeNumber d t

/-- `X1` (R222). -/
def execXIndirection (s : State) : Host.Outcome State Fault Refusal := withoutOperand s opIndirection

/-- `X2` (R223). -/
def execXNegate (s : State) : Host.Outcome State Fault Refusal := withoutOperand s opNegate

/-- `X3` (R224). -/
def execXBitNot (s : State) : Host.Outcome State Fault Refusal := withoutOperand s opBitNot

/-- `X4` (R203). -/
def execXReturn (s : State) : Host.Outcome State Fault Refusal := withoutOperand s opReturn

/-- `X5` (R225). -/
def execXMultiply (s : State) : Host.Outcome State Fault Refusal := withoutOperand s opMultiply

/-- `X6` (R226). -/
def execXDivide (s : State) : Host.Outcome State Fault Refusal := withoutOperand s opDivide

/-- `X7` (R227). -/
def execXRemainder (s : State) : Host.Outcome State Fault Refusal := withoutOperand s opRemainder

/-- `X8` (R228). -/
def execXAdd (s : State) : Host.Outcome State Fault Refusal := withoutOperand s opAdd

/-- `X9` (R229). -/
def execXSubtract (s : State) : Host.Outcome State Fault Refusal := withoutOperand s opSubtract

/-- `X10` (R230). -/
def execXEqual (s : State) : Host.Outcome State Fault Refusal := withoutOperand s opEqual

/-- `X11` (R231). -/
def execXNotEqual (s : State) : Host.Outcome State Fault Refusal := withoutOperand s opNotEqual

/-- `X12` (R232). -/
def execXLess (s : State) : Host.Outcome State Fault Refusal := withoutOperand s opLess

/-- `X13` (R233). -/
def execXGreaterOrEqual (s : State) : Host.Outcome State Fault Refusal := withoutOperand s opGreaterOrEqual

/-- `X14` (R234). -/
def execXGreater (s : State) : Host.Outcome State Fault Refusal := withoutOperand s opGreater

/-- `X15` (R235). -/
def execXLessOrEqual (s : State) : Host.Outcome State Fault Refusal := withoutOperand s opLessOrEqual

/-- `X16` (R236). -/
def execXLeftShift (s : State) : Host.Outcome State Fault Refusal := withoutOperand s opLeftShift

/-- `X17` (R237). -/
def execXRightShift (s : State) : Host.Outcome State Fault Refusal := withoutOperand s opRightShift

/-- `X18` (R238). -/
def execXBitAnd (s : State) : Host.Outcome State Fault Refusal := withoutOperand s opBitAnd

/-- `X19` (R239). -/
def execXBitOr (s : State) : Host.Outcome State Fault Refusal := withoutOperand s opBitOr

/-- `X20` (R240). -/
def execXBitXor (s : State) : Host.Outcome State Fault Refusal := withoutOperand s opBitXor

/-- `X21` (R241). -/
def execXBitEqv (s : State) : Host.Outcome State Fault Refusal := withoutOperand s opBitEqv

/-- `X22` (R242). -/
def execXFinish (s : State) : Host.Outcome State Fault Refusal := withoutOperand s opFinish

/-- `X23` (R243). -/
def execXSwitch (s : State) : Host.Outcome State Fault Refusal := withoutOperand s opSwitch

/-- An inline X whose number is no operator takes the UnknownOperator fault (R88, R244). -/
def execUnknownOperator (n : BitVec 8) (s : State) : Host.Outcome State Fault Refusal :=
  withoutOperand s fun _ => .error (.unknownOperator n.toNat)

/-- A word with reserved bits set takes the UnknownOpcode fault (R87, R302). -/
def execUnknownOpcode (w : Word) (s : State) : Host.Outcome State Fault Refusal :=
  commit s (.error (.unknownOpcode w))

end Sys2Proof.Machine
end

