-- ==== Sys2Proof/Machine/Dispatch.lean ====
section
/-! DEFINITION. Dispatch: one arm per row of spec/opcode_table.json (rule R168). -/

namespace Sys2Proof.Machine

def exec (i : Instr) (s : State) : Host.Outcome State Fault Refusal :=
  match i with
  | .load o => Sys2Proof.Machine.execLoad o s
  | .store o => Sys2Proof.Machine.execStore o s
  | .add o => Sys2Proof.Machine.execAdd o s
  | .jump o => Sys2Proof.Machine.execJump o s
  | .testTrue o => Sys2Proof.Machine.execTestTrue o s
  | .testFalse o => Sys2Proof.Machine.execTestFalse o s
  | .call o => Sys2Proof.Machine.execCall o s
  | .execute o => Sys2Proof.Machine.execExecute o s
  | .xIndirection => Sys2Proof.Machine.execXIndirection s
  | .xNegate => Sys2Proof.Machine.execXNegate s
  | .xBitNot => Sys2Proof.Machine.execXBitNot s
  | .xReturn => Sys2Proof.Machine.execXReturn s
  | .xMultiply => Sys2Proof.Machine.execXMultiply s
  | .xDivide => Sys2Proof.Machine.execXDivide s
  | .xRemainder => Sys2Proof.Machine.execXRemainder s
  | .xAdd => Sys2Proof.Machine.execXAdd s
  | .xSubtract => Sys2Proof.Machine.execXSubtract s
  | .xEqual => Sys2Proof.Machine.execXEqual s
  | .xNotEqual => Sys2Proof.Machine.execXNotEqual s
  | .xLess => Sys2Proof.Machine.execXLess s
  | .xGreaterOrEqual => Sys2Proof.Machine.execXGreaterOrEqual s
  | .xGreater => Sys2Proof.Machine.execXGreater s
  | .xLessOrEqual => Sys2Proof.Machine.execXLessOrEqual s
  | .xLeftShift => Sys2Proof.Machine.execXLeftShift s
  | .xRightShift => Sys2Proof.Machine.execXRightShift s
  | .xBitAnd => Sys2Proof.Machine.execXBitAnd s
  | .xBitOr => Sys2Proof.Machine.execXBitOr s
  | .xBitXor => Sys2Proof.Machine.execXBitXor s
  | .xBitEqv => Sys2Proof.Machine.execXBitEqv s
  | .xFinish => Sys2Proof.Machine.execXFinish s
  | .xSwitch => Sys2Proof.Machine.execXSwitch s
  | .unknownOperator n => Sys2Proof.Machine.execUnknownOperator n s
  | .unknownOpcode w => Sys2Proof.Machine.execUnknownOpcode w s

end Sys2Proof.Machine
end

