-- ==== Sys2Proof/Machine/Fetch.lean ====
section
/-! DEFINITION. Fetching and decoding one instruction, and placing one where the next step fetches (rules R160 to R165). -/

namespace Sys2Proof.Machine

/-- Fetch the instruction at `pc` (R163 to R165): its word, then its data word when it takes one. A word with reserved bits
set takes none (R302). -/
def fetch (s : State) : Except FaultCause Instr :=
  match memReadAs s .fetch s.pc with
  | .error c => .error c
  | .ok w =>
    if takesDataWord w then
      match memRead s (s.pc + 1) with
      | .error c => .error c
      | .ok v => .ok (decodeWords w v)
    else .ok (decodeWords w 0)

/-- The budget check before the fetch (R161, R306). -/
def budgetSpent (s : State) : Bool := s.steps = s.params.budget

/-- Two instruction words stored at `pc` and `pc + 1`. -/
def placeWords (s : State) (w v : Word) : State :=
  s.setMem (writeWord (writeWord s.mem s.pc.toNat w) (s.pc.toNat + 1) v)

end Sys2Proof.Machine
end

