-- ==== Sys2Proof/Machine/Cycle.lean ====
section
/-! DEFINITION. The instruction cycle of a loaded core (rules R160, R161, R169). -/

namespace Sys2Proof.Machine

/-- One step of a loaded core: budget check, fetch, decode, execute, count (R160). A halted or faulted core has no step. -/
def coreStep (s : State) : Host.Outcome State Fault Refusal :=
  if s.faultReg.isSome then .fault .faulted
  else if !s.running then .fault .halted
  else if budgetSpent s then .next (takeFault s (.instructionBudgetExceeded s.steps))
  else
    match fetch s with
    | .error c => .next (takeFault s c)
    | .ok i => retire (exec i s)

end Sys2Proof.Machine
end

