-- ==== Sys2Proof/Machine/Step.lean ====
section
/-! DEFINITION. One step of the machine (rules R160, R161, R169). -/

namespace Sys2Proof.Machine

/-- One step of the machine: of the engine before the load, of the core after it. -/
def step (s : State) : Host.Outcome State Fault Refusal :=
  match s.phase with
  | .assembling => .next (assemblyStep s)
  | .noImage => .fault .noImage
  | .constructed => .refused .notLoaded
  | .loaded => coreStep s

/-- `s` with the instruction whose bits are `w` stored where the next step fetches: two words, bits above `nbits` zero. -/
def State.withFetchWord (s : State) (nbits w : Nat) : State :=
  placeWords s (BitVec.ofNat 16 (w % 2 ^ nbits)) (BitVec.ofNat 16 (w % 2 ^ nbits / 65536))

end Sys2Proof.Machine
end

