-- ==== Sys2Proof/Safety.lean ====
section
/-! DEFINITION. What a run is judged by: the invariant of the machine, and when a run is safe (rules R22, R27, R54, R161,
R170). -/

namespace Sys2Proof.Machine

/-- The label table is in its canonical form: rising labels below LABMAX, no slot of 0 (R33). -/
def tableWf (labMax : Nat) (t : List (Nat × Int)) : Prop :=
  t.Pairwise (fun x y => x.1 < y.1) ∧ ∀ x ∈ t, x.2 ≠ 0 ∧ x.1 < labMax

/-- What holds of the engine at every step (R32, R112, R120). -/
structure EngineInv (p : Params) (e : Engine) : Prop where
  image_wf : e.image.wf
  image_within : e.image.within p.memSize
  cursor_ge : 401 ≤ e.cursor
  cursor_le : e.cursor ≤ p.memSize
  table_wf : tableWf p.labMax e.table
  walk_label : ∀ w, e.walk = some w → w.label < p.labMax

/-- What holds of the machine at every step: legal parameters, memory in canonical form inside [0, MEMSIZE), `pc` in the 17
signed bits of R22, no more completed instructions than BUDGET (R161), and an engine that holds nothing outside an assembly
run (R32). -/
structure Inv (s : State) : Prop where
  params_valid : s.params.Valid
  mem_wf : s.mem.wf
  mem_within : s.mem.within s.params.memSize
  pc_ge : -65536 ≤ s.pc
  pc_le : s.pc ≤ 65534
  steps_le : s.steps ≤ s.params.budget
  engine : EngineInv s.params s.engine
  engine_discarded : s.phase ≠ .assembling → s.engine = Engine.blank

/-- The run has ended: it reports success or a fault (R170). -/
def State.ended (s : State) : Prop := s.phase = .loaded ∧ (s.faultReg.isSome ∨ s.running = false)

/-- The run has not faulted: its fault register is empty (R26). -/
def State.faultFree (s : State) : Prop := s.faultReg = none

end Sys2Proof.Machine
end

