-- ==== Sys2Proof/Certificates/Slice0/Obligations.lean ====
section
/-! DEFINITION. The statements for the provers. The vocabulary first: how the rules name an operand, an argument, a system
call, a packed string, a format and the bytes a store leaves alone. -/

namespace Sys2Proof.Machine

/-- The base of an operand plus `sp` when P = 1 (R83, stages 1 and 2). -/
def SumOf (o : Operand) (s : State) : Int :=
  (match o.base with
    | .inline n => (n.toNat : Int)
    | .dataWord v => v.toInt) + if o.frameRel then s.sp.toInt else 0

/-- `d` is the resolved operand of `o` (R83, R84). -/
def ResolvesTo (o : Operand) (s : State) (d : Int) : Prop :=
  (o.indirect = false ∧ d = SumOf o s) ∨
    (o.indirect = true ∧ s.inBounds (SumOf o s) ∧ d = (readWord s.mem (SumOf o s).toNat).toInt)

/-- The I flag of `o` reads outside memory, at `addr` (R167). -/
def OperandFaultsAt (o : Operand) (s : State) (addr : Int) : Prop :=
  o.indirect = true ∧ addr = SumOf o s ∧ ¬ s.inBounds addr

/-- The state with the fault `c` recorded for the instruction at `pc`, and nothing else changed (R305). -/
def Faulted (s : State) (c : FaultCause) : State := { s with faultReg := some ⟨c, some s.pc⟩ }

/-- Every lane of memory outside the given word addresses reads in `t` as it reads in `s`. -/
def SameBytesBut (addrs : List Int) (s t : State) : Prop :=
  ∀ key : Nat, ((key / 2 : Nat) : Int) ∉ addrs → readByte t.mem key = readByte s.mem key

/-- Call with operand `o` is the system call `n` with frame address `frame` (R200, R201, R284). -/
def CallsSystem (o : Operand) (s : State) (n : SysName) (frame : Int) : Prop :=
  s.params.Valid ∧ s.a = s.params.sysNums.num n ∧ ∃ d, ResolvesTo o s d ∧ frame = d + s.sp.toInt

/-- The Word at an exact address (R12). -/
def wordAt (s : State) (addr : Int) : Word := readWord s.mem addr.toNat

/-- `arg_i` of the system call with frame address `frame` (R261). -/
def argAt (s : State) (frame : Int) (i : Nat) : Word := wordAt s (frame + 2 + i)

/-- The arguments `arg_0 .. arg_{n-1}` are in bounds (R261). -/
def ArgsReadable (s : State) (frame : Int) (n : Nat) : Prop := ∀ i < n, s.inBounds (frame + 2 + i)

/-- `arg_i` is the first argument outside memory, the arguments being read in increasing order (R261). -/
def FirstBadArgument (s : State) (frame : Int) (i : Nat) : Prop :=
  ArgsReadable s frame i ∧ ¬ s.inBounds (frame + 2 + i)

/-- The word address of byte offset `off` from `addr` (R56). -/
def byteWord (addr off : Int) : Int := addr + off / 2

/-- Byte `off` from `addr`: lane 0 is bits 7:0 of its Word, lane 1 bits 15:8 (R56, R57). -/
def byteAt (s : State) (addr off : Int) : Byte :=
  BitVec.ofNat 8 ((wordAt s (byteWord addr off)).toNat / 256 ^ (off % 2).toNat)

/-- The length of the packed string at `addr`, its byte 0 (R270). -/
def lengthAt (s : State) (addr : Int) : Nat := (byteAt s addr 0).toNat

/-- The text of the packed string at `addr`, its bytes 1..len (R270). -/
def textAt (s : State) (addr : Int) : List Byte :=
  (List.range (lengthAt s addr)).map fun i => byteAt s addr (i + 1 : Nat)

/-- The bytes 0..len of the packed string at `addr` are in memory. -/
def StringReadable (s : State) (addr : Int) : Prop :=
  ∀ i : Nat, i ≤ lengthAt s addr → s.inBounds (byteWord addr i)

/-- `bad` is the first word outside memory that reading the packed string at `addr` meets. -/
def StringFaultsAt (s : State) (addr bad : Int) : Prop :=
  ∃ i : Nat, i ≤ lengthAt s addr ∧ (∀ j < i, s.inBounds (byteWord addr (j : Nat))) ∧ bad = byteWord addr i ∧
    ¬ s.inBounds bad

/-- The ASCII code of a digit below 16, upper case (R273, R282). -/
def digitCode (d : Nat) : Byte := BitVec.ofNat 8 (if d < 10 then 48 + d else 55 + d)

/-- Bytes `i` and `i + 1` of the format at `f` of length `len` are in memory, and are `%` and `x` (R275). -/
def SpecifierAt (s : State) (f : Int) (len i : Nat) (x : Byte) : Prop :=
  i + 1 ≤ len ∧ s.inBounds (byteWord f i) ∧ byteAt s f i = 37 ∧
    s.inBounds (byteWord f (i + 1 : Nat)) ∧ byteAt s f (i + 1 : Nat) = x

/-- The field width that the byte after `%I` gives (R275). -/
def widthOf (wc : Byte) : Nat := if 48 ≤ wc.toNat ∧ wc.toNat ≤ 57 then wc.toNat - 48 else 0

/-- One round of the loop of R275 that completes: at byte `i` with `arg_k` the next argument it outputs the bytes, and the
next round is at the byte and the argument given last. -/
inductive FormatRound (s : State) (frame f : Int) (len : Nat) : Nat → Nat → List Byte → Nat → Nat → Prop
  /-- A byte that is no `%` is output. -/
  | plain (i k : Nat) : s.inBounds (byteWord f i) → byteAt s f i ≠ 37 →
      FormatRound s frame f len i k [byteAt s f i] (i + 1) k
  /-- A final `%` writes nothing. -/
  | finalPercent (i k : Nat) : s.inBounds (byteWord f i) → byteAt s f i = 37 → len < i + 1 →
      FormatRound s frame f len i k [] (i + 1) k
  /-- `%S`. -/
  | string (i k : Nat) : SpecifierAt s f len i 83 → s.inBounds (frame + 2 + k) →
      StringReadable s (argAt s frame k).toInt →
      FormatRound s frame f len i k (textAt s (argAt s frame k).toInt) (i + 2) (k + 1)
  /-- `%N`. -/
  | number (i k : Nat) : SpecifierAt s f len i 78 → s.inBounds (frame + 2 + k) →
      FormatRound s frame f len i k (decBytes (argAt s frame k)) (i + 2) (k + 1)
  /-- `%C`. -/
  | char (i k : Nat) : SpecifierAt s f len i 67 → s.inBounds (frame + 2 + k) →
      FormatRound s frame f len i k [BitVec.ofInt 8 ((argAt s frame k).toInt % 256)] (i + 2) (k + 1)
  /-- `%I` and its width byte. -/
  | padded (i k : Nat) : SpecifierAt s f len i 73 → i + 2 ≤ len → s.inBounds (byteWord f (i + 2 : Nat)) →
      s.inBounds (frame + 2 + k) →
      FormatRound s frame f len i k
        (List.replicate (widthOf (byteAt s f (i + 2 : Nat)) - (decBytes (argAt s frame k)).length) 32 ++
          decBytes (argAt s frame k)) (i + 3) (k + 1)
  /-- `%I` at the end of the format has the width 0. -/
  | paddedAtEnd (i k : Nat) : SpecifierAt s f len i 73 → len < i + 2 → s.inBounds (frame + 2 + k) →
      FormatRound s frame f len i k (decBytes (argAt s frame k)) (i + 2) (k + 1)
  /-- Any other byte after `%` is output. -/
  | other (i k : Nat) (x : Byte) : SpecifierAt s f len i x → x ∉ [83, 78, 67, 73] →
      FormatRound s frame f len i k [x] (i + 2) k

/-- Rounds of the loop of R275 in a row, with all they output. -/
inductive FormatRounds (s : State) (frame f : Int) (len : Nat) : Nat → Nat → List Byte → Nat → Nat → Prop
  | none (i k : Nat) : FormatRounds s frame f len i k [] i k
  | more {i k i' k' i'' k'' : Nat} {out rest : List Byte} : i ≤ len → FormatRound s frame f len i k out i' k' →
      FormatRounds s frame f len i' k' rest i'' k'' → FormatRounds s frame f len i k (out ++ rest) i'' k''

/-- One round of the loop of R275 whose first read outside memory is at the address given last. -/
inductive FormatRoundFaults (s : State) (frame f : Int) (len : Nat) : Nat → Nat → Int → Prop
  /-- The byte at `i`. -/
  | formatByte (i k : Nat) : ¬ s.inBounds (byteWord f i) → FormatRoundFaults s frame f len i k (byteWord f i)
  /-- The byte after a `%`. -/
  | specifierByte (i k : Nat) : s.inBounds (byteWord f i) → byteAt s f i = 37 → i + 1 ≤ len →
      ¬ s.inBounds (byteWord f (i + 1 : Nat)) → FormatRoundFaults s frame f len i k (byteWord f (i + 1 : Nat))
  /-- The width byte of `%I`, read before the argument. -/
  | widthByte (i k : Nat) : SpecifierAt s f len i 73 → i + 2 ≤ len → ¬ s.inBounds (byteWord f (i + 2 : Nat)) →
      FormatRoundFaults s frame f len i k (byteWord f (i + 2 : Nat))
  /-- The argument of a specifier. -/
  | argument (i k : Nat) (x : Byte) : SpecifierAt s f len i x → x ∈ [83, 78, 67, 73] →
      (x = 73 → i + 2 ≤ len → s.inBounds (byteWord f (i + 2 : Nat))) → ¬ s.inBounds (frame + 2 + k) →
      FormatRoundFaults s frame f len i k (frame + 2 + k)
  /-- The string of `%S`. -/
  | string (i k : Nat) (bad : Int) : SpecifierAt s f len i 83 → s.inBounds (frame + 2 + k) →
      StringFaultsAt s (argAt s frame k).toInt bad → FormatRoundFaults s frame f len i k bad

/-- The placeholders of an open backpatch chain, newest first: the slot value leads to the first, each holds the address of
the next, the last holds 0 (R33, R121). -/
def ChainFrom (image : Memory) (size : Nat) : Int → List Nat → Prop
  | s, [] => s = 0
  | s, p :: rest => s = p ∧ 0 < p ∧ p < size ∧ ChainFrom image size (readWord image p).toInt rest

/-- The value of a run of ASCII digits, most significant first. -/
def digitsValue (l : List Byte) : Nat := l.foldl (fun v x => v * 10 + (x.toNat - 48)) 0

/-- A byte is an ASCII digit. -/
def isDigitByte (x : Byte) : Prop := 48 ≤ x.toNat ∧ x.toNat ≤ 57

end Sys2Proof.Machine

open Sys2Proof Sys2Proof.Machine

/-! ## Encoding -/

/-- R81, R85, R87, R90: decoding the words of a well-formed instruction gives it back, with the words after it. -/
def Obligations.DecodeEncodeEveryInstruction : Prop :=
  ∀ (i : Instr) (rest : List Word), WellFormed i = true → decode (encode i ++ rest) = .ok (i, rest)

/-- R80 to R90: what the decoder reads is well-formed, and its encoding is the word it came from: the whole word when D = 0
or a reserved bit is set, and with D = 1 the word with n = 0 and the data word. -/
def Obligations.EncodeDecodeEveryWord : Prop :=
  ∀ w v : Word, WellFormed (decodeWords w v) = true ∧
    encode (decodeWords w v) =
      if hasReservedBits w then [w] else if w.getLsbD 5 then [w &&& 0x00FF, v] else [w]

/-- Words written out from the format `nnnnnnnn00dpifff` of R81 decode to the instruction they stand for. -/
def Obligations.SampleWordsDecode : Prop :=
  decode [0b0000010100000000] = .ok (.load ⟨.inline 5, false, false⟩, []) ∧
  decode [0b0000001100010001] = .ok (.store ⟨.inline 3, true, false⟩, []) ∧
  decode [0b0000000000100010, -1] = .ok (.add ⟨.dataWord (-1), false, false⟩, []) ∧
  decode [0b0000000000101100, 417] = .ok (.testTrue ⟨.dataWord 417, false, true⟩, []) ∧
  decode [0b0000001000000110, 7] = .ok (.call ⟨.inline 2, false, false⟩, [7]) ∧
  decode [0b0001011000000111] = .ok (.xFinish, []) ∧
  decode [0b0000001100011111] = .ok (.execute ⟨.inline 3, true, true⟩, []) ∧
  decode [0b0001100000000111] = .ok (.unknownOperator 24, []) ∧
  decode [0b0000000001000000] = .ok (.unknownOpcode 64, [])

/-- R80: two words exactly when D is set (of a word with its reserved bits 00, R302); a missing data word is refused. -/
def Obligations.LengthFromDataFlag : Prop :=
  ∀ (w v : Word) (rest : List Word), hasReservedBits w = false →
    (w.getLsbD 5 = true → (decodeWords w v).words = 2 ∧ decode (w :: v :: rest) = .ok (decodeWords w v, rest) ∧
      decode [w] = .error .noDataWord) ∧
    (w.getLsbD 5 = false → (decodeWords w v).words = 1 ∧ decode (w :: rest) = .ok (decodeWords w v, rest))

/-! ## The step -/

/-- R160, R161: when the words at `pc` decode to the instruction `i`, the step is `exec` of `i` at that state, and one
instruction that completes is counted. `exec` moves `pc` past the words itself. -/
def Obligations.StepRunsDecodedInstruction : Prop :=
  ∀ (s : State) (i : Instr), s.phase = .loaded → s.running = true → s.faultReg = none →
    s.steps ≠ s.params.budget → s.inBounds s.pc → (i.words = 2 → s.inBounds (s.pc + 1)) →
    decode ([wordAt s s.pc, wordAt s (s.pc + 1)].take i.words) = .ok (i, []) →
    step s =
      match exec i s with
      | .next t => .next (if t.faultReg = none then { t with steps := t.steps + 1 } else t)
      | .fault f => .fault f
      | .refused r => .refused r

/-- R169, R305: when a step of a loaded core raises a fault, the record holds the pc of the instruction, nothing else
changed, no step follows, and the run reports failure with the output made before. That no step follows is R161's stuck
state in the form of notes/assumptions/4.md, which is the model's. -/
def Obligations.FaultsArePrecise : Prop :=
  ∀ s t : State, s.phase = .loaded → step s = .next t → t.faultReg ≠ none →
    (∃ c, t = Faulted s c) ∧ step t = .fault .faulted ∧
      reportOf t = some ⟨false, s.output, s.warnings, none, t.faultReg⟩

/-- R161, R306: a core whose running flag is clear, or whose fault register is not empty, has no step (R161's stuck state,
in the form of notes/assumptions/4.md, which is the model's); otherwise a step taken when the step counter equals BUDGET
raises InstructionBudgetExceeded with the step count instead of fetching. -/
def Obligations.StoppedOrSpentCoreRunsNothing : Prop :=
  ∀ s : State, s.phase = .loaded →
    (s.faultReg ≠ none → step s = .fault .faulted) ∧
    (s.faultReg = none → s.running = false → step s = .fault .halted) ∧
    (s.faultReg = none → s.running = true → s.steps = s.params.budget →
      step s = .next (Faulted s (.instructionBudgetExceeded s.steps)))

/-- R163: a fetch outside [0, MEMSIZE) raises MemoryFault(pc, fetch). -/
def Obligations.FetchOutsideMemoryFaults : Prop :=
  ∀ s : State, s.phase = .loaded → s.running = true → s.faultReg = none → s.steps ≠ s.params.budget →
    ¬ s.inBounds s.pc → step s = .next (Faulted s (.memoryFault s.pc .fetch))

/-- R165, and the model's reading in notes/assumptions/5.md that the kind is `read`: a data word outside memory faults. -/
def Obligations.DataWordOutsideMemoryFaults : Prop :=
  ∀ s : State, s.phase = .loaded → s.running = true → s.faultReg = none → s.steps ≠ s.params.budget →
    s.inBounds s.pc → hasReservedBits (wordAt s s.pc) = false → (wordAt s s.pc).getLsbD 5 = true →
    ¬ s.inBounds (s.pc + 1) → step s = .next (Faulted s (.memoryFault (s.pc + 1) .read))

/-- R302: a word with bits 7:6 not 00 raises UnknownOpcode with the word, whatever its D flag and the word after it. -/
def Obligations.ReservedBitsFault : Prop :=
  (∀ (w : Word) (s : State), exec (.unknownOpcode w) s = .next (Faulted s (.unknownOpcode w))) ∧
  ∀ s : State, s.phase = .loaded → s.running = true → s.faultReg = none → s.steps ≠ s.params.budget →
    s.inBounds s.pc → hasReservedBits (wordAt s s.pc) = true →
    step s = .next (Faulted s (.unknownOpcode (wordAt s s.pc)))

/-- No instruction stops the model: `exec` answers a next state for every instruction and state. -/
def Obligations.EveryInstructionAnswersNext : Prop :=
  ∀ (i : Instr) (s : State), ∃ t, exec i s = .next t

/-- R167, R301: an I-flag read outside memory faults, for every opcode that takes an operand, before anything else. -/
def Obligations.IndirectOperandOutsideMemoryFaults : Prop :=
  ∀ (o : Operand) (s : State) (addr : Int), OperandFaultsAt o s addr →
    ∀ i ∈ [Instr.load o, .store o, .add o, .jump o, .testTrue o, .testFalse o, .call o, .execute o],
      exec i s = .next (Faulted s (.memoryFault addr .read))

/-! ## Load, Store, Add, jumps -/

/-- R180: Load. -/
def Obligations.LoadResult : Prop :=
  ∀ (o : Operand) (s : State),
    (∀ d, ResolvesTo o s d →
      exec (.load o) s = .next { s with pc := s.pc + o.words, b := s.a, a := wrap16 d }) ∧
    (∀ addr, OperandFaultsAt o s addr → exec (.load o) s = .next (Faulted s (.memoryFault addr .read)))

/-- R181: Store writes the one Word at `d`, or faults when `d` is outside memory. -/
def Obligations.StoreResult : Prop :=
  ∀ (o : Operand) (s : State),
    (∀ d, ResolvesTo o s d → s.inBounds d →
      ∃ t, exec (.store o) s = .next t ∧ wordAt t d = s.a ∧ SameBytesBut [d] s t ∧
        t = { s with pc := s.pc + o.words, mem := t.mem }) ∧
    (∀ d, ResolvesTo o s d → ¬ s.inBounds d → exec (.store o) s = .next (Faulted s (.memoryFault d .write))) ∧
    (∀ addr, OperandFaultsAt o s addr → exec (.store o) s = .next (Faulted s (.memoryFault addr .read)))

/-- R182: Add. -/
def Obligations.AddResult : Prop :=
  ∀ (o : Operand) (s : State),
    (∀ d, ResolvesTo o s d →
      exec (.add o) s = .next { s with pc := s.pc + o.words, a := wrap16 (s.a.toInt + d) }) ∧
    (∀ addr, OperandFaultsAt o s addr → exec (.add o) s = .next (Faulted s (.memoryFault addr .read)))

/-- R190 to R192: Jump always, TestTrue when `a` is not 0, TestFalse when `a` is 0; otherwise `pc` is past the instruction.
The operand is resolved, and can fault, whether or not the jump is taken. -/
def Obligations.JumpAndTestResults : Prop :=
  ∀ (o : Operand) (s : State),
    (∀ d, ResolvesTo o s d →
      exec (.jump o) s = .next { s with pc := d } ∧
      exec (.testTrue o) s = .next { s with pc := if s.a ≠ 0 then d else s.pc + o.words } ∧
      exec (.testFalse o) s = .next { s with pc := if s.a = 0 then d else s.pc + o.words }) ∧
    (∀ addr, OperandFaultsAt o s addr →
      exec (.jump o) s = .next (Faulted s (.memoryFault addr .read)) ∧
      exec (.testTrue o) s = .next (Faulted s (.memoryFault addr .read)) ∧
      exec (.testFalse o) s = .next (Faulted s (.memoryFault addr .read)))

/-! ## The call-frame controller -/

/-- R202: a user call writes its two frame words and enters the routine, or faults at the first bad address. -/
def Obligations.UserCallResult : Prop :=
  ∀ (o : Operand) (s : State) (d : Int), ResolvesTo o s d → 401 ≤ s.a.toInt →
    (s.inBounds (d + s.sp.toInt) → s.inBounds (d + s.sp.toInt + 1) →
      ∃ t, exec (.call o) s = .next t ∧ wordAt t (d + s.sp.toInt) = s.sp ∧
        wordAt t (d + s.sp.toInt + 1) = wrap16 (s.pc + o.words) ∧
        SameBytesBut [d + s.sp.toInt, d + s.sp.toInt + 1] s t ∧
        t = { s with pc := s.a.toInt, sp := wrap16 (d + s.sp.toInt), mem := t.mem }) ∧
    (¬ s.inBounds (d + s.sp.toInt) →
      exec (.call o) s = .next (Faulted s (.memoryFault (d + s.sp.toInt) .write))) ∧
    (s.inBounds (d + s.sp.toInt) → ¬ s.inBounds (d + s.sp.toInt + 1) →
      exec (.call o) s = .next (Faulted s (.memoryFault (d + s.sp.toInt + 1) .write)))

/-- R203: Return reads `sp + 1` and then `sp`, and writes `pc` and `sp` only. -/
def Obligations.ReturnResult : Prop :=
  ∀ s : State,
    (s.inBounds (s.sp.toInt + 1) → s.inBounds s.sp.toInt →
      exec .xReturn s = .next { s with pc := (wordAt s (s.sp.toInt + 1)).toInt, sp := wordAt s s.sp.toInt }) ∧
    (¬ s.inBounds (s.sp.toInt + 1) →
      exec .xReturn s = .next (Faulted s (.memoryFault (s.sp.toInt + 1) .read))) ∧
    (s.inBounds (s.sp.toInt + 1) → ¬ s.inBounds s.sp.toInt →
      exec .xReturn s = .next (Faulted s (.memoryFault s.sp.toInt .read)))

/-- R202, R203, R204: a Return through the frame that a user call made, with the two frame words as the call left them,
resumes after the Call with the caller's frame pointer and leaves `a`, `b` and memory as the callee left them. -/
def Obligations.ReturnUndoesUserCall : Prop :=
  ∀ (o : Operand) (s t u : State) (d : Int), ResolvesTo o s d → s.params.Valid → 401 ≤ s.a.toInt →
    s.inBounds (d + s.sp.toInt) → s.inBounds (d + s.sp.toInt + 1) → s.inBounds s.pc →
    exec (.call o) s = .next t → u.params = t.params → u.sp = t.sp →
    wordAt u t.sp.toInt = wordAt t t.sp.toInt → wordAt u (t.sp.toInt + 1) = wordAt t (t.sp.toInt + 1) →
    s.pc + o.words ≤ 32767 →
    exec .xReturn u = .next { u with pc := s.pc + o.words, sp := s.sp }

/-! ## System calls -/

/-- R262: a call number below PROGSTART that is no `SysNum` value is logged, and nothing else changes but `pc`. -/
def Obligations.UnknownSystemCallWarns : Prop :=
  ∀ (o : Operand) (s : State) (d : Int), ResolvesTo o s d → s.a.toInt < 401 →
    (∀ n, s.params.sysNums.num n ≠ s.a) →
    exec (.call o) s = .next { s with pc := s.pc + o.words, warnings := s.warnings ++ [⟨s.a, s.pc⟩] }

/-- R260, R261: every system call that takes an argument faults when its first argument is outside memory. -/
def Obligations.FirstArgumentOutsideMemoryFaults : Prop :=
  ∀ (o : Operand) (s : State) (n : SysName) (frame : Int), CallsSystem o s n frame → ¬ s.inBounds (frame + 2) →
    n ∉ [SysName.readChar, .readNumber, .findInput, .findOutput, .level, .freeVector] →
    exec (.call o) s = .next (Faulted s (.memoryFault (frame + 2) .read))

/-- R206, R263, R264, R268, R269, R280: the calls that write one register or handle, or nothing. -/
def Obligations.HandleAndRegisterCalls : Prop :=
  ∀ (o : Operand) (s : State) (frame : Int),
    (CallsSystem o s .level frame → exec (.call o) s = .next { s with pc := s.pc + o.words, a := s.sp }) ∧
    (CallsSystem o s .findInput frame →
      exec (.call o) s = .next { s with pc := s.pc + o.words, a := s.params.inputHandle }) ∧
    (CallsSystem o s .findOutput frame →
      exec (.call o) s = .next { s with pc := s.pc + o.words, a := s.params.printHandle }) ∧
    (CallsSystem o s .freeVector frame → exec (.call o) s = .next { s with pc := s.pc + o.words }) ∧
    (CallsSystem o s .selectInput frame →
      (s.inBounds (frame + 2) →
        exec (.call o) s = .next { s with pc := s.pc + o.words, cin := argAt s frame 0 }) ∧
      (¬ s.inBounds (frame + 2) → exec (.call o) s = .next (Faulted s (.memoryFault (frame + 2) .read)))) ∧
    (CallsSystem o s .selectOutput frame →
      (s.inBounds (frame + 2) →
        exec (.call o) s = .next { s with pc := s.pc + o.words, cout := argAt s frame 0 }) ∧
      (¬ s.inBounds (frame + 2) → exec (.call o) s = .next (Faulted s (.memoryFault (frame + 2) .read))))

/-- R265: Read-char pops the next input byte, or gives -1 at the end of the input. -/
def Obligations.ReadCharResult : Prop :=
  ∀ (o : Operand) (s : State) (frame : Int), CallsSystem o s .readChar frame →
    (s.input = [] → exec (.call o) s = .next { s with pc := s.pc + o.words, a := -1 }) ∧
    (∀ x rest, s.input = x :: rest →
      exec (.call o) s = .next { s with pc := s.pc + o.words, a := wrap16 x.toNat, input := rest })

/-- R276: Read-number takes an optional `-` and the run of digits, and leaves the first non-digit. -/
def Obligations.ReadNumberResult : Prop :=
  ∀ (o : Operand) (s : State) (frame : Int) (neg : Bool) (ds rest : List Byte),
    CallsSystem o s .readNumber frame → (∀ x ∈ ds, isDigitByte x) → (∀ x ∈ rest.head?, ¬ isDigitByte x) →
    (neg = false → ds = [] → rest.head? ≠ some 45) →
    s.input = (if neg then [45] else []) ++ ds ++ rest →
    exec (.call o) s = .next { s with
      pc := s.pc + o.words
      a := wrap16 (if neg then -(digitsValue ds : Int) else digitsValue ds)
      input := rest }

/-- R266: Stop writes `a` and clears the running flag, and nothing else but `pc`, or faults on its argument. -/
def Obligations.StopResult : Prop :=
  ∀ (o : Operand) (s : State) (frame : Int), CallsSystem o s .stop frame →
    (s.inBounds (frame + 2) →
      exec (.call o) s = .next { s with pc := s.pc + o.words, a := argAt s frame 0, running := false }) ∧
    (¬ s.inBounds (frame + 2) → exec (.call o) s = .next (Faulted s (.memoryFault (frame + 2) .read)))

/-- R267, R281: Write-char appends the low byte of its argument exactly while `cout` is the print handle, or faults on its
argument. -/
def Obligations.WriteCharResult : Prop :=
  ∀ (o : Operand) (s : State) (frame : Int), CallsSystem o s .writeChar frame →
    (s.inBounds (frame + 2) →
      exec (.call o) s = .next { s with
        pc := s.pc + o.words
        output := s.output ++
          if s.cout = s.params.printHandle then [BitVec.ofInt 8 ((argAt s frame 0).toInt % 256)] else [] }) ∧
    (¬ s.inBounds (frame + 2) → exec (.call o) s = .next (Faulted s (.memoryFault (frame + 2) .read)))

/-- R270, R281: Write-string outputs the bytes 1..len of the string at `arg0`, low lane first (R56, R57), exactly while `cout`
is the print handle; its argument, or the first word of the string, outside memory faults. -/
def Obligations.WriteStringResult : Prop :=
  ∀ (o : Operand) (s : State) (frame : Int), CallsSystem o s .writeString frame →
    (¬ s.inBounds (frame + 2) → exec (.call o) s = .next (Faulted s (.memoryFault (frame + 2) .read))) ∧
    (s.inBounds (frame + 2) →
      (StringReadable s (argAt s frame 0).toInt →
        exec (.call o) s = .next { s with
          pc := s.pc + o.words
          output := s.output ++
            if s.cout = s.params.printHandle then textAt s (argAt s frame 0).toInt else [] }) ∧
      (∀ bad, StringFaultsAt s (argAt s frame 0).toInt bad →
        exec (.call o) s = .next (Faulted s (.memoryFault bad .read))))

/-- R282: the decimal rendering has a `-` exactly for negative values, digits only, no leading zero but of 0 itself, and
the digits have the magnitude as their value. -/
def Obligations.DecimalRendering : Prop :=
  ∀ v : Word, ∃ ds : List Byte,
    decBytes v = (if v.toInt < 0 then [45] else []) ++ ds ∧ (∀ x ∈ ds, isDigitByte x) ∧
    digitsValue ds = v.toInt.natAbs ∧ ds ≠ [] ∧ (ds.head? = some 48 → v = 0 ∧ ds = [48])

/-- R271, R272, R281: Write-number and Write-decimal-padded output the decimal rendering, the latter after the spaces that
fill it to the width, exactly while `cout` is the print handle; the first argument outside memory faults. -/
def Obligations.NumberOutputResults : Prop :=
  ∀ (o : Operand) (s : State) (frame : Int),
    (CallsSystem o s .writeNumber frame →
      (ArgsReadable s frame 1 →
        exec (.call o) s = .next { s with
          pc := s.pc + o.words
          output := s.output ++ if s.cout = s.params.printHandle then decBytes (argAt s frame 0) else [] }) ∧
      ∀ i < 1, FirstBadArgument s frame i →
        exec (.call o) s = .next (Faulted s (.memoryFault (frame + 2 + (i : Nat)) .read))) ∧
    (CallsSystem o s .writeDecimalPadded frame →
      (ArgsReadable s frame 2 →
        ∃ pad : Nat, (pad : Int) = max 0 ((argAt s frame 1).toInt - (decBytes (argAt s frame 0)).length) ∧
          exec (.call o) s = .next { s with
            pc := s.pc + o.words
            output := s.output ++
              if s.cout = s.params.printHandle then List.replicate pad 32 ++ decBytes (argAt s frame 0) else [] }) ∧
      ∀ i < 2, FirstBadArgument s frame i →
        exec (.call o) s = .next (Faulted s (.memoryFault (frame + 2 + (i : Nat)) .read)))

/-- R273, R274, R281: Write-hex and Write-octal output max(k, 1) digits of the pattern, the most significant first, by their
ASCII codes (R282), exactly while `cout` is the print handle; the first argument outside memory faults. -/
def Obligations.RadixOutputResults : Prop :=
  ∀ (o : Operand) (s : State) (frame : Int) (name : SysName) (radix : Nat),
    (name, radix) ∈ [(SysName.writeHex, 16), (.writeOctal, 8)] → CallsSystem o s name frame →
    (ArgsReadable s frame 2 → ∀ m : Nat, (m : Int) = max (argAt s frame 1).toInt 1 →
      exec (.call o) s = .next { s with
        pc := s.pc + o.words
        output := s.output ++
          if s.cout = s.params.printHandle then
            (List.range m).map fun j => digitCode ((argAt s frame 0).toNat / radix ^ (m - 1 - j) % radix)
          else [] }) ∧
    ∀ i < 2, FirstBadArgument s frame i →
      exec (.call o) s = .next (Faulted s (.memoryFault (frame + 2 + (i : Nat)) .read))

/-- R275, R281: Write-formatted outputs what the rounds over the whole format at `arg0` output, exactly while `cout` is the
print handle, the specifiers taking `arg1`, `arg2`, ... in order; the first read outside memory faults. -/
def Obligations.WriteFormattedResult : Prop :=
  ∀ (o : Operand) (s : State) (frame f : Int), CallsSystem o s .writeFormatted frame →
    (¬ s.inBounds (frame + 2) → exec (.call o) s = .next (Faulted s (.memoryFault (frame + 2) .read))) ∧
    (s.inBounds (frame + 2) → f = (argAt s frame 0).toInt →
      (¬ s.inBounds (byteWord f 0) → exec (.call o) s = .next (Faulted s (.memoryFault (byteWord f 0) .read))) ∧
      (s.inBounds (byteWord f 0) → ∀ (text : List Byte) (i k : Nat),
        FormatRounds s frame f (lengthAt s f) 1 1 text i k →
        (lengthAt s f < i →
          exec (.call o) s = .next { s with
            pc := s.pc + o.words
            output := s.output ++ if s.cout = s.params.printHandle then text else [] }) ∧
        ∀ bad, i ≤ lengthAt s f → FormatRoundFaults s frame f (lengthAt s f) i k bad →
          exec (.call o) s = .next (Faulted s (.memoryFault bad .read))))

/-- R277: Get-byte answers the lane of R56, in 0..255; its arguments in order and then the addressed word outside memory
fault. -/
def Obligations.GetByteResult : Prop :=
  ∀ (o : Operand) (s : State) (frame : Int), CallsSystem o s .getByte frame →
    (∀ i < 2, FirstBadArgument s frame i →
      exec (.call o) s = .next (Faulted s (.memoryFault (frame + 2 + (i : Nat)) .read))) ∧
    (ArgsReadable s frame 2 → ∀ addr : Int, addr = (argAt s frame 0).toInt + (argAt s frame 1).toInt / 2 →
      (s.inBounds addr →
        exec (.call o) s = .next { s with
          pc := s.pc + o.words
          a := wrap16 ((wordAt s addr).toNat / 256 ^ ((argAt s frame 1).toInt % 2).toNat % 256) }) ∧
      (¬ s.inBounds addr → exec (.call o) s = .next (Faulted s (.memoryFault addr .read))))

/-- R278: Put-byte replaces one lane of one Word and changes no other byte of memory; its arguments in order and then the
addressed word, which R56 reads before it writes it, outside memory fault. -/
def Obligations.PutByteResult : Prop :=
  ∀ (o : Operand) (s : State) (frame : Int), CallsSystem o s .putByte frame →
    (∀ i < 3, FirstBadArgument s frame i →
      exec (.call o) s = .next (Faulted s (.memoryFault (frame + 2 + (i : Nat)) .read))) ∧
    (ArgsReadable s frame 3 → ∀ addr : Int, addr = (argAt s frame 0).toInt + (argAt s frame 1).toInt / 2 →
      (s.inBounds addr →
        ∃ t, exec (.call o) s = .next t ∧ t = { s with pc := s.pc + o.words, mem := t.mem } ∧
          ∀ key : Nat, readByte t.mem key =
            if (key : Int) = 2 * (argAt s frame 0).toInt + (argAt s frame 1).toInt
            then BitVec.ofInt 8 ((argAt s frame 2).toInt % 256) else readByte s.mem key) ∧
      (¬ s.inBounds addr → exec (.call o) s = .next (Faulted s (.memoryFault addr .read))))

/-- R279: Get-vector moves the watermark down and answers it wrapped, with no check, or faults on its argument. -/
def Obligations.GetVectorResult : Prop :=
  ∀ (o : Operand) (s : State) (frame : Int), CallsSystem o s .getVector frame →
    (s.inBounds (frame + 2) →
      exec (.call o) s = .next { s with
        pc := s.pc + o.words
        watermark := s.watermark - (argAt s frame 0).toInt
        a := wrap16 (s.watermark - (argAt s frame 0).toInt) }) ∧
    (¬ s.inBounds (frame + 2) → exec (.call o) s = .next (Faulted s (.memoryFault (frame + 2) .read)))

/-- R207: Long-jump copies its two arguments to `sp` and `pc` with no validation. -/
def Obligations.LongJumpResult : Prop :=
  ∀ (o : Operand) (s : State) (frame : Int), CallsSystem o s .longJump frame →
    (ArgsReadable s frame 2 →
      exec (.call o) s = .next { s with pc := (argAt s frame 1).toInt, sp := argAt s frame 0 }) ∧
    (¬ s.inBounds (frame + 2) → exec (.call o) s = .next (Faulted s (.memoryFault (frame + 2) .read))) ∧
    (s.inBounds (frame + 2) → ¬ s.inBounds (frame + 3) →
      exec (.call o) s = .next (Faulted s (.memoryFault (frame + 3) .read)))

/-- R208: Make-closure writes the four words at `nf = frame + N + 1` and enters the routine; the first argument read or
frame word outside memory faults. -/
def Obligations.MakeClosureResult : Prop :=
  ∀ (o : Operand) (s : State) (frame : Int), CallsSystem o s .makeClosure frame →
    (¬ s.inBounds (frame + 2) → exec (.call o) s = .next (Faulted s (.memoryFault (frame + 2) .read))) ∧
    (s.inBounds (frame + 2) → ¬ s.inBounds (frame + 3) →
      exec (.call o) s = .next (Faulted s (.memoryFault (frame + 3) .read))) ∧
    (ArgsReadable s frame 2 → ∀ nf : Int, nf = frame + (argAt s frame 1).toInt + 1 →
      (∀ k < 4, (∀ j < k, s.inBounds (nf + (j : Nat))) → ¬ s.inBounds (nf + (k : Nat)) →
        exec (.call o) s = .next (Faulted s (.memoryFault (nf + (k : Nat)) .write))) ∧
      (s.inBounds nf → s.inBounds (nf + 3) →
        ∃ t, exec (.call o) s = .next t ∧ wordAt t nf = s.sp ∧ wordAt t (nf + 1) = wrap16 (s.pc + o.words) ∧
          wordAt t (nf + 2) = wrap16 frame ∧ wordAt t (nf + 3) = argAt s frame 1 ∧
          SameBytesBut [nf, nf + 1, nf + 2, nf + 3] s t ∧
          t = { s with pc := (argAt s frame 0).toInt, sp := wrap16 nf, mem := t.mem }))

/-! ## Execute and its operators -/

/-- R85, R220: an X whose resolved operand is the number of an operator ends as the canonical word of that operator ends
from the state whose `pc` makes both end at the same place. Where that word faults, the X records the same MemoryFault for
its own address and changes nothing else (R222, R203, R243, R310). Every operator but Indirection, Return and Switch, which
may read outside memory, ends without a fault. -/
def Obligations.ExecuteFindsOperatorAtRunTime : Prop :=
  ∀ (o : Operand) (s : State) (op : Operator), s.faultReg = none → ResolvesTo o s (operatorNumber op) →
    (∀ t, exec (instrOfOperator op) { s with pc := s.pc + o.words - 1 } = .next t → t.faultReg = none →
      exec (.execute o) s = .next t) ∧
    (∀ t f, exec (instrOfOperator op) { s with pc := s.pc + o.words - 1 } = .next t → t.faultReg = some f →
      ∃ addr, f.cause = .memoryFault addr .read ∧
        exec (.execute o) s = .next (Faulted s (.memoryFault addr .read))) ∧
    (op ∉ [Operator.indirection, .ret, .switch] →
      ∃ t, exec (.execute o) s = .next t ∧ t.faultReg = none ∧
        exec (instrOfOperator op) { s with pc := s.pc + o.words - 1 } = .next t)

/-- R244: an X whose resolved operand is not in 1..23 raises UnknownOperator with it, in every form. -/
def Obligations.UnknownOperatorFaults : Prop :=
  (∀ (o : Operand) (s : State) (d : Int), ResolvesTo o s d → d < 1 ∨ 23 < d →
    exec (.execute o) s = .next (Faulted s (.unknownOperator d))) ∧
  (∀ (n : BitVec 8) (s : State), exec (.unknownOperator n) s = .next (Faulted s (.unknownOperator n.toNat)))

/-- R222: Indirection replaces `a` by the Word it addresses, or faults. -/
def Obligations.IndirectionResult : Prop :=
  ∀ s : State,
    (s.inBounds s.a.toInt → exec .xIndirection s = .next { s with pc := s.pc + 1, a := wordAt s s.a.toInt }) ∧
    (¬ s.inBounds s.a.toInt → exec .xIndirection s = .next (Faulted s (.memoryFault s.a.toInt .read)))

/-- R223, R224: Negate and Bitwise-Not. R238 to R241: the bitwise operators, bit by bit. -/
def Obligations.UnaryAndBitwiseResults : Prop :=
  ∀ s : State,
    exec .xNegate s = .next { s with pc := s.pc + 1, a := wrap16 (-s.a.toInt) } ∧
    exec .xBitNot s = .next { s with pc := s.pc + 1, a := wrap16 (-s.a.toInt - 1) } ∧
    exec .xBitAnd s = .next { s with pc := s.pc + 1, a := s.b &&& s.a } ∧
    exec .xBitOr s = .next { s with pc := s.pc + 1, a := s.b ||| s.a } ∧
    exec .xBitXor s = .next { s with pc := s.pc + 1, a := s.b ^^^ s.a } ∧
    ∃ r : Word, exec .xBitEqv s = .next { s with pc := s.pc + 1, a := r } ∧
      ∀ k < 16, r.getLsbD k = (s.b.getLsbD k == s.a.getLsbD k)

/-- R225, R226, R228, R229: Multiply, Divide, Add and Subtract, `b` on the left. -/
def Obligations.ArithmeticResults : Prop :=
  ∀ s : State,
    exec .xMultiply s = .next { s with pc := s.pc + 1, a := wrap16 (s.b.toInt * s.a.toInt) } ∧
    exec .xDivide s = .next { s with
      pc := s.pc + 1, a := if s.a = 0 then s.a else wrap16 (s.b.toInt.fdiv s.a.toInt) } ∧
    exec .xAdd s = .next { s with pc := s.pc + 1, a := wrap16 (s.b.toInt + s.a.toInt) } ∧
    exec .xSubtract s = .next { s with pc := s.pc + 1, a := wrap16 (s.b.toInt - s.a.toInt) }

/-- R227: Remainder by `REM_MODE`: the zero guard, the exact result, its sign and its size. -/
def Obligations.RemainderResult : Prop :=
  ∀ s : State, ∃ r : Word, exec .xRemainder s = .next { s with pc := s.pc + 1, a := r } ∧
    (s.a = 0 → r = s.a) ∧
    (s.a ≠ 0 → r.toInt.natAbs < s.a.toInt.natAbs ∧
      (s.params.remMode = .truncate → r.toInt = s.b.toInt - s.a.toInt * s.b.toInt.tdiv s.a.toInt ∧
        (r = 0 ∨ (r.toInt < 0 ↔ s.b.toInt < 0))) ∧
      (s.params.remMode = .floor → r.toInt = s.b.toInt - s.a.toInt * s.b.toInt.fdiv s.a.toInt ∧
        (r = 0 ∨ (r.toInt < 0 ↔ s.a.toInt < 0))))

/-- R226, R227: under `floor`, dividend = divisor * quotient + remainder for every non-zero divisor, on the 16-bit Words. -/
def Obligations.DivideRemainderIdentity : Prop :=
  ∀ s t u : State, s.params.remMode = .floor → s.a ≠ 0 → exec .xDivide s = .next t →
    exec .xRemainder s = .next u → wrap16 (s.a.toInt * t.a.toInt + u.a.toInt) = s.b

/-- R230 to R235, R247: the six comparisons are signed and write -1 or 0. -/
def Obligations.ComparisonResults : Prop :=
  ∀ s : State,
    exec .xEqual s = .next { s with pc := s.pc + 1, a := if s.b.toInt = s.a.toInt then -1 else 0 } ∧
    exec .xNotEqual s = .next { s with pc := s.pc + 1, a := if s.b.toInt ≠ s.a.toInt then -1 else 0 } ∧
    exec .xLess s = .next { s with pc := s.pc + 1, a := if s.b.toInt < s.a.toInt then -1 else 0 } ∧
    exec .xGreaterOrEqual s = .next { s with pc := s.pc + 1, a := if s.b.toInt ≥ s.a.toInt then -1 else 0 } ∧
    exec .xGreater s = .next { s with pc := s.pc + 1, a := if s.b.toInt > s.a.toInt then -1 else 0 } ∧
    exec .xLessOrEqual s = .next { s with pc := s.pc + 1, a := if s.b.toInt ≤ s.a.toInt then -1 else 0 }

/-- R236, R237: the shifts, bit by bit; an amount of 16 or more, a negative one included, gives 0 or the sign. -/
def Obligations.ShiftResults : Prop :=
  ∀ s : State,
    (∃ r : Word, exec .xLeftShift s = .next { s with pc := s.pc + 1, a := r } ∧
      ∀ k < 16, r.getLsbD k = (decide (s.a.toNat ≤ k) && s.b.getLsbD (k - s.a.toNat))) ∧
    (∃ r : Word, exec .xRightShift s = .next { s with pc := s.pc + 1, a := r } ∧
      (s.params.rshMode = .logical → ∀ k < 16, r.getLsbD k = s.b.getLsbD (k + s.a.toNat)) ∧
      (s.params.rshMode = .arithmetic → ∀ k < 16, r.getLsbD k =
        if k + s.a.toNat < 16 then s.b.getLsbD (k + s.a.toNat) else s.b.getLsbD 15))

/-- R242: Finish writes the running flag only, and the run then reports success with the exit value `a` (R170). -/
def Obligations.FinishResult : Prop :=
  ∀ s : State, exec .xFinish s = .next { s with pc := s.pc + 1, running := false } ∧
    (s.phase = .loaded → s.faultReg = none →
      reportOf { s with pc := s.pc + 1, running := false } = some ⟨true, s.output, s.warnings, some s.a, none⟩)

/-- R243: Switch reads the table after the instruction in order. The first pair whose value is `a` wins; with no such pair
the default is taken; a word of the scan outside memory faults, and no pair after the first match is read. -/
def Obligations.SwitchResult : Prop :=
  ∀ s : State,
    (¬ s.inBounds (s.pc + 1) → exec .xSwitch s = .next (Faulted s (.memoryFault (s.pc + 1) .read))) ∧
    (s.inBounds (s.pc + 1) → ¬ s.inBounds (s.pc + 2) →
      exec .xSwitch s = .next (Faulted s (.memoryFault (s.pc + 2) .read))) ∧
    (s.inBounds (s.pc + 1) → s.inBounds (s.pc + 2) → ∀ j : Nat,
      (∀ i < j, (i : Int) < (wordAt s (s.pc + 1)).toInt ∧ s.inBounds (s.pc + 3 + 2 * i) ∧
        s.inBounds (s.pc + 4 + 2 * i) ∧ wordAt s (s.pc + 3 + 2 * i) ≠ s.a) →
      ((wordAt s (s.pc + 1)).toInt ≤ j → exec .xSwitch s = .next { s with pc := (wordAt s (s.pc + 2)).toInt }) ∧
      ((j : Int) < (wordAt s (s.pc + 1)).toInt →
        (¬ s.inBounds (s.pc + 3 + 2 * j) →
          exec .xSwitch s = .next (Faulted s (.memoryFault (s.pc + 3 + 2 * j) .read))) ∧
        (s.inBounds (s.pc + 3 + 2 * j) → ¬ s.inBounds (s.pc + 4 + 2 * j) →
          exec .xSwitch s = .next (Faulted s (.memoryFault (s.pc + 4 + 2 * j) .read))) ∧
        (s.inBounds (s.pc + 3 + 2 * j) → s.inBounds (s.pc + 4 + 2 * j) → wordAt s (s.pc + 3 + 2 * j) = s.a →
          exec .xSwitch s = .next { s with pc := (wordAt s (s.pc + 4 + 2 * j)).toInt })))

/-! ## Memory -/

/-- R55, R62: a Word read answers the Word last written there, and a write leaves every other Word alone. -/
def Obligations.WordReadAfterWrite : Prop :=
  ∀ (m : Memory) (i j : Nat) (v : Word), readWord (writeWord m i v) j = if j = i then v else readWord m j

/-- R56: a byte read after a byte write gives the byte, and every other byte offset reads as before. -/
def Obligations.ByteReadAfterWrite : Prop :=
  ∀ (s t : State) (addr off : Int) (v : Byte), setByte s addr off v = .ok t →
    getByte t addr off = .ok v ∧ ∀ off', off' ≠ off → getByte t addr off' = getByte s addr off'

/-! ## Whole-machine rules -/

/-- R21: Load is the only instruction that writes `b`. -/
def Obligations.OnlyLoadWritesB : Prop :=
  ∀ (i : Instr) (s t : State), (∀ o, i ≠ .load o) → exec i s = .next t → t.b = s.b

/-- R25, R242, R266: no instruction sets the running flag, and only Finish and Stop clear it. -/
def Obligations.OnlyFinishAndStopClearRunning : Prop :=
  ∀ (i : Instr) (s t : State), exec i s = .next t →
    (t.running = true → s.running = true) ∧
    (s.running = true → t.running = false →
      i = .xFinish ∨ (∃ o, i = .execute o ∧ ResolvesTo o s 22) ∨
        ∃ o, i = .call o ∧ s.a = s.params.sysNums.num .stop)

/-- R27, R29, R31, R32, R34, R62: an instruction writes neither the step counter nor the parameters nor the engine nor what
the engine answered; output and warning log are only appended to, and input is only consumed from its head. -/
def Obligations.RuntimeStateOnlyMovesForward : Prop :=
  ∀ (i : Instr) (s t : State), exec i s = .next t →
    t.steps = s.steps ∧ t.params = s.params ∧ t.engine = s.engine ∧ t.assembly = s.assembly ∧ t.phase = s.phase ∧
    s.output <+: t.output ∧ s.warnings <+: t.warnings ∧ t.input <:+ s.input

/-- R22, R32, R54, R161: every step of the machine keeps the invariant `Inv`. -/
def Obligations.StepKeepsInvariant : Prop :=
  ∀ s t : State, Inv s → step s = .next t → Inv t

/-- The reset state meets the invariant, and it is what `load` of the empty image leaves (the model's choice, in
notes/assumptions/2.md). -/
def Obligations.ResetMeetsInvariant : Prop :=
  Inv State.reset ∧ load [] (construct Params.reference []) = .next State.reset

/-- R161, R170: a loaded run ends: at most BUDGET instructions complete, and one more step reports a fault. -/
def Obligations.EveryRunEnds : Prop :=
  ∀ s : State, s.phase = .loaded → s.steps ≤ s.params.budget →
    ∃ n t, n ≤ s.params.budget - s.steps + 1 ∧ Sys2Proof.core.run n s = .next t ∧ t.ended

/-! ## Construction and load -/

/-- R331, R332: the start state of a run, right after `load` of an image that fits, for every parameter and input. -/
def Obligations.LoadGivesStartState : Prop :=
  ∀ (p : Params) (input : List Byte) (image : List Int), p.Valid → image.length ≤ p.memSize →
    ∃ t, load image (construct p input) = .next t ∧ t.pc = 401 ∧ t.a = 0 ∧ t.b = 0 ∧
      t.sp.toInt = image.length ∧ t.running = true ∧ t.faultReg = none ∧ t.steps = 0 ∧ t.input = input ∧
      t.output = [] ∧ t.cin = p.inputHandle ∧ t.cout = p.printHandle ∧ t.watermark = p.memSize ∧
      t.warnings = [] ∧ t.phase = .loaded ∧ t.params = p ∧
      ∀ i, readWord t.mem i =
        if h : i < image.length then wrap16 image[i] else if i ≤ 400 then BitVec.ofNat 16 i else 0

/-- R307, R68: an image longer than MEMSIZE is a LoadFault and no instruction runs; any loaded instance refuses another load.
That the record has no instruction address is the model's reading in notes/assumptions/6.md, that no step follows is R161's
stuck state in the form of notes/assumptions/4.md, and that the second load is refused is the reading in
notes/assumptions/3.md. -/
def Obligations.LoadFaultAndReuse : Prop :=
  (∀ (p : Params) (input : List Byte) (image : List Int), p.memSize < image.length →
    ∃ t, load image (construct p input) = .next t ∧ t.faultReg = some ⟨.loadFault image.length, none⟩ ∧
      t.phase = .loaded ∧ step t = .fault .faulted ∧ reportOf t = some ⟨false, [], [], none, t.faultReg⟩) ∧
  (∀ (s t : State) (image : List Int), load image s = .next t → t.phase = .loaded) ∧
  ∀ (s : State) (image : List Int), s.phase = .loaded → load image s = .refused .alreadyLoaded

/-! ## The label-resolution engine -/

/-- R112: `emit` writes the wrapped value at the cursor and advances it, or the image overflows. -/
def Obligations.EmitWritesAtCursor : Prop :=
  ∀ (p : Params) (e : Engine) (v : Int),
    (e.cursor < p.memSize → ∃ e', emit p e v = .ok e' ∧ e'.cursor = e.cursor + 1 ∧
      (∀ i, readWord e'.image i = if i = e.cursor then wrap16 v else readWord e.image i) ∧
      e' = { e with image := e'.image, cursor := e'.cursor }) ∧
    (p.memSize ≤ e.cursor → emit p e v = .error (.imageOverflow e.cursor))

/-- R121: a reference to a defined label stores its address in the placeholder and leaves the table; one to a label that is
not defined stores the old head of the chain and makes the placeholder the head, newest first. -/
def Obligations.ReferenceExtendsChain : Prop :=
  ∀ (e : Engine) (k addr : Nat), ∃ e', reference e k addr = e' ∧
    (∀ i, i ≠ addr → readWord e'.image i = readWord e.image i) ∧
    (slotGet e.table k < 0 →
      readWord e'.image addr = wrap16 (-slotGet e.table k) ∧ e' = { e with image := e'.image }) ∧
    (0 ≤ slotGet e.table k →
      readWord e'.image addr = wrap16 (slotGet e.table k) ∧ slotGet e'.table k = addr ∧
      (∀ j, j ≠ k → slotGet e'.table j = slotGet e.table j) ∧
      e' = { e with image := e'.image, table := e'.table } ∧
      ∀ (size : Nat) (ps : List Nat), size ≤ 32767 → 0 < addr → addr < size → addr ∉ ps →
        ChainFrom e.image size (slotGet e.table k) ps →
        ChainFrom e'.image size (slotGet e'.table k) (addr :: ps))

/-- R118, R119, R120, R134: a definition checks its label, starts its walk at the label's slot, writes the defined address
into every placeholder of the chain, changes no other word, and leaves the slot resolved. A duplicate definition adds its
warning, walks no chain, and moves the slot to the new address. That a walk takes as many engine steps as the chain has
links and one more is the model's choice of one link a step (notes/assumptions/7.md). -/
def Obligations.DefinitionClosesChain : Prop :=
  ∀ (p : Params) (e : Engine),
    (∀ v : Int, v < 0 ∨ p.labMax ≤ v → beginDefinition p e v = .error (.labelRange v)) ∧
    ∀ k : Nat, k < p.labMax → e.fatal = none → e.finished = false →
      ∃ e₀, beginDefinition p e k = .ok e₀ ∧ e₀.walk = some ⟨k, slotGet e.table k⟩ ∧
        (∀ ps : List Nat, ps.Nodup → ChainFrom e.image p.memSize (slotGet e.table k) ps →
          ∃ e', engineRun p (ps.length + 1) e₀ = e' ∧
            (∀ i, readWord e'.image i = if i ∈ ps then wrap16 e.cursor else readWord e.image i) ∧
            slotGet e'.table k = -(e.cursor : Int) ∧ (∀ j, j ≠ k → slotGet e'.table j = slotGet e.table j) ∧
            e' = { e with image := e'.image, table := e'.table, walk := none }) ∧
        (slotGet e.table k < 0 →
          ∃ e', engineRun p 1 e₀ = e' ∧
            slotGet e'.table k = -(e.cursor : Int) ∧ (∀ j, j ≠ k → slotGet e'.table j = slotGet e.table j) ∧
            e' = { e with
              table := e'.table
              warnings := e.warnings ++ [.duplicateLabel k (-slotGet e.table k) e.cursor]
              walk := none })
end

