-- ==== Sys2Proof/Laws/Decode.lean ====
section
/-! SUPPORT. The fields of an instruction word, and of an encoded one. -/

namespace Sys2Proof

theorem hasReservedBits_iff (w : Word) : hasReservedBits w = true ↔ reservedField w ≠ 0 := by
  have h : reservedField w = 0 ↔ w.getLsbD 6 = false ∧ w.getLsbD 7 = false := by
    constructor
    · intro h
      have h0 := congrArg (fun x : BitVec 2 => x.getLsbD 0) h
      have h1 := congrArg (fun x : BitVec 2 => x.getLsbD 1) h
      simpa [reservedField] using And.intro h0 h1
    · rintro ⟨h0, h1⟩
      refine BitVec.eq_of_getLsbD_eq fun i hi => ?_
      have : i = 0 ∨ i = 1 := by omega
      rcases this with rfl | rfl
      · simpa [reservedField] using h0
      · simpa [reservedField] using h1
  rw [Ne, h]
  unfold hasReservedBits
  cases w.getLsbD 6 <;> cases w.getLsbD 7 <;> simp

/-- A word that takes a data word has its reserved bits 00 and its D flag set (R80). -/
theorem takesDataWord_iff (w : Word) :
    takesDataWord w = true ↔ hasReservedBits w = false ∧ w.getLsbD 5 = true := by
  rw [← Bool.not_eq_true, hasReservedBits_iff]
  simp [takesDataWord, dataFlag]

/-- The pattern of an encoded word (R90). -/
theorem encodeWord_toNat (f : Nat) (hf : f < 8) (i p d : Bool) (n : BitVec 8) :
    (encodeWord f i p d n).toNat = n.toNat * 256 + d.toNat * 32 + p.toNat * 16 + i.toNat * 8 + f := by
  have hn := n.isLt
  have hi : i.toNat ≤ 1 := by cases i <;> simp
  have hp : p.toNat ≤ 1 := by cases p <;> simp
  have hd : d.toNat ≤ 1 := by cases d <;> simp
  simp only [encodeWord, wrap16, BitVec.toNat_ofInt]
  omega

end Sys2Proof
end

