-- ==== Sys2Proof/Laws/Memory.lean ====
section
/-! SUPPORT. What the operations over a memory do: read after write by lane, and the canonical form kept. -/

namespace Sys2Proof.Machine

/-! ## Cells -/

theorem mem_insertCell {c d : Host.Cell} {m : Memory} : d ∈ insertCell c m ↔ d = c ∨ d ∈ m := by
  induction m with
  | nil => simp [insertCell]
  | cons e m ih =>
    unfold insertCell
    split
    · simp only [List.mem_cons, ih]; tauto
    · simp

/-- Inserting a cell of a new key keeps the keys strictly rising. -/
theorem insertCell_sorted {c : Host.Cell} {m : Memory} (hm : m.Pairwise fun x y => x.1 < y.1)
    (hc : ∀ d ∈ m, d.1 ≠ c.1) : (insertCell c m).Pairwise fun x y => x.1 < y.1 := by
  induction m with
  | nil => simp [insertCell]
  | cons e m ih =>
    rw [List.pairwise_cons] at hm
    unfold insertCell
    split
    · rename_i hlt
      refine List.pairwise_cons.2 ⟨fun d hd => ?_, ih hm.2 fun d hd => hc d (by simp [hd])⟩
      rcases mem_insertCell.1 hd with rfl | hd
      · exact hlt
      · exact hm.1 d hd
    · rename_i hle
      have hne := hc e (by simp)
      refine List.pairwise_cons.2 ⟨fun d hd => ?_, List.pairwise_cons.2 hm⟩
      rcases List.mem_cons.1 hd with rfl | hd
      · omega
      · have := hm.1 d hd; omega

/-- A memory with no cell at a key reads its construction value there. -/
theorem readByte_absent {m : Memory} {key : Nat} (h : ∀ c ∈ m, c.1 ≠ key) :
    readByte m key = constructionByte key := by
  induction m with
  | nil => rfl
  | cons c m ih =>
    unfold readByte
    rw [if_neg (h c (by simp)), ih fun d hd => h d (by simp [hd])]

theorem readByte_insertCell {c : Host.Cell} {m : Memory} {key : Nat} (hc : ∀ d ∈ m, d.1 ≠ c.1) :
    readByte (insertCell c m) key = if key = c.1 then c.2 else readByte m key := by
  induction m with
  | nil => simp only [insertCell, readByte, eq_comm]
  | cons e m ih =>
    have hne := hc e (by simp)
    have ih := ih fun d hd => hc d (by simp [hd])
    unfold insertCell
    split
    · simp only [readByte, ih]
      by_cases he : e.1 = key
      · rw [if_pos he, if_pos he, if_neg (by omega)]
      · rw [if_neg he, if_neg he]
    · simp only [readByte, eq_comm]

theorem readByte_filter {m : Memory} {key j : Nat} (h : j ≠ key) :
    readByte (m.filter fun c => c.1 ≠ key) j = readByte m j := by
  induction m with
  | nil => rfl
  | cons c m ih =>
    by_cases hc : c.1 = key
    · rw [List.filter_cons_of_neg (by simp [hc]), ih]
      simp only [readByte]
      rw [if_neg (by omega)]
    · rw [List.filter_cons_of_pos (by simp [hc])]
      simp only [readByte, ih]

/-! ## Lanes -/

/-- Reading a lane after writing one, in any list of cells. -/
theorem readByte_writeByte (m : Memory) (key j : Nat) (b : Byte) :
    readByte (writeByte m key b) j = if j = key then b else readByte m j := by
  have habs : ∀ d ∈ m.filter (fun c => c.1 ≠ key), d.1 ≠ key := by simp
  unfold writeByte
  by_cases hj : j = key
  · subst hj
    by_cases hb : b = constructionByte j
    · simp only [if_pos hb, if_true]; rw [readByte_absent habs, hb]
    · simp only [if_neg hb, if_true]; rw [readByte_insertCell habs, if_pos rfl]
  · by_cases hb : b = constructionByte key
    · simp only [if_pos hb, if_neg hj]; exact readByte_filter hj
    · simp only [if_neg hb, if_neg hj]; rw [readByte_insertCell habs, if_neg hj, readByte_filter hj]

/-- Writing a lane keeps the canonical form. -/
theorem writeByte_wf {m : Memory} (h : m.wf) (key : Nat) (b : Byte) : (writeByte m key b).wf := by
  have hs : (m.filter fun c => c.1 ≠ key).Pairwise (fun c d => c.1 < d.1) := h.1.filter _
  have hd : ∀ c ∈ m.filter (fun c => c.1 ≠ key), c.2 ≠ constructionByte c.1 :=
    fun c hc => h.2 c (List.mem_filter.1 hc).1
  unfold writeByte
  split
  · exact ⟨hs, hd⟩
  · rename_i hb
    refine ⟨insertCell_sorted hs (by simp), fun c hc => ?_⟩
    rcases mem_insertCell.1 hc with rfl | hc
    · exact hb
    · exact hd c hc

theorem writeByte_within {m : Memory} {n key : Nat} (h : m.within n) (hk : key < 2 * n) (b : Byte) :
    (writeByte m key b).within n := by
  have hf : ∀ c ∈ m.filter (fun c => c.1 ≠ key), c.1 < 2 * n := fun c hc => h c (List.mem_filter.1 hc).1
  unfold writeByte
  split
  · exact hf
  · intro c hc
    rcases mem_insertCell.1 hc with rfl | hc
    · exact hk
    · exact hf c hc

/-! ## Words -/

/-- The lanes after writing a Word. -/
theorem readByte_writeWord (m : Memory) (i j : Nat) (v : Word) :
    readByte (writeWord m i v) j =
      if j = 2 * i + 1 then v.extractLsb' 8 8 else if j = 2 * i then v.extractLsb' 0 8 else readByte m j := by
  simp only [writeWord, readByte_writeByte]

/-- Writing a Word keeps the canonical form. -/
theorem writeWord_wf {m : Memory} (h : m.wf) (i : Nat) (v : Word) : (writeWord m i v).wf :=
  writeByte_wf (writeByte_wf h _ _) _ _

/-- Writing a Word below word address `n` stays below it. -/
theorem writeWord_within {m : Memory} {n i : Nat} (h : m.within n) (hi : i < n) (v : Word) :
    (writeWord m i v).within n :=
  writeByte_within (writeByte_within h (by omega) _) (by omega) _

/-- Copying words keeps the canonical form. -/
theorem copyWords_wf {m : Memory} (h : m.wf) (i : Nat) (l : List Word) : (copyWords m i l).wf := by
  induction l generalizing m i with
  | nil => exact h
  | cons v l ih => exact ih (writeWord_wf h i v) (i + 1)

/-- Copying words that end below word address `n` stays below it. -/
theorem copyWords_within {m : Memory} {n i : Nat} {l : List Word} (h : m.within n) (hi : i + l.length ≤ n) :
    (copyWords m i l).within n := by
  induction l generalizing m i with
  | nil => exact h
  | cons v l ih =>
    rw [List.length_cons] at hi
    exact ih (writeWord_within h (by omega) v) (by omega)

/-- The empty list of cells is canonical: it is the memory at reset and at construction. -/
theorem wf_nil : Memory.wf [] := ⟨List.Pairwise.nil, by simp⟩

end Sys2Proof.Machine
end

