-- ==== Sys2Proof/Laws/Engine.lean ====
section
/-! SUPPORT. The label table of the engine, and what each engine operation can do. -/

namespace Sys2Proof.Machine

/-! ## The label table (R33) -/

theorem mem_slotInsert {e f : Nat × Int} {t : List (Nat × Int)} : f ∈ slotInsert e t ↔ f = e ∨ f ∈ t := by
  induction t with
  | nil => simp [slotInsert]
  | cons x t ih =>
    unfold slotInsert
    split
    · simp only [List.mem_cons, ih]; tauto
    · simp

theorem slotInsert_sorted {e : Nat × Int} {t : List (Nat × Int)} (ht : t.Pairwise fun x y => x.1 < y.1)
    (he : ∀ x ∈ t, x.1 ≠ e.1) : (slotInsert e t).Pairwise fun x y => x.1 < y.1 := by
  induction t with
  | nil => simp [slotInsert]
  | cons x t ih =>
    rw [List.pairwise_cons] at ht
    unfold slotInsert
    split
    · rename_i hlt
      refine List.pairwise_cons.2 ⟨fun y hy => ?_, ih ht.2 fun y hy => he y (by simp [hy])⟩
      rcases mem_slotInsert.1 hy with rfl | hy
      · exact hlt
      · exact ht.1 y hy
    · have := he x (by simp)
      refine List.pairwise_cons.2 ⟨fun y hy => ?_, List.pairwise_cons.2 ht⟩
      rcases List.mem_cons.1 hy with rfl | hy
      · omega
      · have := ht.1 y hy; omega

theorem slotGet_slotInsert {e : Nat × Int} {t : List (Nat × Int)} {k : Nat} (he : ∀ x ∈ t, x.1 ≠ e.1) :
    slotGet (slotInsert e t) k = if k = e.1 then e.2 else slotGet t k := by
  induction t with
  | nil => simp only [slotInsert, slotGet, eq_comm]
  | cons x t ih =>
    have hx := he x (by simp)
    have ih := ih fun y hy => he y (by simp [hy])
    unfold slotInsert
    split
    · simp only [slotGet, ih]
      by_cases h : x.1 = k
      · rw [if_pos h, if_pos h, if_neg (by omega)]
      · rw [if_neg h, if_neg h]
    · simp only [slotGet, eq_comm]

theorem slotGet_absent {t : List (Nat × Int)} {k : Nat} (h : ∀ x ∈ t, x.1 ≠ k) : slotGet t k = 0 := by
  induction t with
  | nil => rfl
  | cons x t ih => simp only [slotGet, if_neg (h x (by simp)), ih fun y hy => h y (by simp [hy])]

theorem slotGet_filter {t : List (Nat × Int)} {k j : Nat} (h : j ≠ k) :
    slotGet (t.filter fun x => x.1 ≠ k) j = slotGet t j := by
  induction t with
  | nil => rfl
  | cons x t ih =>
    by_cases hx : x.1 = k
    · rw [List.filter_cons_of_neg (by simp [hx]), ih]
      simp only [slotGet]
      rw [if_neg (by omega)]
    · rw [List.filter_cons_of_pos (by simp [hx])]
      simp only [slotGet, ih]

/-- Reading a slot after writing one. -/
theorem slotGet_slotSet (t : List (Nat × Int)) (k j : Nat) (v : Int) :
    slotGet (slotSet t k v) j = if j = k then v else slotGet t j := by
  have habs : ∀ x ∈ t.filter (fun x => x.1 ≠ k), x.1 ≠ k := by simp
  unfold slotSet
  by_cases hj : j = k
  · subst hj
    by_cases hv : v = 0
    · simp only [if_pos hv, if_true]; rw [slotGet_absent habs, hv]
    · simp only [if_neg hv, if_true]; rw [slotGet_slotInsert habs, if_pos rfl]
  · by_cases hv : v = 0
    · simp only [if_pos hv, if_neg hj]; exact slotGet_filter hj
    · simp only [if_neg hv, if_neg hj]; rw [slotGet_slotInsert habs, if_neg hj, slotGet_filter hj]

/-- Writing a slot below LABMAX keeps the canonical form of the table. -/
theorem slotSet_wf {n k : Nat} {t : List (Nat × Int)} (h : tableWf n t) (hk : k < n) (v : Int) :
    tableWf n (slotSet t k v) := by
  have hs : (t.filter fun x => x.1 ≠ k).Pairwise (fun x y => x.1 < y.1) := h.1.filter _
  have hd : ∀ x ∈ t.filter (fun x => x.1 ≠ k), x.2 ≠ 0 ∧ x.1 < n := fun x hx => h.2 x (List.mem_filter.1 hx).1
  unfold slotSet
  split
  · exact ⟨hs, hd⟩
  · rename_i hv
    refine ⟨slotInsert_sorted hs (by simp), fun x hx => ?_⟩
    rcases mem_slotInsert.1 hx with rfl | hx
    · exact ⟨hv, hk⟩
    · exact hd x hx

theorem tableWf_nil (n : Nat) : tableWf n [] := ⟨List.Pairwise.nil, by simp⟩

/-! ## Engine operations -/

theorem checkLabel_ok_iff {p : Params} {v : Int} {k : Nat} :
    checkLabel p v = .ok k ↔ 0 ≤ v ∧ v < p.labMax ∧ k = v.toNat := by
  unfold checkLabel
  split
  · rename_i h; simp [h, eq_comm]
  · rename_i h
    simp only [reduceCtorEq, false_iff]
    rintro ⟨h1, h2, -⟩; exact h ⟨h1, h2⟩

/-- `emit` that succeeds wrote one word at the cursor (R112). -/
theorem emit_ok_iff {p : Params} {e e' : Engine} {v : Int} :
    emit p e v = .ok e' ↔ e.cursor < p.memSize ∧
      e' = { e with image := writeWord e.image e.cursor (wrap16 v), cursor := e.cursor + 1 } := by
  unfold emit
  split
  · rename_i h; simp only [reduceCtorEq, false_iff]; rintro ⟨h1, -⟩; omega
  · rename_i h; simp [eq_comm]; intro; omega

/-- The bootstrap words keep the image canonical. -/
theorem bootstrapImage_wf : bootstrapImage.wf := writeWord_wf (writeWord_wf (writeWord_wf wf_nil _ _) _ _) _ _

/-- A step of the engine that may fail, taken apart. -/
theorem asm_bind_ok_iff {α β : Type} {x : Except AsmError α} {f : α → Except AsmError β} {r : β} :
    x >>= f = .ok r ↔ ∃ v, x = .ok v ∧ f v = .ok r := by
  cases x <;> simp [bind, Except.bind]

/-- A reference to a label that is not defined yet: the placeholder gets the old head and becomes the head (R121). -/
theorem reference_open {e : Engine} {k addr : Nat} (h : 0 ≤ slotGet e.table k) :
    reference e k addr = { e with
      image := writeWord e.image addr (wrap16 (slotGet e.table k)), table := slotSet e.table k addr } := by
  unfold reference; exact if_neg (by omega)

/-- A reference to a defined label stores its address (R121). -/
theorem reference_defined {e : Engine} {k addr : Nat} (h : slotGet e.table k < 0) :
    reference e k addr = { e with image := writeWord e.image addr (wrap16 (-slotGet e.table k)) } := by
  unfold reference; exact if_pos h

/-- A label out of range is the fatal LabelRangeError (R120). -/
theorem checkLabel_error {p : Params} {v : Int} (h : v < 0 ∨ p.labMax ≤ v) : checkLabel p v = .error (.labelRange v) := by
  unfold checkLabel; exact if_neg (by omega)

/-- A definition of a label that is not defined starts its walk at the head of the chain (R118). -/
theorem beginDefinition_open {p : Params} {e : Engine} {k : Nat} (hk : k < p.labMax) (h : 0 ≤ slotGet e.table k) :
    beginDefinition p e k = .ok { e with walk := some ⟨k, slotGet e.table k⟩ } := by
  unfold beginDefinition; rw [checkLabel_ok_iff.2 ⟨by omega, by omega, rfl⟩]; exact if_neg (by simpa using h)

/-- A duplicate definition adds its warning, and its walk is at its end (R118, R119). -/
theorem beginDefinition_duplicate {p : Params} {e : Engine} {k : Nat} (hk : k < p.labMax) (h : slotGet e.table k < 0) :
    beginDefinition p e k = .ok { e with
      walk := some ⟨k, slotGet e.table k⟩
      warnings := e.warnings ++ [.duplicateLabel k (-slotGet e.table k) e.cursor] } := by
  unfold beginDefinition; rw [checkLabel_ok_iff.2 ⟨by omega, by omega, rfl⟩]; exact if_pos (by simpa using h)

theorem beginDefinition_error {p : Params} {e : Engine} {v : Int} (h : v < 0 ∨ p.labMax ≤ v) :
    beginDefinition p e v = .error (.labelRange v) := by
  unfold beginDefinition; rw [checkLabel_error h]; rfl

/-- One link of a chain walk (R118). -/
theorem walkChain_link {p : Params} {e : Engine} {k link : Nat} (h : 0 < link) (hm : link < p.memSize) :
    walkChain p e ⟨k, link⟩ = .ok { e with
      image := writeWord e.image link (wrap16 e.cursor), walk := some ⟨k, (readWord e.image link).toInt⟩ } := by
  unfold walkChain
  rw [if_pos (by simp only; omega), if_neg (by simp only; omega)]
  rfl

/-- The end of a chain walk (R118). -/
theorem walkChain_end {p : Params} {e : Engine} {w : ChainWalk} (h : w.link ≤ 0) :
    walkChain p e w = .ok { e with table := slotSet e.table w.label (-(e.cursor : Int)), walk := none } := by
  unfold walkChain; exact if_neg (by omega)

/-- A step of an engine that walks a chain. -/
theorem engineStep_walk {p : Params} {e : Engine} {w : ChainWalk} (hf : e.fatal = none) (hn : e.finished = false)
    (hw : e.walk = some w) : engineStep p e = settleEngine e (walkChain p e w) := by
  simp only [engineStep, hf, hn, hw]; rfl

/-- A step of an engine that reads the text. -/
theorem engineStep_read {p : Params} {e : Engine} (hf : e.fatal = none) (hn : e.finished = false)
    (hw : e.walk = none) : engineStep p e = settleEngine e (readItem p e) := by
  simp only [engineStep, hf, hn, hw]; rfl

/-! ## The invariant of the engine -/

theorem moveTo_inv {p : Params} {e : Engine} (h : EngineInv p e) (sc : Scan) : EngineInv p (e.moveTo sc) :=
  ⟨h.1, h.2, h.3, h.4, h.5, h.6⟩

theorem emit_inv {p : Params} {e e' : Engine} {v : Int} (h : EngineInv p e) (he : emit p e v = .ok e') :
    EngineInv p e' := by
  obtain ⟨hlt, rfl⟩ := emit_ok_iff.1 he
  exact ⟨writeWord_wf h.1 _ _, writeWord_within h.2 hlt _, by have := h.3; simp only; omega, by simp only; omega,
    h.5, h.6⟩

theorem reference_inv {p : Params} {e : Engine} {k addr : Nat} (h : EngineInv p e) (hk : k < p.labMax)
    (ha : addr < p.memSize) : EngineInv p (reference e k addr) := by
  by_cases hs : slotGet e.table k < 0
  · rw [reference_defined hs]
    exact ⟨writeWord_wf h.1 _ _, writeWord_within h.2 ha _, h.3, h.4, h.5, h.6⟩
  · rw [reference_open (by omega)]
    exact ⟨writeWord_wf h.1 _ _, writeWord_within h.2 ha _, h.3, h.4, slotSet_wf h.5 hk _, h.6⟩

theorem emitReference_inv {p : Params} {e e' : Engine} {k : Nat} (h : EngineInv p e) (hk : k < p.labMax)
    (he : emitReference p e k = .ok e') : EngineInv p e' := by
  unfold emitReference at he
  rw [asm_bind_ok_iff] at he
  obtain ⟨e1, h1, h2⟩ := he
  have hlt := (emit_ok_iff.1 h1).1
  injection h2 with h2
  subst h2
  exact reference_inv (emit_inv h h1) hk hlt

/-! ## The end of an assembly run (R32, R110) -/

/-- A load discards the engine. -/
@[simp] theorem loadImage_engine (image : List Word) (s : State) : (loadImage image s).engine = Engine.blank := by
  unfold loadImage; split <;> rfl

@[simp] theorem loadImage_assembly (image : List Word) (s : State) : (loadImage image s).assembly = s.assembly := by
  unfold loadImage; split <;> rfl

@[simp] theorem loadImage_phase (image : List Word) (s : State) : (loadImage image s).phase = .loaded := by
  unfold loadImage; split <;> rfl

@[simp] theorem loadImage_params (image : List Word) (s : State) : (loadImage image s).params = s.params := by
  unfold loadImage; split <;> rfl

/-- A fatal error ends the run: the engine is discarded, the error kept, and there is no image. -/
theorem assemblyStep_fatal {s : State} {err : AsmError} (h : s.engine.fatal = some err) :
    assemblyStep s = { s with engine := Engine.blank, assembly := some (.failed err), phase := .noImage } := by
  unfold assemblyStep; rw [h]; rfl

/-- A finished image ends the run: it is loaded, and of the engine only the warnings are kept. -/
theorem assemblyStep_finished {s : State} (hf : s.engine.fatal = none) (h : s.engine.finished = true) :
    assemblyStep s =
      loadImage (imageWords s.engine)
        { s with engine := Engine.blank, assembly := some (.assembled s.engine.warnings) } := by
  unfold assemblyStep; rw [hf]; exact if_pos h

/-- Until then a step of the run is a step of the engine. -/
theorem assemblyStep_engine {s : State} (hf : s.engine.fatal = none) (h : s.engine.finished = false) :
    assemblyStep s = { s with engine := engineStep s.params s.engine } := by
  unfold assemblyStep; rw [hf]; exact if_neg (by simp [h])

/-- After its run the engine holds nothing. -/
theorem assemblyStep_discards {s : State} (h : (assemblyStep s).phase ≠ .assembling) (hs : s.phase = .assembling) :
    (assemblyStep s).engine = Engine.blank := by
  cases hf : s.engine.fatal with
  | some err => rw [assemblyStep_fatal hf]
  | none =>
    cases hd : s.engine.finished with
    | true => rw [assemblyStep_finished hf hd, loadImage_engine]
    | false => rw [assemblyStep_engine hf hd] at h; exact absurd hs h

/-- The blank engine meets its invariant. -/
theorem blank_inv {p : Params} (hp : p.Valid) : EngineInv p Engine.blank :=
  ⟨⟨List.Pairwise.nil, by simp [Engine.blank]⟩, by simp [Engine.blank], Nat.le_refl _,
    by have := hp.memSize_ge; simp only [Engine.blank]; omega, ⟨List.Pairwise.nil, by simp [Engine.blank]⟩,
    by simp [Engine.blank]⟩

end Sys2Proof.Machine
end

