-- ==== Sys2Proof/Laws/State.lean ====
section
/-! SUPPORT. The fields of every named update of State, one lemma per field, each true by rfl. -/

namespace Sys2Proof.Machine

section
variable (s : State) (v : Word)

@[simp] theorem setA_a : (s.setA v).a = v := rfl
@[simp] theorem setA_b : (s.setA v).b = s.b := rfl
@[simp] theorem setA_pc : (s.setA v).pc = s.pc := rfl
@[simp] theorem setA_sp : (s.setA v).sp = s.sp := rfl
@[simp] theorem setA_running : (s.setA v).running = s.running := rfl
@[simp] theorem setA_faultReg : (s.setA v).faultReg = s.faultReg := rfl
@[simp] theorem setA_steps : (s.setA v).steps = s.steps := rfl
@[simp] theorem setA_input : (s.setA v).input = s.input := rfl
@[simp] theorem setA_output : (s.setA v).output = s.output := rfl
@[simp] theorem setA_cin : (s.setA v).cin = s.cin := rfl
@[simp] theorem setA_cout : (s.setA v).cout = s.cout := rfl
@[simp] theorem setA_watermark : (s.setA v).watermark = s.watermark := rfl
@[simp] theorem setA_mem : (s.setA v).mem = s.mem := rfl
@[simp] theorem setA_warnings : (s.setA v).warnings = s.warnings := rfl
@[simp] theorem setA_engine : (s.setA v).engine = s.engine := rfl
@[simp] theorem setA_assembly : (s.setA v).assembly = s.assembly := rfl
@[simp] theorem setA_phase : (s.setA v).phase = s.phase := rfl
@[simp] theorem setA_params : (s.setA v).params = s.params := rfl

end

section
variable (s : State) (v : Word)

@[simp] theorem setB_a : (s.setB v).a = s.a := rfl
@[simp] theorem setB_b : (s.setB v).b = v := rfl
@[simp] theorem setB_pc : (s.setB v).pc = s.pc := rfl
@[simp] theorem setB_sp : (s.setB v).sp = s.sp := rfl
@[simp] theorem setB_running : (s.setB v).running = s.running := rfl
@[simp] theorem setB_faultReg : (s.setB v).faultReg = s.faultReg := rfl
@[simp] theorem setB_steps : (s.setB v).steps = s.steps := rfl
@[simp] theorem setB_input : (s.setB v).input = s.input := rfl
@[simp] theorem setB_output : (s.setB v).output = s.output := rfl
@[simp] theorem setB_cin : (s.setB v).cin = s.cin := rfl
@[simp] theorem setB_cout : (s.setB v).cout = s.cout := rfl
@[simp] theorem setB_watermark : (s.setB v).watermark = s.watermark := rfl
@[simp] theorem setB_mem : (s.setB v).mem = s.mem := rfl
@[simp] theorem setB_warnings : (s.setB v).warnings = s.warnings := rfl
@[simp] theorem setB_engine : (s.setB v).engine = s.engine := rfl
@[simp] theorem setB_assembly : (s.setB v).assembly = s.assembly := rfl
@[simp] theorem setB_phase : (s.setB v).phase = s.phase := rfl
@[simp] theorem setB_params : (s.setB v).params = s.params := rfl

end

section
variable (s : State) (v : Int)

@[simp] theorem setPc_a : (s.setPc v).a = s.a := rfl
@[simp] theorem setPc_b : (s.setPc v).b = s.b := rfl
@[simp] theorem setPc_pc : (s.setPc v).pc = v := rfl
@[simp] theorem setPc_sp : (s.setPc v).sp = s.sp := rfl
@[simp] theorem setPc_running : (s.setPc v).running = s.running := rfl
@[simp] theorem setPc_faultReg : (s.setPc v).faultReg = s.faultReg := rfl
@[simp] theorem setPc_steps : (s.setPc v).steps = s.steps := rfl
@[simp] theorem setPc_input : (s.setPc v).input = s.input := rfl
@[simp] theorem setPc_output : (s.setPc v).output = s.output := rfl
@[simp] theorem setPc_cin : (s.setPc v).cin = s.cin := rfl
@[simp] theorem setPc_cout : (s.setPc v).cout = s.cout := rfl
@[simp] theorem setPc_watermark : (s.setPc v).watermark = s.watermark := rfl
@[simp] theorem setPc_mem : (s.setPc v).mem = s.mem := rfl
@[simp] theorem setPc_warnings : (s.setPc v).warnings = s.warnings := rfl
@[simp] theorem setPc_engine : (s.setPc v).engine = s.engine := rfl
@[simp] theorem setPc_assembly : (s.setPc v).assembly = s.assembly := rfl
@[simp] theorem setPc_phase : (s.setPc v).phase = s.phase := rfl
@[simp] theorem setPc_params : (s.setPc v).params = s.params := rfl

end

section
variable (s : State) (v : Word)

@[simp] theorem setSp_a : (s.setSp v).a = s.a := rfl
@[simp] theorem setSp_b : (s.setSp v).b = s.b := rfl
@[simp] theorem setSp_pc : (s.setSp v).pc = s.pc := rfl
@[simp] theorem setSp_sp : (s.setSp v).sp = v := rfl
@[simp] theorem setSp_running : (s.setSp v).running = s.running := rfl
@[simp] theorem setSp_faultReg : (s.setSp v).faultReg = s.faultReg := rfl
@[simp] theorem setSp_steps : (s.setSp v).steps = s.steps := rfl
@[simp] theorem setSp_input : (s.setSp v).input = s.input := rfl
@[simp] theorem setSp_output : (s.setSp v).output = s.output := rfl
@[simp] theorem setSp_cin : (s.setSp v).cin = s.cin := rfl
@[simp] theorem setSp_cout : (s.setSp v).cout = s.cout := rfl
@[simp] theorem setSp_watermark : (s.setSp v).watermark = s.watermark := rfl
@[simp] theorem setSp_mem : (s.setSp v).mem = s.mem := rfl
@[simp] theorem setSp_warnings : (s.setSp v).warnings = s.warnings := rfl
@[simp] theorem setSp_engine : (s.setSp v).engine = s.engine := rfl
@[simp] theorem setSp_assembly : (s.setSp v).assembly = s.assembly := rfl
@[simp] theorem setSp_phase : (s.setSp v).phase = s.phase := rfl
@[simp] theorem setSp_params : (s.setSp v).params = s.params := rfl

end

section
variable (s : State) (m : Memory)

@[simp] theorem setMem_a : (s.setMem m).a = s.a := rfl
@[simp] theorem setMem_b : (s.setMem m).b = s.b := rfl
@[simp] theorem setMem_pc : (s.setMem m).pc = s.pc := rfl
@[simp] theorem setMem_sp : (s.setMem m).sp = s.sp := rfl
@[simp] theorem setMem_running : (s.setMem m).running = s.running := rfl
@[simp] theorem setMem_faultReg : (s.setMem m).faultReg = s.faultReg := rfl
@[simp] theorem setMem_steps : (s.setMem m).steps = s.steps := rfl
@[simp] theorem setMem_input : (s.setMem m).input = s.input := rfl
@[simp] theorem setMem_output : (s.setMem m).output = s.output := rfl
@[simp] theorem setMem_cin : (s.setMem m).cin = s.cin := rfl
@[simp] theorem setMem_cout : (s.setMem m).cout = s.cout := rfl
@[simp] theorem setMem_watermark : (s.setMem m).watermark = s.watermark := rfl
@[simp] theorem setMem_mem : (s.setMem m).mem = m := rfl
@[simp] theorem setMem_warnings : (s.setMem m).warnings = s.warnings := rfl
@[simp] theorem setMem_engine : (s.setMem m).engine = s.engine := rfl
@[simp] theorem setMem_assembly : (s.setMem m).assembly = s.assembly := rfl
@[simp] theorem setMem_phase : (s.setMem m).phase = s.phase := rfl
@[simp] theorem setMem_params : (s.setMem m).params = s.params := rfl

end

section
variable (s : State) (l : List Byte)

@[simp] theorem setInput_a : (s.setInput l).a = s.a := rfl
@[simp] theorem setInput_b : (s.setInput l).b = s.b := rfl
@[simp] theorem setInput_pc : (s.setInput l).pc = s.pc := rfl
@[simp] theorem setInput_sp : (s.setInput l).sp = s.sp := rfl
@[simp] theorem setInput_running : (s.setInput l).running = s.running := rfl
@[simp] theorem setInput_faultReg : (s.setInput l).faultReg = s.faultReg := rfl
@[simp] theorem setInput_steps : (s.setInput l).steps = s.steps := rfl
@[simp] theorem setInput_input : (s.setInput l).input = l := rfl
@[simp] theorem setInput_output : (s.setInput l).output = s.output := rfl
@[simp] theorem setInput_cin : (s.setInput l).cin = s.cin := rfl
@[simp] theorem setInput_cout : (s.setInput l).cout = s.cout := rfl
@[simp] theorem setInput_watermark : (s.setInput l).watermark = s.watermark := rfl
@[simp] theorem setInput_mem : (s.setInput l).mem = s.mem := rfl
@[simp] theorem setInput_warnings : (s.setInput l).warnings = s.warnings := rfl
@[simp] theorem setInput_engine : (s.setInput l).engine = s.engine := rfl
@[simp] theorem setInput_assembly : (s.setInput l).assembly = s.assembly := rfl
@[simp] theorem setInput_phase : (s.setInput l).phase = s.phase := rfl
@[simp] theorem setInput_params : (s.setInput l).params = s.params := rfl

end

section
variable (s : State) (v : Word)

@[simp] theorem setCin_a : (s.setCin v).a = s.a := rfl
@[simp] theorem setCin_b : (s.setCin v).b = s.b := rfl
@[simp] theorem setCin_pc : (s.setCin v).pc = s.pc := rfl
@[simp] theorem setCin_sp : (s.setCin v).sp = s.sp := rfl
@[simp] theorem setCin_running : (s.setCin v).running = s.running := rfl
@[simp] theorem setCin_faultReg : (s.setCin v).faultReg = s.faultReg := rfl
@[simp] theorem setCin_steps : (s.setCin v).steps = s.steps := rfl
@[simp] theorem setCin_input : (s.setCin v).input = s.input := rfl
@[simp] theorem setCin_output : (s.setCin v).output = s.output := rfl
@[simp] theorem setCin_cin : (s.setCin v).cin = v := rfl
@[simp] theorem setCin_cout : (s.setCin v).cout = s.cout := rfl
@[simp] theorem setCin_watermark : (s.setCin v).watermark = s.watermark := rfl
@[simp] theorem setCin_mem : (s.setCin v).mem = s.mem := rfl
@[simp] theorem setCin_warnings : (s.setCin v).warnings = s.warnings := rfl
@[simp] theorem setCin_engine : (s.setCin v).engine = s.engine := rfl
@[simp] theorem setCin_assembly : (s.setCin v).assembly = s.assembly := rfl
@[simp] theorem setCin_phase : (s.setCin v).phase = s.phase := rfl
@[simp] theorem setCin_params : (s.setCin v).params = s.params := rfl

end

section
variable (s : State) (v : Word)

@[simp] theorem setCout_a : (s.setCout v).a = s.a := rfl
@[simp] theorem setCout_b : (s.setCout v).b = s.b := rfl
@[simp] theorem setCout_pc : (s.setCout v).pc = s.pc := rfl
@[simp] theorem setCout_sp : (s.setCout v).sp = s.sp := rfl
@[simp] theorem setCout_running : (s.setCout v).running = s.running := rfl
@[simp] theorem setCout_faultReg : (s.setCout v).faultReg = s.faultReg := rfl
@[simp] theorem setCout_steps : (s.setCout v).steps = s.steps := rfl
@[simp] theorem setCout_input : (s.setCout v).input = s.input := rfl
@[simp] theorem setCout_output : (s.setCout v).output = s.output := rfl
@[simp] theorem setCout_cin : (s.setCout v).cin = s.cin := rfl
@[simp] theorem setCout_cout : (s.setCout v).cout = v := rfl
@[simp] theorem setCout_watermark : (s.setCout v).watermark = s.watermark := rfl
@[simp] theorem setCout_mem : (s.setCout v).mem = s.mem := rfl
@[simp] theorem setCout_warnings : (s.setCout v).warnings = s.warnings := rfl
@[simp] theorem setCout_engine : (s.setCout v).engine = s.engine := rfl
@[simp] theorem setCout_assembly : (s.setCout v).assembly = s.assembly := rfl
@[simp] theorem setCout_phase : (s.setCout v).phase = s.phase := rfl
@[simp] theorem setCout_params : (s.setCout v).params = s.params := rfl

end

section
variable (s : State) (w : Int)

@[simp] theorem setWatermark_a : (s.setWatermark w).a = s.a := rfl
@[simp] theorem setWatermark_b : (s.setWatermark w).b = s.b := rfl
@[simp] theorem setWatermark_pc : (s.setWatermark w).pc = s.pc := rfl
@[simp] theorem setWatermark_sp : (s.setWatermark w).sp = s.sp := rfl
@[simp] theorem setWatermark_running : (s.setWatermark w).running = s.running := rfl
@[simp] theorem setWatermark_faultReg : (s.setWatermark w).faultReg = s.faultReg := rfl
@[simp] theorem setWatermark_steps : (s.setWatermark w).steps = s.steps := rfl
@[simp] theorem setWatermark_input : (s.setWatermark w).input = s.input := rfl
@[simp] theorem setWatermark_output : (s.setWatermark w).output = s.output := rfl
@[simp] theorem setWatermark_cin : (s.setWatermark w).cin = s.cin := rfl
@[simp] theorem setWatermark_cout : (s.setWatermark w).cout = s.cout := rfl
@[simp] theorem setWatermark_watermark : (s.setWatermark w).watermark = w := rfl
@[simp] theorem setWatermark_mem : (s.setWatermark w).mem = s.mem := rfl
@[simp] theorem setWatermark_warnings : (s.setWatermark w).warnings = s.warnings := rfl
@[simp] theorem setWatermark_engine : (s.setWatermark w).engine = s.engine := rfl
@[simp] theorem setWatermark_assembly : (s.setWatermark w).assembly = s.assembly := rfl
@[simp] theorem setWatermark_phase : (s.setWatermark w).phase = s.phase := rfl
@[simp] theorem setWatermark_params : (s.setWatermark w).params = s.params := rfl

end

section
variable (s : State)

@[simp] theorem halt_a : (s.halt).a = s.a := rfl
@[simp] theorem halt_b : (s.halt).b = s.b := rfl
@[simp] theorem halt_pc : (s.halt).pc = s.pc := rfl
@[simp] theorem halt_sp : (s.halt).sp = s.sp := rfl
@[simp] theorem halt_running : (s.halt).running = false := rfl
@[simp] theorem halt_faultReg : (s.halt).faultReg = s.faultReg := rfl
@[simp] theorem halt_steps : (s.halt).steps = s.steps := rfl
@[simp] theorem halt_input : (s.halt).input = s.input := rfl
@[simp] theorem halt_output : (s.halt).output = s.output := rfl
@[simp] theorem halt_cin : (s.halt).cin = s.cin := rfl
@[simp] theorem halt_cout : (s.halt).cout = s.cout := rfl
@[simp] theorem halt_watermark : (s.halt).watermark = s.watermark := rfl
@[simp] theorem halt_mem : (s.halt).mem = s.mem := rfl
@[simp] theorem halt_warnings : (s.halt).warnings = s.warnings := rfl
@[simp] theorem halt_engine : (s.halt).engine = s.engine := rfl
@[simp] theorem halt_assembly : (s.halt).assembly = s.assembly := rfl
@[simp] theorem halt_phase : (s.halt).phase = s.phase := rfl
@[simp] theorem halt_params : (s.halt).params = s.params := rfl

end

section
variable (s : State) (v : Word) (ipc : Int)

@[simp] theorem warn_a : (s.warn v ipc).a = s.a := rfl
@[simp] theorem warn_b : (s.warn v ipc).b = s.b := rfl
@[simp] theorem warn_pc : (s.warn v ipc).pc = s.pc := rfl
@[simp] theorem warn_sp : (s.warn v ipc).sp = s.sp := rfl
@[simp] theorem warn_running : (s.warn v ipc).running = s.running := rfl
@[simp] theorem warn_faultReg : (s.warn v ipc).faultReg = s.faultReg := rfl
@[simp] theorem warn_steps : (s.warn v ipc).steps = s.steps := rfl
@[simp] theorem warn_input : (s.warn v ipc).input = s.input := rfl
@[simp] theorem warn_output : (s.warn v ipc).output = s.output := rfl
@[simp] theorem warn_cin : (s.warn v ipc).cin = s.cin := rfl
@[simp] theorem warn_cout : (s.warn v ipc).cout = s.cout := rfl
@[simp] theorem warn_watermark : (s.warn v ipc).watermark = s.watermark := rfl
@[simp] theorem warn_mem : (s.warn v ipc).mem = s.mem := rfl
@[simp] theorem warn_warnings : (s.warn v ipc).warnings = s.warnings ++ [⟨v, ipc⟩] := rfl
@[simp] theorem warn_engine : (s.warn v ipc).engine = s.engine := rfl
@[simp] theorem warn_assembly : (s.warn v ipc).assembly = s.assembly := rfl
@[simp] theorem warn_phase : (s.warn v ipc).phase = s.phase := rfl
@[simp] theorem warn_params : (s.warn v ipc).params = s.params := rfl

end

section
variable (s : State)

@[simp] theorem countStep_a : (s.countStep).a = s.a := rfl
@[simp] theorem countStep_b : (s.countStep).b = s.b := rfl
@[simp] theorem countStep_pc : (s.countStep).pc = s.pc := rfl
@[simp] theorem countStep_sp : (s.countStep).sp = s.sp := rfl
@[simp] theorem countStep_running : (s.countStep).running = s.running := rfl
@[simp] theorem countStep_faultReg : (s.countStep).faultReg = s.faultReg := rfl
@[simp] theorem countStep_steps : (s.countStep).steps = s.steps + 1 := rfl
@[simp] theorem countStep_input : (s.countStep).input = s.input := rfl
@[simp] theorem countStep_output : (s.countStep).output = s.output := rfl
@[simp] theorem countStep_cin : (s.countStep).cin = s.cin := rfl
@[simp] theorem countStep_cout : (s.countStep).cout = s.cout := rfl
@[simp] theorem countStep_watermark : (s.countStep).watermark = s.watermark := rfl
@[simp] theorem countStep_mem : (s.countStep).mem = s.mem := rfl
@[simp] theorem countStep_warnings : (s.countStep).warnings = s.warnings := rfl
@[simp] theorem countStep_engine : (s.countStep).engine = s.engine := rfl
@[simp] theorem countStep_assembly : (s.countStep).assembly = s.assembly := rfl
@[simp] theorem countStep_phase : (s.countStep).phase = s.phase := rfl
@[simp] theorem countStep_params : (s.countStep).params = s.params := rfl

end

section
variable (s : State) (n : Nat)

@[simp] theorem past_a : (s.past n).a = s.a := rfl
@[simp] theorem past_b : (s.past n).b = s.b := rfl
@[simp] theorem past_pc : (s.past n).pc = s.pc + n := rfl
@[simp] theorem past_sp : (s.past n).sp = s.sp := rfl
@[simp] theorem past_running : (s.past n).running = s.running := rfl
@[simp] theorem past_faultReg : (s.past n).faultReg = s.faultReg := rfl
@[simp] theorem past_steps : (s.past n).steps = s.steps := rfl
@[simp] theorem past_input : (s.past n).input = s.input := rfl
@[simp] theorem past_output : (s.past n).output = s.output := rfl
@[simp] theorem past_cin : (s.past n).cin = s.cin := rfl
@[simp] theorem past_cout : (s.past n).cout = s.cout := rfl
@[simp] theorem past_watermark : (s.past n).watermark = s.watermark := rfl
@[simp] theorem past_mem : (s.past n).mem = s.mem := rfl
@[simp] theorem past_warnings : (s.past n).warnings = s.warnings := rfl
@[simp] theorem past_engine : (s.past n).engine = s.engine := rfl
@[simp] theorem past_assembly : (s.past n).assembly = s.assembly := rfl
@[simp] theorem past_phase : (s.past n).phase = s.phase := rfl
@[simp] theorem past_params : (s.past n).params = s.params := rfl

end

section
variable (s : State) (c : FaultCause)

@[simp] theorem takeFault_a : (takeFault s c).a = s.a := rfl
@[simp] theorem takeFault_b : (takeFault s c).b = s.b := rfl
@[simp] theorem takeFault_pc : (takeFault s c).pc = s.pc := rfl
@[simp] theorem takeFault_sp : (takeFault s c).sp = s.sp := rfl
@[simp] theorem takeFault_running : (takeFault s c).running = s.running := rfl
@[simp] theorem takeFault_faultReg : (takeFault s c).faultReg = some ⟨c, some s.pc⟩ := rfl
@[simp] theorem takeFault_steps : (takeFault s c).steps = s.steps := rfl
@[simp] theorem takeFault_input : (takeFault s c).input = s.input := rfl
@[simp] theorem takeFault_output : (takeFault s c).output = s.output := rfl
@[simp] theorem takeFault_cin : (takeFault s c).cin = s.cin := rfl
@[simp] theorem takeFault_cout : (takeFault s c).cout = s.cout := rfl
@[simp] theorem takeFault_watermark : (takeFault s c).watermark = s.watermark := rfl
@[simp] theorem takeFault_mem : (takeFault s c).mem = s.mem := rfl
@[simp] theorem takeFault_warnings : (takeFault s c).warnings = s.warnings := rfl
@[simp] theorem takeFault_engine : (takeFault s c).engine = s.engine := rfl
@[simp] theorem takeFault_assembly : (takeFault s c).assembly = s.assembly := rfl
@[simp] theorem takeFault_phase : (takeFault s c).phase = s.phase := rfl
@[simp] theorem takeFault_params : (takeFault s c).params = s.params := rfl

end

/-! `out` appends to the output buffer or does nothing (R281). -/

section
variable (s : State) (l : List Byte)

@[simp] theorem out_output :
    (s.out l).output = if s.cout = s.params.printHandle then s.output ++ l else s.output := by
  unfold State.out; split <;> rfl
@[simp] theorem out_a : (s.out l).a = s.a := by unfold State.out; split <;> rfl
@[simp] theorem out_b : (s.out l).b = s.b := by unfold State.out; split <;> rfl
@[simp] theorem out_pc : (s.out l).pc = s.pc := by unfold State.out; split <;> rfl
@[simp] theorem out_sp : (s.out l).sp = s.sp := by unfold State.out; split <;> rfl
@[simp] theorem out_running : (s.out l).running = s.running := by unfold State.out; split <;> rfl
@[simp] theorem out_faultReg : (s.out l).faultReg = s.faultReg := by unfold State.out; split <;> rfl
@[simp] theorem out_steps : (s.out l).steps = s.steps := by unfold State.out; split <;> rfl
@[simp] theorem out_input : (s.out l).input = s.input := by unfold State.out; split <;> rfl
@[simp] theorem out_cin : (s.out l).cin = s.cin := by unfold State.out; split <;> rfl
@[simp] theorem out_cout : (s.out l).cout = s.cout := by unfold State.out; split <;> rfl
@[simp] theorem out_watermark : (s.out l).watermark = s.watermark := by unfold State.out; split <;> rfl
@[simp] theorem out_mem : (s.out l).mem = s.mem := by unfold State.out; split <;> rfl
@[simp] theorem out_warnings : (s.out l).warnings = s.warnings := by unfold State.out; split <;> rfl
@[simp] theorem out_engine : (s.out l).engine = s.engine := by unfold State.out; split <;> rfl
@[simp] theorem out_assembly : (s.out l).assembly = s.assembly := by unfold State.out; split <;> rfl
@[simp] theorem out_phase : (s.out l).phase = s.phase := by unfold State.out; split <;> rfl
@[simp] theorem out_params : (s.out l).params = s.params := by unfold State.out; split <;> rfl

end

end Sys2Proof.Machine
end

