-- ==== Sys2Proof/Laws/Ops.lean ====
section
/-! SUPPORT. One lemma per shared operation: what it answers, and when. Later proofs cite these instead of unfolding. -/

namespace Sys2Proof.Machine

/-! ## Results that may fail -/

@[simp] theorem bind_ok_iff {α β : Type} {x : Except FaultCause α} {f : α → Except FaultCause β} {r : β} :
    x >>= f = .ok r ↔ ∃ v, x = .ok v ∧ f v = .ok r := by
  cases x <;> simp [bind, Except.bind]

theorem bind_error_iff {α β : Type} {x : Except FaultCause α} {f : α → Except FaultCause β} {c : FaultCause} :
    x >>= f = .error c ↔ x = .error c ∨ ∃ v, x = .ok v ∧ f v = .error c := by
  cases x <;> simp [bind, Except.bind]

@[simp] theorem pure_eq_ok {α : Type} (v : α) : (pure v : Except FaultCause α) = .ok v := rfl

/-! ## Memory access -/

theorem inBounds_iff {s : State} {addr : Int} : s.inBounds addr = true ↔ 0 ≤ addr ∧ addr < s.params.memSize := by
  simp [State.inBounds]

/-- A read answers the Word at an address in bounds, and faults outside (R12). -/
theorem memReadAs_eq (s : State) (k : AccessKind) (addr : Int) :
    memReadAs s k addr =
      if s.inBounds addr then .ok (readWord s.mem addr.toNat) else .error (.memoryFault addr k) := by
  unfold memReadAs checkAddr; cases s.inBounds addr <;> rfl

theorem memRead_eq (s : State) (addr : Int) :
    memRead s addr =
      if s.inBounds addr then .ok (readWord s.mem addr.toNat) else .error (.memoryFault addr .read) :=
  memReadAs_eq s .read addr

theorem memRead_ok_iff {s : State} {addr : Int} {v : Word} :
    memRead s addr = .ok v ↔ s.inBounds addr ∧ v = readWord s.mem addr.toNat := by
  rw [memRead_eq]; cases s.inBounds addr <;> simp [eq_comm]

theorem memRead_error_iff {s : State} {addr : Int} {c : FaultCause} :
    memRead s addr = .error c ↔ ¬ s.inBounds addr ∧ c = .memoryFault addr .read := by
  rw [memRead_eq]; cases s.inBounds addr <;> simp [eq_comm]

/-- A write replaces the Word at an address in bounds, and faults outside (R12). -/
theorem memWrite_eq (s : State) (addr : Int) (v : Word) :
    memWrite s addr v =
      if s.inBounds addr then .ok (s.setMem (writeWord s.mem addr.toNat v))
      else .error (.memoryFault addr .write) := by
  unfold memWrite checkAddr; cases s.inBounds addr <;> rfl

theorem memWrite_ok_iff {s t : State} {addr : Int} {v : Word} :
    memWrite s addr v = .ok t ↔ s.inBounds addr ∧ t = s.setMem (writeWord s.mem addr.toNat v) := by
  rw [memWrite_eq]; cases s.inBounds addr <;> simp [eq_comm]

theorem memWrite_error_iff {s : State} {addr : Int} {v : Word} {c : FaultCause} :
    memWrite s addr v = .error c ↔ ¬ s.inBounds addr ∧ c = .memoryFault addr .write := by
  rw [memWrite_eq]; cases s.inBounds addr <;> simp [eq_comm]

/-- A read in bounds. -/
theorem memRead_ok {s : State} {addr : Int} (h : s.inBounds addr = true) :
    memRead s addr = .ok (readWord s.mem addr.toNat) := by rw [memRead_eq, if_pos h]

/-- A read outside memory. -/
theorem memRead_fault {s : State} {addr : Int} (h : ¬ s.inBounds addr = true) :
    memRead s addr = .error (.memoryFault addr .read) := by rw [memRead_eq, if_neg h]

/-- A write in bounds. -/
theorem memWrite_ok {s : State} {addr : Int} {v : Word} (h : s.inBounds addr = true) :
    memWrite s addr v = .ok (s.setMem (writeWord s.mem addr.toNat v)) := by rw [memWrite_eq, if_pos h]

/-- A write outside memory. -/
theorem memWrite_fault {s : State} {addr : Int} {v : Word} (h : ¬ s.inBounds addr = true) :
    memWrite s addr v = .error (.memoryFault addr .write) := by rw [memWrite_eq, if_neg h]

theorem getByte_ok_iff {s : State} {addr off : Int} {x : Byte} :
    getByte s addr off = .ok x ↔
      s.inBounds (laneAddr addr off) ∧
        x = BitVec.ofNat 8 (bits16 (readWord s.mem (laneAddr addr off).toNat) >>> (8 * laneIndex off)) := by
  unfold getByte
  rw [memRead_eq]
  cases s.inBounds (laneAddr addr off) <;> simp [eq_comm]

/-- A byte read answers its lane of the Word at `addr + off / 2`, and faults where that word is outside memory (R56). -/
theorem getByte_eq (s : State) (addr off : Int) :
    getByte s addr off =
      if s.inBounds (addr + off / 2) then
        .ok (BitVec.ofNat 8 ((readWord s.mem (addr + off / 2).toNat).toNat / 256 ^ (off % 2).toNat))
      else .error (.memoryFault (addr + off / 2) .read) := by
  unfold getByte laneAddr laneIndex bits16
  rw [memRead_eq, Int.fdiv_eq_ediv_of_nonneg _ (by omega)]
  cases s.inBounds (addr + off / 2)
  · rfl
  · simp only [if_true, Nat.shiftRight_eq_div_pow, pow_mul]; rfl

theorem setByte_ok_iff {s t : State} {addr off : Int} {v : Byte} :
    setByte s addr off v = .ok t ↔
      s.inBounds (laneAddr addr off) ∧
        t = s.setMem (writeWord s.mem (laneAddr addr off).toNat
          (mergeLane (readWord s.mem (laneAddr addr off).toNat) (laneIndex off) v)) := by
  unfold setByte
  rw [memRead_eq]
  cases h : s.inBounds (laneAddr addr off) <;> simp [memWrite_eq, h, eq_comm]

theorem argument_ok_iff {t : State} {frame : Int} {i : Nat} {v : Word} :
    argument t frame i = .ok v ↔
      t.inBounds (frame + 2 + i) ∧ v = readWord t.mem (frame + 2 + i).toNat := memRead_ok_iff

/-- An argument outside memory faults (R261). -/
theorem argument_error_iff {t : State} {frame : Int} {i : Nat} {c : FaultCause} :
    argument t frame i = .error c ↔ ¬ t.inBounds (frame + 2 + i) ∧ c = .memoryFault (frame + 2 + i) .read :=
  memRead_error_iff

/-! ## Strings (R270) -/

/-- Reading a run of bytes answers them all. -/
theorem bytesFrom_ok_iff {t : State} {addr : Int} {n : Nat} {off : Int} {l : List Byte} :
    bytesFrom t addr n off = .ok l ↔
      l.length = n ∧ ∀ i (h : i < l.length), getByte t addr (off + i) = .ok l[i] := by
  induction n generalizing off l with
  | zero =>
    cases l <;> simp [bytesFrom]
  | succ n ih =>
    simp only [bytesFrom, bind_ok_iff, ih, pure_eq_ok, Except.ok.injEq]
    constructor
    · rintro ⟨x, hx, rest, ⟨rfl, hr⟩, rfl⟩
      refine ⟨rfl, fun i hi => ?_⟩
      cases i with
      | zero => simpa using hx
      | succ i => simpa [Int.add_assoc, Int.add_comm 1] using hr i (by simpa using hi)
    · rintro ⟨hl, h⟩
      cases l with
      | nil => simp at hl
      | cons x rest =>
        refine ⟨x, ?_, rest, ⟨by simpa using hl, fun i hi => ?_⟩, rfl⟩
        · rw [← Int.add_zero off]; exact h 0 (by simp)
        · rw [Int.add_assoc, Int.add_comm 1]; exact h (i + 1) (by simpa using hi)

/-- Reading a run of bytes faults at the first byte that does. -/
theorem bytesFrom_error {t : State} {addr : Int} {n i : Nat} {off : Int} {c : FaultCause} (hi : i < n)
    (hok : ∀ j < i, ∃ x, getByte t addr (off + (j : Nat)) = .ok x) (h : getByte t addr (off + i) = .error c) :
    bytesFrom t addr n off = .error c := by
  induction n generalizing off i with
  | zero => omega
  | succ n ih =>
    rw [bytesFrom, bind_error_iff]
    cases i with
    | zero => left; simpa using h
    | succ i =>
      obtain ⟨x, hx⟩ := hok 0 (by omega)
      refine .inr ⟨x, by simpa using hx, ?_⟩
      rw [bind_error_iff]
      refine .inl (ih (i := i) (by omega) (fun j hj => ?_) ?_)
      · simpa [Int.add_assoc, Int.add_comm 1] using hok (j + 1) (by omega)
      · simpa [Int.add_assoc, Int.add_comm 1] using h

/-! ## Truth values -/

theorem testsTrue_iff {v : Word} : testsTrue v = true ↔ v ≠ 0 := bne_iff_ne

theorem testsFalse_iff {v : Word} : testsFalse v = true ↔ v = 0 := beq_iff_eq

/-! ## Operands -/

/-- The resolved operand (R167). -/
theorem resolve_eq (o : Operand) (s : State) :
    resolve o s =
      if o.indirect then
        if s.inBounds (operandSum o s) then .ok (readWord s.mem (operandSum o s).toNat).toInt
        else .error (.memoryFault (operandSum o s) .read)
      else .ok (operandSum o s) := by
  unfold resolve
  rw [memRead_eq]
  cases s.inBounds (operandSum o s) <;> rfl

/-! ## The end of an instruction -/

/-- An instruction ends in the state its body gives, or in the state before it with the fault taken; it never stops. -/
theorem commit_cases (s : State) (r : Except FaultCause State) :
    (∃ t, r = .ok t ∧ commit s r = .next t) ∨ (∃ c, r = .error c ∧ commit s r = .next (takeFault s c)) := by
  cases r
  · exact .inr ⟨_, rfl, rfl⟩
  · exact .inl ⟨_, rfl, rfl⟩

@[simp] theorem commit_ok (s t : State) : commit s (.ok t) = .next t := rfl

@[simp] theorem commit_error (s : State) (c : FaultCause) : commit s (.error c) = .next (takeFault s c) := rfl

theorem commit_next {s t : State} {r : Except FaultCause State} (h : commit s r = .next t) :
    r = .ok t ∨ ∃ c, r = .error c ∧ t = takeFault s c := by
  cases r with
  | ok u => injection h with h; exact .inl (by rw [h])
  | error c => injection h with h; exact .inr ⟨c, rfl, h.symm⟩

/-- An instruction with an operand completes on the resolved operand, or takes the fault of resolving it or of its body. -/
theorem withOperand_next {o : Operand} {s t : State} {body : Int → State → Except FaultCause State}
    (h : withOperand o s body = .next t) :
    (∃ d, resolve o s = .ok d ∧ body d (s.past o.words) = .ok t) ∨
      (∃ c, t = takeFault s c ∧
        (resolve o s = .error c ∨ ∃ d, resolve o s = .ok d ∧ body d (s.past o.words) = .error c)) := by
  unfold withOperand at h
  cases hr : resolve o s with
  | error c =>
    rw [hr] at h; injection h with h
    exact .inr ⟨c, h.symm, .inl rfl⟩
  | ok d =>
    rw [hr] at h
    replace h : commit s (body d (s.past o.words)) = .next t := h
    rcases commit_next h with h' | ⟨c, h', ht⟩
    · exact .inl ⟨d, rfl, h'⟩
    · exact .inr ⟨c, ht, .inr ⟨d, rfl, h'⟩⟩

theorem withOperand_ok {o : Operand} {s : State} {body : Int → State → Except FaultCause State} {d : Int}
    (h : resolve o s = .ok d) : withOperand o s body = commit s (body d (s.past o.words)) := by
  simp only [withOperand, h]

theorem withOperand_error {o : Operand} {s : State} {body : Int → State → Except FaultCause State} {c : FaultCause}
    (h : resolve o s = .error c) : withOperand o s body = .next (takeFault s c) := by
  simp only [withOperand, h, commit_error]

/-- What `retire` adds to an instruction that answered a next state (R161). -/
theorem retire_next (t : State) :
    retire (.next t) = .next (if t.faultReg.isNone then t.countStep else t) := by
  simp only [retire]; split <;> rfl

/-! ## The call-frame controller -/

/-- A user call that completes wrote its two frame words (R202). -/
theorem userCall_ok_iff {frame : Int} {t u : State} :
    userCall frame t = .ok u ↔
      t.inBounds frame ∧ t.inBounds (frame + 1) ∧
        u = ((t.setMem (writeWord (writeWord t.mem frame.toNat t.sp) (frame + 1).toNat (wrap16 t.pc))).setSp
          (wrap16 frame)).setPc t.a.toInt := by
  simp only [userCall, bind_ok_iff, memWrite_ok_iff, pure_eq_ok, Except.ok.injEq]
  constructor
  · rintro ⟨_, ⟨h1, rfl⟩, _, ⟨h2, rfl⟩, rfl⟩
    exact ⟨h1, h2, rfl⟩
  · rintro ⟨h1, h2, rfl⟩
    exact ⟨_, ⟨h1, rfl⟩, _, ⟨h2, rfl⟩, rfl⟩

/-- A Return that completes read both frame words through the old `sp` (R203). -/
theorem opReturn_ok_iff {t u : State} :
    opReturn t = .ok u ↔
      t.inBounds (t.sp.toInt + 1) ∧ t.inBounds t.sp.toInt ∧
        u = (t.setPc (readWord t.mem (t.sp.toInt + 1).toNat).toInt).setSp (readWord t.mem t.sp.toInt.toNat) := by
  simp only [opReturn, bind_ok_iff, memRead_ok_iff, pure_eq_ok, Except.ok.injEq]
  constructor
  · rintro ⟨_, ⟨h1, rfl⟩, _, ⟨h2, rfl⟩, rfl⟩
    exact ⟨h1, h2, rfl⟩
  · rintro ⟨h1, h2, rfl⟩
    exact ⟨_, ⟨h1, rfl⟩, _, ⟨h2, rfl⟩, rfl⟩

/-! ## The system-call port -/

/-- The call of a number has that number. -/
theorem sysNameOf_some {nums : SysNums} {callno : Word} {n : SysName} (h : sysNameOf nums callno = some n) :
    nums.num n = callno := by
  simpa using List.find?_some h

theorem mem_sysName_all (n : SysName) : n ∈ SysName.all := by cases n <;> decide

/-- A number that no name has is no call. -/
theorem sysNameOf_none_iff {nums : SysNums} {callno : Word} :
    sysNameOf nums callno = none ↔ ∀ n, nums.num n ≠ callno := by
  simp [sysNameOf, mem_sysName_all]

/-- With legal parameters the call of a name's number is that name (R284). -/
theorem sysNameOf_num {p : Params} (hp : p.Valid) (n : SysName) :
    sysNameOf p.sysNums (p.sysNums.num n) = some n := by
  cases h : sysNameOf p.sysNums (p.sysNums.num n) with
  | none => exact absurd rfl (sysNameOf_none_iff.1 h n)
  | some m =>
    have := sysNameOf_some h
    rw [List.inj_on_of_nodup_map hp.sysNum_nodup (mem_sysName_all m) (mem_sysName_all n) this]

/-! ## Operators by number -/

theorem operatorOfNumber_number (op : Operator) : operatorOfNumber (operatorNumber op) = some op := by
  cases op <;> rfl

/-- A number has an operator exactly in 1..23 (R88). -/
theorem operatorOfNumber_none_iff {k : Nat} : operatorOfNumber k = none ↔ k = 0 ∨ 24 ≤ k := by
  unfold operatorOfNumber
  split
  all_goals simp_all
  omega

theorem operatorOfNumber_some {k : Nat} {op : Operator} (h : operatorOfNumber k = some op) :
    operatorNumber op = k := by
  unfold operatorOfNumber at h
  split at h <;> simp at h
  all_goals subst h; rfl

end Sys2Proof.Machine
end

