-- ==== Sys2Proof/Laws/Frames.lean ====
section
/-! SUPPORT. What no completing body of an instruction changes, once for every shared operation: `b`, the status that only
a step writes, the engine and the parameters stay; memory keeps its form; the buffers and the log only move forward. -/

namespace Sys2Proof.Machine

/-- `u` may follow `t` by the effects of one instruction body, Load's write of `b` apart. -/
structure Completes (t u : State) : Prop where
  b : u.b = t.b
  steps : u.steps = t.steps
  faultReg : u.faultReg = t.faultReg
  engine : u.engine = t.engine
  assembly : u.assembly = t.assembly
  phase : u.phase = t.phase
  params : u.params = t.params
  running : u.running = true → t.running = true
  mem_wf : t.mem.wf → u.mem.wf
  mem_within : t.mem.within t.params.memSize → u.mem.within u.params.memSize
  input : u.input <:+ t.input
  output : t.output <+: u.output
  warnings : t.warnings <+: u.warnings

namespace Completes

theorem refl (t : State) : Completes t t where
  b := rfl
  steps := rfl
  faultReg := rfl
  engine := rfl
  assembly := rfl
  phase := rfl
  params := rfl
  running := id
  mem_wf := id
  mem_within := id
  input := List.suffix_refl _
  output := List.prefix_refl _
  warnings := List.prefix_refl _

theorem trans {t u v : State} (h : Completes t u) (k : Completes u v) : Completes t v where
  b := k.b.trans h.b
  steps := k.steps.trans h.steps
  faultReg := k.faultReg.trans h.faultReg
  engine := k.engine.trans h.engine
  assembly := k.assembly.trans h.assembly
  phase := k.phase.trans h.phase
  params := k.params.trans h.params
  running := h.running ∘ k.running
  mem_wf := k.mem_wf ∘ h.mem_wf
  mem_within := k.mem_within ∘ h.mem_within
  input := k.input.trans h.input
  output := h.output.trans k.output
  warnings := h.warnings.trans k.warnings

theorem setA (t : State) (v : Word) : Completes t (t.setA v) := { refl t with }
theorem setPc (t : State) (v : Int) : Completes t (t.setPc v) := { refl t with }
theorem setSp (t : State) (v : Word) : Completes t (t.setSp v) := { refl t with }
theorem setCin (t : State) (v : Word) : Completes t (t.setCin v) := { refl t with }
theorem setCout (t : State) (v : Word) : Completes t (t.setCout v) := { refl t with }
theorem setWatermark (t : State) (v : Int) : Completes t (t.setWatermark v) := { refl t with }

theorem halt (t : State) : Completes t t.halt :=
  { refl t with running := fun h => by simp at h }

theorem setInput (t : State) {l : List Byte} (h : l <:+ t.input) : Completes t (t.setInput l) :=
  { refl t with input := h }

theorem warn (t : State) (v : Word) (ipc : Int) : Completes t (t.warn v ipc) :=
  { refl t with warnings := List.prefix_append _ _ }

theorem out (t : State) (l : List Byte) : Completes t (t.out l) := by
  unfold State.out
  split
  · exact { refl t with output := List.prefix_append _ _ }
  · exact refl t

theorem store {t : State} {addr : Int} (h : t.inBounds addr) (v : Word) :
    Completes t (t.setMem (writeWord t.mem addr.toNat v)) :=
  { refl t with
    mem_wf := fun hw => writeWord_wf hw _ _
    mem_within := fun hw => writeWord_within hw (by have := inBounds_iff.1 h; omega) _ }

end Completes

theorem memWrite_completes {t u : State} {addr : Int} {v : Word} (h : memWrite t addr v = .ok u) :
    Completes t u := by
  obtain ⟨hb, rfl⟩ := memWrite_ok_iff.1 h
  exact .store hb v

theorem userCall_completes {frame : Int} {t u : State} (h : userCall frame t = .ok u) : Completes t u := by
  simp only [userCall, bind_ok_iff, pure_eq_ok, Except.ok.injEq] at h
  obtain ⟨t1, h1, t2, h2, rfl⟩ := h
  exact (memWrite_completes h1).trans ((memWrite_completes h2).trans ((Completes.setSp _ _).trans (.setPc _ _)))

theorem takeDecimal_suffix (l : List Byte) (v : Nat) : (takeDecimal l v).2 <:+ l := by
  induction l generalizing v with
  | nil => exact List.suffix_refl _
  | cons x l ih =>
    unfold takeDecimal
    split
    · exact (ih _).trans (List.suffix_cons x l)
    · exact List.suffix_refl _

theorem parseNumber_suffix (l : List Byte) : (parseNumber l).2 <:+ l := by
  unfold parseNumber
  split
  · exact (takeDecimal_suffix _ _).trans (List.suffix_cons _ _)
  · exact takeDecimal_suffix _ _

/-- What a system call that completes leaves alone (R261 to R280). -/
theorem runSyscall_completes {n : SysName} {frame : Int} {t u : State} (h : runSyscall n frame t = .ok u) :
    Completes t u := by
  cases n <;> simp only [runSyscall, sysSelectInput, sysSelectOutput, sysWriteChar, sysStop, sysLevel, sysLongJump,
    sysFindOutput, sysFindInput, sysWriteString, sysWriteNumber, sysWriteDecimalPadded, sysReadNumber, sysWriteHex,
    sysWriteFormatted, sysWriteOctal, sysGetByte, sysPutByte, sysGetVector, sysFreeVector, sysMakeClosure,
    bind_ok_iff, pure_eq_ok, Except.ok.injEq] at h
  case selectInput => obtain ⟨_, -, rfl⟩ := h; exact .setCin _ _
  case selectOutput => obtain ⟨_, -, rfl⟩ := h; exact .setCout _ _
  case readChar =>
    unfold sysReadChar at h
    split at h <;> injection h with h <;> subst h
    · exact .setA _ _
    · rename_i hin
      exact (Completes.setA _ _).trans (.setInput _ (by rw [setA_input, hin]; exact List.suffix_cons _ _))
  case stop => obtain ⟨_, -, rfl⟩ := h; exact (Completes.setA _ _).trans (.halt _)
  case level | findOutput | findInput => subst h; exact .setA _ _
  case longJump => obtain ⟨_, -, _, -, rfl⟩ := h; exact (Completes.setSp _ _).trans (.setPc _ _)
  case makeClosure =>
    obtain ⟨_, -, _, -, _, h1, _, h2, _, h3, _, h4, rfl⟩ := h
    exact (memWrite_completes h1).trans ((memWrite_completes h2).trans ((memWrite_completes h3).trans
      ((memWrite_completes h4).trans ((Completes.setSp _ _).trans (.setPc _ _)))))
  case writeChar | writeNumber => obtain ⟨_, -, rfl⟩ := h; exact .out _ _
  case writeString | writeDecimalPadded | writeHex | writeOctal =>
    obtain ⟨_, -, _, -, rfl⟩ := h; exact .out _ _
  case writeFormatted => obtain ⟨_, -, _, -, _, -, rfl⟩ := h; exact .out _ _
  case readNumber =>
    subst h
    exact (Completes.setA _ _).trans (.setInput _ (parseNumber_suffix _))
  case getByte => obtain ⟨_, -, _, -, _, -, rfl⟩ := h; exact .setA _ _
  case putByte =>
    obtain ⟨_, -, _, -, _, -, h⟩ := h
    obtain ⟨hb, rfl⟩ := setByte_ok_iff.1 h
    exact .store hb _
  case getVector => obtain ⟨_, -, rfl⟩ := h; exact (Completes.setWatermark _ _).trans (.setA _ _)
  case freeVector => subst h; exact .refl _

/-- What the system-call port leaves alone (R260, R262). -/
theorem syscall_completes {ipc frame : Int} {t u : State} (h : syscall ipc frame t = .ok u) : Completes t u := by
  unfold syscall at h
  split at h
  · exact runSyscall_completes h
  · injection h with h; subst h; exact .warn _ _ _

/-- What an operator that completes leaves alone (R203, R221 to R243). -/
theorem runOperator_completes {op : Operator} {t u : State} (h : runOperator op t = .ok u) : Completes t u := by
  cases op
  case indirection =>
    simp only [runOperator, opIndirection, bind_ok_iff, pure_eq_ok, Except.ok.injEq] at h
    obtain ⟨_, -, rfl⟩ := h
    exact .setA _ _
  case ret =>
    obtain ⟨-, -, rfl⟩ := opReturn_ok_iff.1 h
    exact (Completes.setPc _ _).trans (.setSp _ _)
  case switch =>
    simp only [runOperator, opSwitch, bind_ok_iff, pure_eq_ok, Except.ok.injEq] at h
    obtain ⟨_, -, _, -, _, -, rfl⟩ := h
    exact .setPc _ _
  case finish => injection h with h; subst h; exact .halt _
  all_goals injection h with h; subst h; exact .setA _ _

/-- An X that completes runs an operator (R220). -/
theorem executeNumber_ok {d : Int} {t u : State} (h : executeNumber d t = .ok u) :
    ∃ op, (operatorNumber op : Int) = d ∧ runOperator op t = .ok u := by
  unfold executeNumber at h
  split at h
  · cases h
  · split at h
    · rename_i hd op hop
      exact ⟨op, by rw [operatorOfNumber_some hop]; omega, h⟩
    · cases h

end Sys2Proof.Machine
end

