-- ==== Sys2Proof/Laws/Exec.lean ====
section
/-! SUPPORT. `exec` of each instruction as the shared operation it runs, and what any instruction can do. -/

namespace Sys2Proof.Machine

section
variable (o : Operand) (s : State)

theorem exec_load : exec (.load o) s = withOperand o s fun d t => .ok ((t.setB t.a).setA (wrap16 d)) := rfl
theorem exec_store : exec (.store o) s = withOperand o s fun d t => memWrite t d t.a := rfl
theorem exec_add : exec (.add o) s = withOperand o s fun d t => .ok (t.setA (wrap16 (t.a.toInt + d))) := rfl
theorem exec_jump : exec (.jump o) s = withOperand o s fun d t => .ok (t.setPc d) := rfl
theorem exec_testTrue :
    exec (.testTrue o) s = withOperand o s fun d t => .ok (if testsTrue t.a then t.setPc d else t) := rfl
theorem exec_testFalse :
    exec (.testFalse o) s = withOperand o s fun d t => .ok (if testsFalse t.a then t.setPc d else t) := rfl
theorem exec_call : exec (.call o) s = withOperand o s fun d t =>
    if t.a.toInt < progStart then syscall s.pc (d + t.sp.toInt) t else userCall (d + t.sp.toInt) t := rfl
theorem exec_execute : exec (.execute o) s = withOperand o s fun d t => executeNumber d t := rfl
theorem exec_unknownOperator (n : BitVec 8) :
    exec (.unknownOperator n) s = .next (takeFault s (.unknownOperator n.toNat)) := rfl
theorem exec_unknownOpcode (w : Word) : exec (.unknownOpcode w) s = .next (takeFault s (.unknownOpcode w)) := rfl

/-- The canonical inline word of an operator runs it with `pc` past one word (R85). -/
theorem exec_instrOfOperator (op : Operator) :
    exec (instrOfOperator op) s = withoutOperand s (runOperator op) := by cases op <;> rfl

theorem exec_xIndirection : exec .xIndirection s = withoutOperand s (runOperator .indirection) := rfl
theorem exec_xNegate : exec .xNegate s = withoutOperand s (runOperator .negate) := rfl
theorem exec_xBitNot : exec .xBitNot s = withoutOperand s (runOperator .bitNot) := rfl
theorem exec_xReturn : exec .xReturn s = withoutOperand s (runOperator .ret) := rfl
theorem exec_xMultiply : exec .xMultiply s = withoutOperand s (runOperator .multiply) := rfl
theorem exec_xDivide : exec .xDivide s = withoutOperand s (runOperator .divide) := rfl
theorem exec_xRemainder : exec .xRemainder s = withoutOperand s (runOperator .remainder) := rfl
theorem exec_xAdd : exec .xAdd s = withoutOperand s (runOperator .add) := rfl
theorem exec_xSubtract : exec .xSubtract s = withoutOperand s (runOperator .subtract) := rfl
theorem exec_xEqual : exec .xEqual s = withoutOperand s (runOperator .equal) := rfl
theorem exec_xNotEqual : exec .xNotEqual s = withoutOperand s (runOperator .notEqual) := rfl
theorem exec_xLess : exec .xLess s = withoutOperand s (runOperator .less) := rfl
theorem exec_xGreaterOrEqual : exec .xGreaterOrEqual s = withoutOperand s (runOperator .greaterOrEqual) := rfl
theorem exec_xGreater : exec .xGreater s = withoutOperand s (runOperator .greater) := rfl
theorem exec_xLessOrEqual : exec .xLessOrEqual s = withoutOperand s (runOperator .lessOrEqual) := rfl
theorem exec_xLeftShift : exec .xLeftShift s = withoutOperand s (runOperator .leftShift) := rfl
theorem exec_xRightShift : exec .xRightShift s = withoutOperand s (runOperator .rightShift) := rfl
theorem exec_xBitAnd : exec .xBitAnd s = withoutOperand s (runOperator .bitAnd) := rfl
theorem exec_xBitOr : exec .xBitOr s = withoutOperand s (runOperator .bitOr) := rfl
theorem exec_xBitXor : exec .xBitXor s = withoutOperand s (runOperator .bitXor) := rfl
theorem exec_xBitEqv : exec .xBitEqv s = withoutOperand s (runOperator .bitEqv) := rfl
theorem exec_xFinish : exec .xFinish s = withoutOperand s (runOperator .finish) := rfl
theorem exec_xSwitch : exec .xSwitch s = withoutOperand s (runOperator .switch) := rfl

end

/-- A Call with `a` below PROGSTART is a system call (R200, R201). -/
theorem exec_call_system {o : Operand} {s : State} {d : Int} (h : resolve o s = .ok d) (ha : s.a.toInt < progStart) :
    exec (.call o) s = commit s (syscall s.pc (d + s.sp.toInt) (s.past o.words)) := by
  rw [exec_call, withOperand_ok h]
  exact congrArg _ (if_pos ha)

/-- A Call with `a` from PROGSTART on is a user call (R200, R202). -/
theorem exec_call_user {o : Operand} {s : State} {d : Int} (h : resolve o s = .ok d) (ha : ¬ s.a.toInt < progStart) :
    exec (.call o) s = commit s (userCall (d + s.sp.toInt) (s.past o.words)) := by
  rw [exec_call, withOperand_ok h]
  exact congrArg _ (if_neg ha)

/-- An X word is the canonical word of an operator, or one of the other instructions. -/
theorem instr_cases (i : Instr) :
    (∃ op, i = instrOfOperator op) ∨ (∃ o, i ∈ [Instr.load o, .store o, .add o, .jump o, .testTrue o, .testFalse o,
      .call o, .execute o]) ∨ (∃ n, i = .unknownOperator n) ∨ ∃ w, i = .unknownOpcode w := by
  cases i
  case unknownOperator n => exact .inr (.inr (.inl ⟨n, rfl⟩))
  case unknownOpcode w => exact .inr (.inr (.inr ⟨w, rfl⟩))
  case load o | store o | add o | jump o | testTrue o | testFalse o | call o | execute o =>
    exact .inr (.inl ⟨o, by simp⟩)
  case xIndirection => exact .inl ⟨.indirection, rfl⟩
  case xNegate => exact .inl ⟨.negate, rfl⟩
  case xBitNot => exact .inl ⟨.bitNot, rfl⟩
  case xReturn => exact .inl ⟨.ret, rfl⟩
  case xMultiply => exact .inl ⟨.multiply, rfl⟩
  case xDivide => exact .inl ⟨.divide, rfl⟩
  case xRemainder => exact .inl ⟨.remainder, rfl⟩
  case xAdd => exact .inl ⟨.add, rfl⟩
  case xSubtract => exact .inl ⟨.subtract, rfl⟩
  case xEqual => exact .inl ⟨.equal, rfl⟩
  case xNotEqual => exact .inl ⟨.notEqual, rfl⟩
  case xLess => exact .inl ⟨.less, rfl⟩
  case xGreaterOrEqual => exact .inl ⟨.greaterOrEqual, rfl⟩
  case xGreater => exact .inl ⟨.greater, rfl⟩
  case xLessOrEqual => exact .inl ⟨.lessOrEqual, rfl⟩
  case xLeftShift => exact .inl ⟨.leftShift, rfl⟩
  case xRightShift => exact .inl ⟨.rightShift, rfl⟩
  case xBitAnd => exact .inl ⟨.bitAnd, rfl⟩
  case xBitOr => exact .inl ⟨.bitOr, rfl⟩
  case xBitXor => exact .inl ⟨.bitXor, rfl⟩
  case xBitEqv => exact .inl ⟨.bitEqv, rfl⟩
  case xFinish => exact .inl ⟨.finish, rfl⟩
  case xSwitch => exact .inl ⟨.switch, rfl⟩

/-- What any instruction can do when it answers a next state: take a fault, or keep what `Completes` keeps, or be a Load. -/
theorem exec_cases {i : Instr} {s t : State} (h : exec i s = .next t) :
    (∃ c, t = takeFault s c) ∨ Completes s t ∨
      ∃ o d, i = .load o ∧ resolve o s = .ok d ∧ t = ((s.past o.words).setB s.a).setA (wrap16 d) := by
  have past (n : Nat) : Completes s (s.past n) := .setPc _ _
  have key : ∀ o body, withOperand o s body = .next t →
      (∀ d u, body d (s.past o.words) = .ok u → Completes (s.past o.words) u) →
      (∃ c, t = takeFault s c) ∨ Completes s t := by
    intro o body h hb
    rcases withOperand_next h with ⟨d, -, h⟩ | ⟨c, h, -⟩
    · exact .inr ((past _).trans (hb d t h))
    · exact .inl ⟨c, h⟩
  rcases instr_cases i with ⟨op, rfl⟩ | ⟨o, hi⟩ | ⟨n, rfl⟩ | ⟨w, rfl⟩
  · rw [exec_instrOfOperator] at h
    rcases commit_next h with h | ⟨c, -, h⟩
    · exact .inr (.inl ((past 1).trans (runOperator_completes h)))
    · exact .inl ⟨c, h⟩
  · fin_cases hi
    · rw [exec_load] at h
      rcases withOperand_next h with ⟨d, hd, h⟩ | ⟨c, h, -⟩
      · injection h with h; exact .inr (.inr ⟨o, d, rfl, hd, h.symm⟩)
      · exact .inl ⟨c, h⟩
    all_goals rw [← or_assoc]; left
    · rw [exec_store] at h; exact key o _ h fun d u h => memWrite_completes h
    · rw [exec_add] at h
      exact key o _ h fun d u h => by injection h with h; subst h; exact .setA _ _
    · rw [exec_jump] at h
      exact key o _ h fun d u h => by injection h with h; subst h; exact .setPc _ _
    · rw [exec_testTrue] at h
      exact key o _ h fun d u h => by injection h with h; subst h; split; exacts [.setPc _ _, .refl _]
    · rw [exec_testFalse] at h
      exact key o _ h fun d u h => by injection h with h; subst h; split; exacts [.setPc _ _, .refl _]
    · rw [exec_call] at h
      refine key o _ h fun d u h => ?_
      split at h
      · exact syscall_completes h
      · exact userCall_completes h
    · rw [exec_execute] at h
      exact key o _ h fun d u h => by
        obtain ⟨op, -, h⟩ := executeNumber_ok h
        exact runOperator_completes h
  · rw [exec_unknownOperator] at h; injection h with h; exact .inl ⟨_, h.symm⟩
  · rw [exec_unknownOpcode] at h; injection h with h; exact .inl ⟨_, h.symm⟩

end Sys2Proof.Machine
end

