-- ==== Sys2Proof/Laws/PerInstr.lean ====
section
/-! SUPPORT. Statements made per instruction, one lemma for each constructor of Instr. -/

namespace Sys2Proof.Laws.EncodedLength

/-- The encoding of an instruction has as many words as the instruction (R80, R90). -/
def Statement : Instr → Prop := fun i => (encode i).length = i.words

theorem operand (f : Nat) (o : Operand) : (encodeOperand f o).length = o.words := by
  unfold encodeOperand Operand.words
  cases o.base <;> rfl

theorem load (o : Operand) : Statement (.load o) := operand _ o
theorem store (o : Operand) : Statement (.store o) := operand _ o
theorem add (o : Operand) : Statement (.add o) := operand _ o
theorem jump (o : Operand) : Statement (.jump o) := operand _ o
theorem testTrue (o : Operand) : Statement (.testTrue o) := operand _ o
theorem testFalse (o : Operand) : Statement (.testFalse o) := operand _ o
theorem call (o : Operand) : Statement (.call o) := operand _ o
theorem execute (o : Operand) : Statement (.execute o) := operand _ o
theorem xIndirection : Statement .xIndirection := rfl
theorem xNegate : Statement .xNegate := rfl
theorem xBitNot : Statement .xBitNot := rfl
theorem xReturn : Statement .xReturn := rfl
theorem xMultiply : Statement .xMultiply := rfl
theorem xDivide : Statement .xDivide := rfl
theorem xRemainder : Statement .xRemainder := rfl
theorem xAdd : Statement .xAdd := rfl
theorem xSubtract : Statement .xSubtract := rfl
theorem xEqual : Statement .xEqual := rfl
theorem xNotEqual : Statement .xNotEqual := rfl
theorem xLess : Statement .xLess := rfl
theorem xGreaterOrEqual : Statement .xGreaterOrEqual := rfl
theorem xGreater : Statement .xGreater := rfl
theorem xLessOrEqual : Statement .xLessOrEqual := rfl
theorem xLeftShift : Statement .xLeftShift := rfl
theorem xRightShift : Statement .xRightShift := rfl
theorem xBitAnd : Statement .xBitAnd := rfl
theorem xBitOr : Statement .xBitOr := rfl
theorem xBitXor : Statement .xBitXor := rfl
theorem xBitEqv : Statement .xBitEqv := rfl
theorem xFinish : Statement .xFinish := rfl
theorem xSwitch : Statement .xSwitch := rfl
theorem unknownOperator (n : BitVec 8) : Statement (.unknownOperator n) := rfl
theorem unknownOpcode (w : Word) : Statement (.unknownOpcode w) := rfl

end Sys2Proof.Laws.EncodedLength
end

