-- ==== Sys2Proof/Tests/Slice0.lean ====
section
/-! SUPPORT. Tests: the WellFormed smoke, every constructor's decoding from a word written out from the format of R81, one
step of each instruction on the vectors of spec/95_test_vectors.md, and a witness for the hypotheses of each statement. -/

namespace Sys2Proof.Tests

open Sys2Proof.Machine

/-! ## Helpers -/

/-- A loaded core at 404 with the given registers and memory words. -/
def st (a b sp : Int) (cells : List (Nat × Int)) : State :=
  { State.reset with
    a := wrap16 a, b := wrap16 b, sp := wrap16 sp, pc := 404
    mem := cells.foldl (fun m c => writeWord m c.1 (wrap16 c.2)) [] }

/-- The next state of an outcome. -/
def nextOf (r : Host.Outcome State Fault Refusal) : Option State :=
  match r with
  | .next t => some t
  | _ => none

theorem nextOf_eq {r : Host.Outcome State Fault Refusal} {t : State} (h : nextOf r = some t) : r = .next t := by
  cases r with
  | next u => injection h with h; rw [h]
  | fault f => cases h
  | refused f => cases h

/-- A field of the state after one instruction. -/
def after {α : Type} (i : Instr) (s : State) (f : State → α) : Option α := (nextOf (exec i s)).map f

/-- The fault an instruction ends in. -/
def faultOf (i : Instr) (s : State) : Option FaultCause := (nextOf (exec i s)).bind fun t => t.faultReg.map (·.cause)

/-- The operand `n`, `P n`, the data word `v`, and `IP n`. -/
def opN (n : Nat) : Operand := ⟨.inline (BitVec.ofNat 8 n), false, false⟩
def opP (n : Nat) : Operand := ⟨.inline (BitVec.ofNat 8 n), true, false⟩
def opV (v : Int) : Operand := ⟨.dataWord (wrap16 v), false, false⟩
def opIP (n : Nat) : Operand := ⟨.inline (BitVec.ofNat 8 n), true, true⟩
def opIV (v : Int) : Operand := ⟨.dataWord (wrap16 v), false, true⟩

/-- A core about to execute `K2` for a system call, its arguments at `sp + 4` and above. -/
def callSt (n : SysName) (sp : Nat) (args : List Int) (cells : List (Nat × Int)) : State :=
  st (Params.reference.sysNums.num n).toInt 0 sp
    (cells ++ (args.zipIdx.map fun x => (sp + 4 + x.2, x.1)))

/-- A field of the state after a system call with `sp` = 500. -/
def sys {α : Type} (n : SysName) (args : List Int) (f : State → α) : Option α :=
  after (.call (opN 2)) (callSt n 500 args [(411, 18437), (412, 27749), (413, 28524)]) f

/-- A field of the state after an inline operator word, by the operator's number, with the given `b` and `a`. -/
def bin (i : Instr) (b a : Int) : Option Int := after i (st a b 410 []) fun t => t.a.toInt

/-- The bytes of an ASCII text, for a test. -/
def ascii (s : String) : List Byte := s.toList.map fun c => BitVec.ofNat 8 c.toNat

/-! ## WellFormed smoke: each check refuses an ill-formed term -/

theorem test_wf_refuses_plain_inline_execute : WellFormed (.execute (opN 5)) = false := by decide
theorem test_wf_refuses_operator_as_unknown : WellFormed (.unknownOperator 22) = false := by decide
theorem test_wf_refuses_defined_opcode_as_unknown : WellFormed (.unknownOpcode 0x0107) = false := by decide
theorem test_wf_accepts_frame_execute : WellFormed (.execute (opIP 3)) = true := by decide

/-! ## Decoding, each word written out as nnnnnnnn 00 d p i fff (R81); values from R85, R91 and section 2.1 -/

theorem test_decode_load : decodeWords 0b00000101_00_000_000 0 = .load (opN 5) := by decide
theorem test_decode_load_unsigned : decodeWords 0b11001000_00_000_000 0 = .load (opN 200) := by decide
theorem test_decode_store : decodeWords 0b00000011_00_010_001 0 = .store (opP 3) := by decide
theorem test_decode_add : decodeWords 0b00000000_00_100_010 (-1) = .add (opV (-1)) := by decide
theorem test_decode_jump : decodeWords 0b00000000_00_100_011 408 = .jump (opV 408) := by decide
theorem test_decode_testTrue : decodeWords 0b00000000_00_101_100 417 = .testTrue (opIV 417) := by decide
theorem test_decode_testFalse : decodeWords 0b00000011_00_011_101 0 = .testFalse (opIP 3) := by decide
theorem test_decode_call : decodeWords 0b00000010_00_000_110 0 = .call (opN 2) := by decide
theorem test_decode_execute : decodeWords 0b00000011_00_011_111 0 = .execute (opIP 3) := by decide
theorem test_decode_execute_data : decodeWords 0b00000000_00_100_111 5 = .execute (opV 5) := by decide
theorem test_decode_indirection : decodeWords 0b00000001_00_000_111 0 = .xIndirection := by decide
theorem test_decode_negate : decodeWords 0b00000010_00_000_111 0 = .xNegate := by decide
theorem test_decode_bitNot : decodeWords 0b00000011_00_000_111 0 = .xBitNot := by decide
theorem test_decode_return : decodeWords 0b00000100_00_000_111 0 = .xReturn := by decide
theorem test_decode_multiply : decodeWords 0b00000101_00_000_111 0 = .xMultiply := by decide
theorem test_decode_divide : decodeWords 0b00000110_00_000_111 0 = .xDivide := by decide
theorem test_decode_remainder : decodeWords 0b00000111_00_000_111 0 = .xRemainder := by decide
theorem test_decode_xAdd : decodeWords 0b00001000_00_000_111 0 = .xAdd := by decide
theorem test_decode_subtract : decodeWords 0b00001001_00_000_111 0 = .xSubtract := by decide
theorem test_decode_equal : decodeWords 0b00001010_00_000_111 0 = .xEqual := by decide
theorem test_decode_notEqual : decodeWords 0b00001011_00_000_111 0 = .xNotEqual := by decide
theorem test_decode_less : decodeWords 0b00001100_00_000_111 0 = .xLess := by decide
theorem test_decode_greaterOrEqual : decodeWords 0b00001101_00_000_111 0 = .xGreaterOrEqual := by decide
theorem test_decode_greater : decodeWords 0b00001110_00_000_111 0 = .xGreater := by decide
theorem test_decode_lessOrEqual : decodeWords 0b00001111_00_000_111 0 = .xLessOrEqual := by decide
theorem test_decode_leftShift : decodeWords 0b00010000_00_000_111 0 = .xLeftShift := by decide
theorem test_decode_rightShift : decodeWords 0b00010001_00_000_111 0 = .xRightShift := by decide
theorem test_decode_bitAnd : decodeWords 0b00010010_00_000_111 0 = .xBitAnd := by decide
theorem test_decode_bitOr : decodeWords 0b00010011_00_000_111 0 = .xBitOr := by decide
theorem test_decode_bitXor : decodeWords 0b00010100_00_000_111 0 = .xBitXor := by decide
theorem test_decode_bitEqv : decodeWords 0b00010101_00_000_111 0 = .xBitEqv := by decide
theorem test_decode_finish : decodeWords 0b00010110_00_000_111 0 = .xFinish := by decide
theorem test_decode_switch : decodeWords 0b00010111_00_000_111 0 = .xSwitch := by decide
theorem test_decode_unknownOperator : decodeWords 0b00011000_00_000_111 0 = .unknownOperator 24 := by decide
theorem test_decode_operator_zero : decodeWords 0b00000000_00_000_111 0 = .unknownOperator 0 := by decide
theorem test_decode_unknownOpcode : decodeWords 0b00000000_01_000_000 0 = .unknownOpcode 64 := by decide
theorem test_decode_all_ones : decodeWords 0xFFFF 0 = .unknownOpcode 0xFFFF := by decide
theorem test_decode_table_word : decodeTableWord 16 0x1607 = some .xFinish := by decide
theorem test_encode_bootstrap : encode (.load ⟨.inline 1, false, true⟩) ++ encode (.call (opN 2)) ++ encode .xFinish =
    [264, 518, 5639] := by decide

/-! ## One step of each instruction; values from sections 2.2 to 2.5, or from the examples of the named rule -/

theorem test_load : after (.load (opN 5)) (st 7 1 410 []) (fun t => (t.a, t.b, t.pc)) = some (5, 7, 405) := by decide
theorem test_load_frame_wraps :
    after (.load ⟨.dataWord 32767, true, false⟩) (st 0 0 10 []) (fun t => t.a.toInt) = some (-32759) := by decide
theorem test_store : after (.store (opV 200)) (st 42 0 410 []) (fun t => (wordAt t 200, t.pc)) = some (42, 406) := by
  decide
theorem test_store_outside : faultOf (.store (opV 30000)) (st 42 0 410 []) = some (.memoryFault 30000 .write) := by decide
theorem test_add_wraps : after (.add (opN 1)) (st 32767 3 410 []) (fun t => (t.a.toInt, t.b)) = some (-32768, 3) := by
  decide
theorem test_add_frame_address : after (.add (opP 3)) (st 1 0 410 []) (fun t => t.a) = some 414 := by decide
theorem test_jump_unchecked : after (.jump (opV 30000)) (st 0 0 410 []) (fun t => t.pc) = some 30000 := by decide
theorem test_testTrue_taken : after (.testTrue (opV 417)) (st (-32768) 0 410 []) (fun t => t.pc) = some 417 := by decide
theorem test_testTrue_falls : after (.testTrue (opV 417)) (st 0 0 410 []) (fun t => t.pc) = some 406 := by decide
theorem test_testFalse_taken : after (.testFalse (opV 420)) (st 0 0 410 []) (fun t => t.pc) = some 420 := by decide
theorem test_testFalse_falls : after (.testFalse (opV 420)) (st (-1) 0 410 []) (fun t => t.pc) = some 406 := by decide
theorem test_call_user : after (.call (opN 2)) { st 404 0 410 [] with pc := 402 }
    (fun t => (wordAt t 412, wordAt t 413, t.sp, t.pc)) = some (410, 403, 412, 404) := by decide
theorem test_call_adds_sp_twice : after (.call (opP 5)) (st 404 0 100 []) (fun t => wordAt t 205) = some 100 := by decide
theorem test_execute_from_frame : after (.execute (opIP 3)) (st 7 6 410 [(413, 5)]) (fun t => t.a) = some 42 := by decide
theorem test_execute_negative : faultOf (.execute (opV (-1))) (st 0 0 410 []) = some (.unknownOperator (-1)) := by decide
theorem test_indirection_identity : bin .xIndirection 0 300 = some 300 := by decide
theorem test_indirection_outside : faultOf .xIndirection (st 30000 0 410 []) = some (.memoryFault 30000 .read) := by
  decide
theorem test_negate_least : bin .xNegate 0 (-32768) = some (-32768) := by decide
theorem test_bitNot : bin .xBitNot 0 5 = some (-6) := by decide
theorem test_return : after .xReturn (st 9 0 412 [(412, 410), (413, 403)]) (fun t => (t.pc, t.sp, t.a)) =
    some (403, 410, 9) := by decide
theorem test_multiply : bin .xMultiply 300 300 = some 24464 := by decide
theorem test_multiply_signed : bin .xMultiply (-7) 3 = some (-21) := by decide
theorem test_divide_floor : bin .xDivide (-7) 2 = some (-4) := by decide
theorem test_divide_zero : bin .xDivide 5 0 = some 0 := by decide
theorem test_remainder_truncate : bin .xRemainder (-7) 2 = some (-1) := by decide
theorem test_remainder_floor : after .xRemainder
    { st 2 (-7) 410 [] with params := { Params.reference with remMode := .floor } } (fun t => t.a) = some 1 := by decide
theorem test_xAdd : bin .xAdd 32767 1 = some (-32768) := by decide
theorem test_subtract : bin .xSubtract (-32768) 1 = some 32767 := by decide
theorem test_subtract_order : bin .xSubtract 3 10 = some (-7) := by decide
theorem test_equal : bin .xEqual 3 3 = some (-1) := by decide
theorem test_notEqual : bin .xNotEqual 3 3 = some 0 := by decide
theorem test_less_signed : bin .xLess 32767 (-32768) = some 0 := by decide
theorem test_greaterOrEqual : bin .xGreaterOrEqual (-1) 0 = some 0 := by decide
theorem test_greater : bin .xGreater 5 (-5) = some (-1) := by decide
theorem test_lessOrEqual : bin .xLessOrEqual (-32768) 32767 = some (-1) := by decide
theorem test_leftShift : bin .xLeftShift 1 15 = some (-32768) := by decide
theorem test_leftShift_negative : bin .xLeftShift 3 (-1) = some 0 := by decide
theorem test_rightShift_logical : bin .xRightShift (-32768) 1 = some 16384 := by decide
theorem test_rightShift_arithmetic : after .xRightShift
    { st 16 (-1) 410 [] with params := { Params.reference with rshMode := .arithmetic } }
    (fun t => t.a.toInt) = some (-1) := by decide
theorem test_bitAnd : bin .xBitAnd 12 10 = some 8 := by decide
theorem test_bitOr : bin .xBitOr 12 10 = some 14 := by decide
theorem test_bitXor : bin .xBitXor 12 10 = some 6 := by decide
theorem test_bitEqv : bin .xBitEqv 12 10 = some (-7) := by decide
theorem test_finish : after .xFinish (st 42 0 410 []) (fun t => (t.running, t.a, t.pc)) = some (false, 42, 405) := by
  decide
/-- The table of R243, after the X23 word at 404. -/
def switchSt (a : Int) : State :=
  st a 0 410 [(405, 3), (406, 424), (407, 1), (408, 414), (409, 2), (410, 417), (411, 3), (412, 420)]
theorem test_switch_second : after .xSwitch (switchSt 2) (fun t => t.pc) = some 417 := by decide
theorem test_switch_default : after .xSwitch (switchSt 99) (fun t => t.pc) = some 424 := by decide
theorem test_unknownOperator : faultOf (.unknownOperator 24) (st 0 0 410 []) = some (.unknownOperator 24) := by decide
theorem test_unknownOpcode : faultOf (.unknownOpcode 64) (st 0 0 410 []) = some (.unknownOpcode 64) := by decide

/-! ## System calls; values from section 2.6 -/

theorem test_getByte_lane : sys .getByte [411, 5] (fun t => t.a) = some 111 := by decide
theorem test_getByte_negative : sys .getByte [412, -1] (fun t => t.a) = some 72 := by decide
theorem test_putByte : sys .putByte [411, 1, 74] (fun t => wordAt t 411) = some 18949 := by decide
theorem test_putByte_low_byte : sys .putByte [600, 1, 384] (fun t => (wordAt t 600).toInt) = some (-32768) := by decide
theorem test_writeString : sys .writeString [411] (fun t => t.output) = some [72, 101, 108, 108, 111] := by decide
theorem test_writeNumber : sys .writeNumber [-32768] (fun t => t.output) = some (ascii "-32768") := by decide
theorem test_writePadded : sys .writeDecimalPadded [42, 5] (fun t => t.output) = some (ascii "   42") := by decide
theorem test_writePadded_long : sys .writeDecimalPadded [12345, 3] (fun t => t.output) = some (ascii "12345") := by
  decide
theorem test_writeHex : sys .writeHex [-1, 4] (fun t => t.output) = some (ascii "FFFF") := by decide
theorem test_writeHex_least : sys .writeHex [255, 0] (fun t => t.output) = some (ascii "F") := by decide
theorem test_writeOctal : sys .writeOctal [-1, 6] (fun t => t.output) = some (ascii "177777") := by decide
theorem test_writeChar : sys .writeChar [321] (fun t => t.output) = some [65] := by decide
theorem test_writeChar_gated :
    after (.call (opN 2)) { callSt .writeChar 500 [65] [] with cout := 9 } (fun t => t.output) = some [] := by decide
theorem test_readChar : after (.call (opN 2)) { callSt .readChar 500 [] [] with input := [55, 120] }
    (fun t => (t.a, t.input)) = some (55, [120]) := by decide
theorem test_readChar_end : sys .readChar [] (fun t => t.a.toInt) = some (-1) := by decide
theorem test_readNumber : after (.call (opN 2)) { callSt .readNumber 500 [] [] with input := ascii "-12ab" }
    (fun t => (t.a.toInt, t.input)) = some (-12, ascii "ab") := by decide
theorem test_readNumber_space : after (.call (opN 2)) { callSt .readNumber 500 [] [] with input := ascii " 5" }
    (fun t => (t.a, t.input)) = some (0, ascii " 5") := by decide
theorem test_getVector : sys .getVector [10] (fun t => (t.watermark, t.a)) = some (19890, 19890) := by decide
theorem test_freeVector : sys .freeVector [] (fun t => t.watermark) = some 19900 := by decide
theorem test_stop : sys .stop [3] (fun t => (t.a, t.running)) = some (3, false) := by decide
theorem test_level : sys .level [] (fun t => t.a) = some 500 := by decide
theorem test_longJump : sys .longJump [429, 409] (fun t => (t.sp, t.pc)) = some (429, 409) := by decide
theorem test_makeClosure : after (.call (opN 2)) (callSt .makeClosure 498 [404, 3] [])
    (fun t => (wordAt t 504, wordAt t 505, wordAt t 506, wordAt t 507, t.sp, t.pc)) =
    some (498, 405, 500, 3, 504, 404) := by decide
theorem test_findInput : sys .findInput [] (fun t => t.a) = some Params.reference.inputHandle := by decide
theorem test_findOutput : sys .findOutput [] (fun t => t.a) = some Params.reference.printHandle := by decide
theorem test_selectInput : sys .selectInput [9] (fun t => t.cin) = some 9 := by decide
theorem test_selectOutput : sys .selectOutput [9] (fun t => t.cout) = some 9 := by decide
theorem test_unknown_call : after (.call (opN 2)) (st 0 0 410 []) (fun t => (t.warnings, t.a)) = some ([⟨0, 404⟩], 0) := by
  decide
/-- The format "%N=%I3%C" of section 2.6, low lane first, with its length 8 in lane 0. -/
theorem test_writeFormatted : after (.call (opN 2)) (callSt .writeFormatted 500 [450, 7, 42, 33]
    [(450, 37 * 256 + 8), (451, 61 * 256 + 78), (452, 73 * 256 + 37), (453, 37 * 256 + 51), (454, 67)])
    (fun t => t.output) = some (ascii "7= 42!") := by decide
/-- The format "%Q" of section 2.6. -/
theorem test_writeFormatted_other : after (.call (opN 2)) (callSt .writeFormatted 500 [450]
    [(450, 37 * 256 + 2), (451, 81)]) (fun t => t.output) = some (ascii "Q") := by decide

/-! ## The step, the faults and the life of an instance; values from sections 1.7, 2.3, 2.7 and R335 -/

theorem test_step_counts : (nextOf (step (st 0 0 410 [(404, 1280)]))).map (fun t => (t.a, t.steps)) = some (5, 1) := by
  decide
theorem test_step_fetch_fault :
    (nextOf (step { st 0 0 410 [] with pc := 30000 })).map (·.faultReg) =
      some (some ⟨.memoryFault 30000 .fetch, some 30000⟩) := by decide
theorem test_step_budget :
    (nextOf (step { st 404 0 408 [] with steps := 1000, params := { Params.reference with budget := 1000 } })).map
      (·.faultReg) = some (some ⟨.instructionBudgetExceeded 1000, some 404⟩) := by decide
theorem test_fault_codes : [FaultCause.memoryFault 0 .read, .unknownOpcode 64, .unknownOperator 24,
    .instructionBudgetExceeded 1000, .loadFault 19901].map FaultCause.code = [1, 2, 3, 4, 5] := by decide
theorem test_fetch_word_runs : (nextOf (step (State.reset.withFetchWord 32 0x012C0020))).map (fun t => t.a) = some 300 := by
  decide
theorem test_bootstrap_words : [401, 402, 403].map (readWord bootstrapImage) = [264, 518, 5639] := by decide
theorem test_global_identity : readWord State.reset.mem 400 = 400 ∧ readWord State.reset.mem 401 = 0 := by decide

/-! ## The engine; values from section 2.8 and R118 -/

/-- The engine after one item of a text. -/
def item (text : String) : Engine := engineStep Params.reference (Engine.start text.toList)

theorem test_engine_inline : (readWord (item "L200").image 404).toInt = -14336 ∧ (item "L200").cursor = 405 := by decide
theorem test_engine_data : readWord (item "LG5 ").image 404 = 32 ∧ readWord (item "LG5 ").image 405 = 5 := by decide
theorem test_engine_wraps : (readWord (item "C40000").image 404).toInt = -25536 := by decide
theorem test_engine_separator : readWord (item "L$5").image 404 = 1280 := by decide
theorem test_engine_reference : (item "LL5 5").table = [(5, 405)] ∧ readWord (item "LL5 5").image 405 = 0 := by decide
theorem test_engine_label_range : (item "LL10000").fatal = some (.labelRange 10000) := by decide
theorem test_engine_slot_range : (item "G401L1").fatal.isSome = true := by decide
theorem test_engine_flag_order : (item "LPI5").fatal = some (.syntaxError 2 (some 'I')) := by decide
theorem test_engine_lower_case : (item "l5").fatal = some (.syntaxError 0 (some 'l')) := by decide
theorem test_engine_global_slot : (item "G1L1").table = [(1, 1)] ∧ readWord (item "G1L1").image 1 = 0 := by decide

/-! ## Witnesses: concrete states and operands that meet the hypotheses of each statement, at the edges of their ranges -/

theorem valid_reference : Params.reference.Valid :=
  ⟨by decide, by decide, by decide, by decide, by decide, by decide⟩

/-- The smallest legal memory, the floor remainder, and the arithmetic shift. -/
def smallParams : Params :=
  { Params.reference with memSize := 408, budget := 1, remMode := .floor, rshMode := .arithmetic }

theorem valid_small : smallParams.Valid := ⟨by decide, by decide, by decide, by decide, by decide, by decide⟩

/-- A core at the same place with other parameters. -/
def withParams (p : Params) (s : State) : State := { s with params := p }

theorem resolvesTo_inline (n : Nat) (s : State) (hn : n < 256) : ResolvesTo (opN n) s n := by
  refine .inl ⟨rfl, ?_⟩
  show (n : Int) = ((BitVec.ofNat 8 n).toNat : Int) + 0
  rw [BitVec.toNat_ofNat]
  omega

theorem callsSystem_callSt (n : SysName) (sp : Nat) (args : List Int) (cells : List (Nat × Int)) (h : sp ≤ 32767) :
    CallsSystem (opN 2) (callSt n sp args cells) n (sp + 2) := by
  refine ⟨valid_reference, ?_, 2, resolvesTo_inline 2 _ (by decide), ?_⟩
  · show wrap16 _ = _; exact BitVec.ofInt_toInt
  · show (sp + 2 : Int) = 2 + (wrap16 sp).toInt
    have : (wrap16 sp).toInt = sp := by
      unfold wrap16; rw [BitVec.toInt_ofInt, Int.bmod_eq_of_le] <;> omega
    omega

theorem witness_DecodeEncodeEveryInstruction :
    ∀ i ∈ [Instr.load (opV (-1)), .call (opIP 255), .execute (opV 5), .execute (opIP 0), .xSwitch, .unknownOperator 0,
      .unknownOperator 24, .unknownOperator 255, .unknownOpcode 0x0040, .unknownOpcode 0xFFFF], WellFormed i = true := by
  decide

theorem witness_LengthFromDataFlag :
    (hasReservedBits 0x0020 = false ∧ (0x0020 : Word).getLsbD 5 = true) ∧
      hasReservedBits 0xFF1F = false ∧ (0xFF1F : Word).getLsbD 5 = false := by decide

/-- The common hypotheses on a core that can take a step. -/
def Ready (s : State) : Prop :=
  s.phase = .loaded ∧ s.running = true ∧ s.faultReg = none ∧ s.steps ≠ s.params.budget

/-- A one-word instruction in the last word of memory. -/
theorem witness_StepRunsDecodedInstruction :
    let s := { st 7 6 410 [(19899, 1287)] with pc := 19899 }
    Ready s ∧ s.inBounds s.pc ∧ (Instr.xMultiply.words = 2 → s.inBounds (s.pc + 1)) ∧
      decode ([wordAt s s.pc, wordAt s (s.pc + 1)].take Instr.xMultiply.words) = .ok (.xMultiply, []) :=
  ⟨⟨rfl, rfl, rfl, by decide⟩, by decide, by decide, rfl⟩

/-- A two-word instruction in the last two words of memory. -/
theorem witness_StepRunsDecodedInstruction_data :
    let s := { st 7 6 410 [(19898, 32), (19899, 300)] with pc := 19898 }
    Ready s ∧ s.inBounds s.pc ∧ ((Instr.load (opV 300)).words = 2 → s.inBounds (s.pc + 1)) ∧
      decode ([wordAt s s.pc, wordAt s (s.pc + 1)].take (Instr.load (opV 300)).words) = .ok (.load (opV 300), []) :=
  ⟨⟨rfl, rfl, rfl, by decide⟩, by decide, by decide, rfl⟩

theorem witness_FaultsArePrecise :
    ∃ s t : State, s.phase = .loaded ∧ step s = .next t ∧ t.faultReg ≠ none :=
  ⟨st 0 0 410 [(404, 64)], takeFault (st 0 0 410 [(404, 64)]) (.unknownOpcode 64), rfl, nextOf_eq (by decide), by decide⟩

theorem witness_StoppedOrSpentCoreRunsNothing :
    (∃ s : State, s.phase = .loaded ∧ s.faultReg ≠ none) ∧
    (∃ s : State, s.phase = .loaded ∧ s.faultReg = none ∧ s.running = false) ∧
    ∃ s : State, s.phase = .loaded ∧ s.faultReg = none ∧ s.running = true ∧ s.steps = s.params.budget :=
  ⟨⟨takeFault State.reset (.unknownOpcode 64), rfl, by decide⟩, ⟨State.reset.halt, rfl, rfl, rfl⟩,
    ⟨withParams smallParams State.reset.countStep, rfl, rfl, rfl, rfl⟩⟩

theorem witness_FetchOutsideMemoryFaults :
    (Ready { st 0 0 410 [] with pc := 19900 } ∧ ¬ ({ st 0 0 410 [] with pc := 19900 } : State).inBounds 19900) ∧
    Ready { st 0 0 410 [] with pc := -1 } ∧ ¬ ({ st 0 0 410 [] with pc := -1 } : State).inBounds (-1) :=
  ⟨⟨⟨rfl, rfl, rfl, by decide⟩, by decide⟩, ⟨rfl, rfl, rfl, by decide⟩, by decide⟩

theorem witness_DataWordOutsideMemoryFaults :
    let s := { st 0 0 410 [(19899, 32)] with pc := 19899 }
    Ready s ∧ s.inBounds s.pc ∧ hasReservedBits (wordAt s s.pc) = false ∧ (wordAt s s.pc).getLsbD 5 = true ∧
      ¬ s.inBounds (s.pc + 1) := ⟨⟨rfl, rfl, rfl, by decide⟩, by decide, by decide, by decide, by decide⟩

/-- The word 96 has a reserved bit and the D flag, in the last word of memory. -/
theorem witness_ReservedBitsFault :
    let s := { st 0 0 410 [(19899, 96)] with pc := 19899 }
    Ready s ∧ s.inBounds s.pc ∧ hasReservedBits (wordAt s s.pc) = true :=
  ⟨⟨rfl, rfl, rfl, by decide⟩, by decide, by decide⟩

/-- The clause of an I read outside memory, in the results of every opcode that takes an operand and in
IndirectOperandOutsideMemoryFaults. -/
theorem witness_OperandFaultsAt :
    OperandFaultsAt (opIV 19900) (st 0 0 410 []) 19900 ∧ OperandFaultsAt (opIV (-1)) (st 0 0 410 []) (-1) ∧
      OperandFaultsAt (opIP 255) (st 0 0 19645 []) 19900 :=
  ⟨⟨rfl, by decide, by decide⟩, ⟨rfl, by decide, by decide⟩, ⟨rfl, by decide, by decide⟩⟩

/-- Every stage of R83, the last with the greatest and least sums; also the witness of Load, Add, Jump and the tests. -/
theorem witness_ResolvesTo :
    ResolvesTo (opN 255) (st 0 0 410 []) 255 ∧ ResolvesTo (opV (-32768)) (st 0 0 410 []) (-32768) ∧
    ResolvesTo (opP 3) (st 0 0 410 []) 413 ∧ ResolvesTo (opIP 3) (st 0 0 410 [(413, -9)]) (-9) ∧
    ResolvesTo ⟨.dataWord 32767, true, false⟩ (st 0 0 32767 []) 65534 ∧
    ResolvesTo ⟨.dataWord (-32768), true, false⟩ (st 0 0 (-32768) []) (-65536) :=
  ⟨resolvesTo_inline 255 _ (by decide), .inl ⟨rfl, by decide⟩, .inl ⟨rfl, by decide⟩,
    .inr ⟨rfl, by decide, by decide⟩, .inl ⟨rfl, by decide⟩, .inl ⟨rfl, by decide⟩⟩

theorem witness_StoreResult :
    (ResolvesTo (opV 19899) (st 42 0 410 []) 19899 ∧ (st 42 0 410 []).inBounds 19899) ∧
    (ResolvesTo (opN 0) (st 42 0 410 []) 0 ∧ (st 42 0 410 []).inBounds 0) ∧
    (ResolvesTo (opV 19900) (st 42 0 410 []) 19900 ∧ ¬ (st 42 0 410 []).inBounds 19900) ∧
    ResolvesTo (opV (-1)) (st 42 0 410 []) (-1) ∧ ¬ (st 42 0 410 []).inBounds (-1) :=
  ⟨⟨.inl ⟨rfl, by decide⟩, by decide⟩, ⟨.inl ⟨rfl, by decide⟩, by decide⟩, ⟨.inl ⟨rfl, by decide⟩, by decide⟩,
    .inl ⟨rfl, by decide⟩, by decide⟩

/-- The frames at 19898, 19899 and 19900 of a memory of 19900 words, and `a` = 401. -/
theorem witness_UserCallResult :
    (ResolvesTo (opN 2) (st 401 0 19896 []) 2 ∧ 401 ≤ (st 401 0 19896 []).a.toInt ∧
      (st 401 0 19896 []).inBounds (2 + (st 401 0 19896 []).sp.toInt) ∧
      (st 401 0 19896 []).inBounds (2 + (st 401 0 19896 []).sp.toInt + 1)) ∧
    (401 ≤ (st 401 0 19898 []).a.toInt ∧ ¬ (st 401 0 19898 []).inBounds (2 + (st 401 0 19898 []).sp.toInt)) ∧
    401 ≤ (st 401 0 19897 []).a.toInt ∧ (st 401 0 19897 []).inBounds (2 + (st 401 0 19897 []).sp.toInt) ∧
      ¬ (st 401 0 19897 []).inBounds (2 + (st 401 0 19897 []).sp.toInt + 1) :=
  ⟨⟨resolvesTo_inline 2 _ (by decide), by decide, by decide, by decide⟩, ⟨by decide, by decide⟩, by decide, by decide,
    by decide⟩

theorem witness_ReturnResult :
    ((st 0 0 19898 []).inBounds ((st 0 0 19898 []).sp.toInt + 1) ∧ (st 0 0 19898 []).inBounds (st 0 0 19898 []).sp.toInt) ∧
    ¬ (st 0 0 19899 []).inBounds ((st 0 0 19899 []).sp.toInt + 1) ∧
    (st 0 0 (-1) []).inBounds ((st 0 0 (-1) []).sp.toInt + 1) ∧ ¬ (st 0 0 (-1) []).inBounds (st 0 0 (-1) []).sp.toInt := by
  decide

/-- The call of section 2.4, and a callee that wrote `a` and a word of its own. -/
theorem witness_ReturnUndoesUserCall :
    ∃ (s t u : State), ResolvesTo (opN 2) s 2 ∧ s.params.Valid ∧ 401 ≤ s.a.toInt ∧ s.inBounds (2 + s.sp.toInt) ∧
      s.inBounds (2 + s.sp.toInt + 1) ∧ s.inBounds s.pc ∧ exec (.call (opN 2)) s = .next t ∧ u.params = t.params ∧
      u.sp = t.sp ∧ wordAt u t.sp.toInt = wordAt t t.sp.toInt ∧ wordAt u (t.sp.toInt + 1) = wordAt t (t.sp.toInt + 1) ∧
      s.pc + (opN 2).words ≤ 32767 ∧ u.a ≠ t.a ∧ u.mem ≠ t.mem := by
  refine ⟨{ st 404 0 410 [] with pc := 402 }, { st 404 0 412 [(412, 410), (413, 403)] with pc := 404 },
    { st 9 0 412 [(412, 410), (413, 403), (415, 7)] with pc := 411 }, resolvesTo_inline 2 _ (by decide), valid_reference,
    by decide, by decide, by decide, by decide, nextOf_eq (by decide), rfl, rfl, by decide, by decide, by decide,
    by decide, by decide⟩

/-- The numbers 400, 1 and -32768 name no call. -/
theorem witness_UnknownSystemCallWarns :
    ∀ a ∈ [(400 : Int), 1, -32768], ResolvesTo (opN 2) (st a 0 410 []) 2 ∧ (st a 0 410 []).a.toInt < 401 ∧
      ∀ n ∈ SysName.all, (st a 0 410 []).params.sysNums.num n ≠ (st a 0 410 []).a := by
  intro a h
  refine ⟨resolvesTo_inline 2 _ (by decide), ?_⟩
  simp only [List.mem_cons, List.not_mem_nil, or_false] at h
  rcases h with rfl | rfl | rfl <;> decide

/-- The first argument just above memory, for each call that takes one; also the witness of that clause in the results of
Select-input, Select-output, Stop, Write-char, Get-vector, Long-jump and Make-closure. -/
theorem witness_FirstArgumentOutsideMemoryFaults :
    ∀ n ∈ [SysName.selectInput, .selectOutput, .writeChar, .stop, .longJump, .makeClosure, .writeString, .putByte,
        .getVector],
      CallsSystem (opN 2) (callSt n 19896 [] []) n (19896 + 2) ∧ ¬ (callSt n 19896 [] []).inBounds (19896 + 2 + 2) ∧
        n ∉ [SysName.readChar, .readNumber, .findInput, .findOutput, .level, .freeVector] := by
  intro n h
  refine ⟨callsSystem_callSt _ 19896 _ _ (by decide), ?_⟩
  revert n
  decide

/-- The last word of memory as the one argument. -/
theorem witness_HandleAndRegisterCalls :
    (∀ n, CallsSystem (opN 2) (callSt n 19895 [9] []) n (19895 + 2)) ∧
      (callSt .selectInput 19895 [9] []).inBounds (19895 + 2 + 2) ∧
      (callSt .selectOutput 19895 [9] []).inBounds (19895 + 2 + 2) :=
  ⟨fun n => callsSystem_callSt n 19895 _ _ (by decide), by decide, by decide⟩

theorem witness_ReadCharResult :
    CallsSystem (opN 2) (callSt .readChar 500 [] []) .readChar (500 + 2) ∧ (callSt .readChar 500 [] []).input = [] ∧
      CallsSystem (opN 2) { callSt .readChar 500 [] [] with input := [255] } .readChar (500 + 2) :=
  ⟨callsSystem_callSt _ 500 _ _ (by decide), rfl, callsSystem_callSt .readChar 500 [] [] (by decide)⟩

/-- A signed run, a lone sign, a run that ends the input, and no digit at all. -/
theorem witness_ReadNumberResult :
    ∀ x ∈ [(true, ascii "12", ascii "ab"), (true, [], ascii " "), (false, ascii "70000", []), (false, [], ascii "x")],
      CallsSystem (opN 2) { callSt .readNumber 500 [] [] with input := (if x.1 then [45] else []) ++ x.2.1 ++ x.2.2 }
        .readNumber (500 + 2) ∧ (∀ y ∈ x.2.1, 48 ≤ y.toNat ∧ y.toNat ≤ 57) ∧
        (∀ y ∈ x.2.2.head?, ¬ (48 ≤ y.toNat ∧ y.toNat ≤ 57)) ∧ (x.1 = false → x.2.1 = [] → x.2.2.head? ≠ some 45) := by
  intro x hx
  refine ⟨callsSystem_callSt .readNumber 500 [] [] (by decide), ?_⟩
  revert x
  decide

/-- `n` arguments that end at the last word of memory, for each argument count a call has. -/
theorem witness_ArgsReadable :
    ArgsReadable (callSt .stop 19895 [3] []) (19895 + 2) 1 ∧ ArgsReadable (callSt .getByte 19894 [411, 5] []) (19894 + 2) 2 ∧
      ArgsReadable (callSt .putByte 19893 [411, 1, 74] []) (19893 + 2) 3 := by
  refine ⟨?_, ?_, ?_⟩ <;> intro i hi <;> interval_cases i <;> decide

theorem witness_StopResult :
    CallsSystem (opN 2) (callSt .stop 19895 [3] []) .stop (19895 + 2) ∧
      (callSt .stop 19895 [3] []).inBounds (19895 + 2 + 2) := ⟨callsSystem_callSt _ 19895 _ _ (by decide), by decide⟩

theorem witness_WriteCharResult :
    CallsSystem (opN 2) (callSt .writeChar 19895 [321] []) .writeChar (19895 + 2) ∧
      (callSt .writeChar 19895 [321] []).inBounds (19895 + 2 + 2) :=
  ⟨callsSystem_callSt _ 19895 _ _ (by decide), by decide⟩

/-- The cells of a packed string at a word address (R57). -/
def packed (addr : Nat) (bytes : List Nat) : List (Nat × Int) :=
  (List.range ((bytes.length + 1) / 2)).map fun i => (addr + i, (bytes.getD (2 * i) 0 : Int) + 256 * bytes.getD (2 * i + 1) 0)

/-- The packed string "Hello" of section 1.5 at a word address. -/
def hello (addr : Nat) : List (Nat × Int) := packed addr [5, 72, 101, 108, 108, 111]

theorem specifierAt {s : State} {f : Int} {len i : Nat} {x : Byte}
    (h : i + 1 ≤ len ∧ s.inBounds (byteWord f i) ∧ byteAt s f i = 37 ∧ s.inBounds (byteWord f (i + 1 : Nat)) ∧
      byteAt s f (i + 1 : Nat) = x := by decide) : SpecifierAt s f len i x := h

theorem stringReadable_of_length {s : State} {addr : Int} {n : Nat} (h : lengthAt s addr = n)
    (hb : ∀ i ≤ n, s.inBounds (byteWord addr (i : Nat))) : StringReadable s addr := fun i hi => hb i (h ▸ hi)

theorem firstBadArgument {n : SysName} {args : List Int} (i : Nat) (hi : i < 3 := by decide) :
    FirstBadArgument (callSt n (19896 - i) args []) ((19896 - i : Nat) + 2) i := by
  have h : ∀ x, (callSt n (19896 - i) args []).inBounds x = State.reset.inBounds x := fun _ => rfl
  simp only [FirstBadArgument, ArgsReadable, h]
  clear h
  revert i
  decide

/-- The first argument just above memory, and the later ones with those before it in the last words; the witness of the
argument clauses of Write-number, Write-decimal-padded, Write-hex, Write-octal, Get-byte and Put-byte. -/
theorem witness_FirstBadArgument :
    ∀ n ∈ [SysName.writeNumber, .writeDecimalPadded, .writeHex, .writeOctal, .getByte, .putByte], ∀ i < 3,
      CallsSystem (opN 2) (callSt n (19896 - i) [0, 0] []) n ((19896 - i : Nat) + 2) ∧
        FirstBadArgument (callSt n (19896 - i) [0, 0] []) ((19896 - i : Nat) + 2) i := by
  intro n _ i hi
  refine ⟨?_, firstBadArgument i hi⟩
  interval_cases i
  · exact callsSystem_callSt n 19896 _ _ (by decide)
  · exact callsSystem_callSt n 19895 _ _ (by decide)
  · exact callsSystem_callSt n 19894 _ _ (by decide)

/-- "Hello" in the last three words of memory, and the empty string. -/
theorem witness_WriteStringResult :
    CallsSystem (opN 2) (callSt .writeString 500 [19897] (hello 19897)) .writeString (500 + 2) ∧
      (callSt .writeString 500 [19897] (hello 19897)).inBounds (500 + 2 + 2) ∧
      (argAt (callSt .writeString 500 [19897] (hello 19897)) (500 + 2) 0).toInt = 19897 ∧
      StringReadable (callSt .writeString 500 [19897] (hello 19897)) 19897 ∧
      textAt (callSt .writeString 500 [19897] (hello 19897)) 19897 = ascii "Hello" ∧
      StringReadable (callSt .writeString 500 [411] []) 411 :=
  ⟨callsSystem_callSt _ 500 _ _ (by decide), by decide, by decide, stringReadable_of_length (n := 5) (by decide) (by decide),
    by decide, stringReadable_of_length (n := 0) (by decide) (by decide)⟩

/-- "Hello" whose third word is the first outside memory, and a length byte outside memory. -/
theorem witness_WriteStringResult_outside :
    StringFaultsAt (callSt .writeString 500 [19898] (hello 19898)) 19898 19900 ∧
      StringFaultsAt (callSt .writeString 500 [19900] []) 19900 19900 ∧
      StringFaultsAt (callSt .writeString 500 [-1] []) (-1) (-1) :=
  ⟨⟨4, by decide, by decide, by decide, by decide⟩, ⟨0, by decide, by decide, by decide, by decide⟩,
    0, by decide, by decide, by decide, by decide⟩

theorem witness_NumberOutputResults :
    CallsSystem (opN 2) (callSt .writeNumber 500 [-32768] []) .writeNumber (500 + 2) ∧
      ArgsReadable (callSt .writeNumber 500 [-32768] []) (500 + 2) 1 ∧
      CallsSystem (opN 2) (callSt .writeDecimalPadded 500 [42, 5] []) .writeDecimalPadded (500 + 2) ∧
      ArgsReadable (callSt .writeDecimalPadded 500 [42, 5] []) (500 + 2) 2 :=
  ⟨callsSystem_callSt _ 500 _ _ (by decide), by intro i hi; interval_cases i; decide,
    callsSystem_callSt _ 500 _ _ (by decide), by intro i hi; interval_cases i <;> decide⟩

/-- R281: with another handle in `cout` the same call appends nothing. -/
theorem test_writeHex_gated :
    after (.call (opN 2)) { callSt .writeHex 500 [-1, 4] [] with cout := 7 } (fun t => (t.output, t.pc)) = some ([], 405) := by
  decide

/-- The digit counts 4, 0 and -1. -/
theorem witness_RadixOutputResults :
    (∀ x ∈ [(SysName.writeHex, 16), (.writeOctal, 8)],
      CallsSystem (opN 2) (callSt x.1 500 [-1, 4] []) x.1 (500 + 2) ∧
        ArgsReadable (callSt x.1 500 [-1, 4] []) (500 + 2) 2) ∧
      ((4 : Nat) : Int) = max (argAt (callSt .writeHex 500 [-1, 4] []) (500 + 2) 1).toInt 1 ∧
      ((1 : Nat) : Int) = max (argAt (callSt .writeHex 500 [-1, 0] []) (500 + 2) 1).toInt 1 ∧
      ((1 : Nat) : Int) = max (argAt (callSt .writeHex 500 [-1, -1] []) (500 + 2) 1).toInt 1 := by
  refine ⟨fun x hx => ⟨callsSystem_callSt x.1 500 _ _ (by decide), ?_⟩, by decide, by decide, by decide⟩
  simp only [List.mem_cons, List.not_mem_nil, or_false] at hx
  rcases hx with rfl | rfl <;> intro i hi <;> interval_cases i <;> decide

/-- Write-formatted at the given frame, with the format at `f` and the arguments after it. -/
def formatSt (sp f : Nat) (format : List Nat) (args : List Int) (cells : List (Nat × Int)) : State :=
  callSt .writeFormatted sp (f :: args) (packed f (format.length :: format) ++ cells)

/-- The format `x%N%C%S%I3%Q%` with the arguments -7, 333, the string "Hello" and 42. -/
def formatAll : State :=
  formatSt 500 450 [120, 37, 78, 37, 67, 37, 83, 37, 73, 51, 37, 81, 37] [-7, 333, 411, 42] (hello 411)

theorem witness_WriteFormattedResult :
    CallsSystem (opN 2) formatAll .writeFormatted (500 + 2) ∧ formatAll.inBounds (500 + 2 + 2) ∧
      450 = (argAt formatAll (500 + 2) 0).toInt ∧ formatAll.inBounds (byteWord 450 0) ∧ lengthAt formatAll 450 < 14 ∧
      FormatRounds formatAll (500 + 2) 450 (lengthAt formatAll 450) 1 1 (ascii "x-7MHello 42Q") 14 5 := by
  refine ⟨callsSystem_callSt _ 500 _ _ (by decide), by decide, by decide, by decide, by decide, ?_⟩
  rw [show lengthAt formatAll 450 = 13 by decide, show ascii "x-7MHello 42Q" =
    [byteAt formatAll 450 (1 : Nat)] ++ (decBytes (argAt formatAll 502 1) ++
      ([BitVec.ofInt 8 ((argAt formatAll 502 2).toInt % 256)] ++ (textAt formatAll (argAt formatAll 502 3).toInt ++
        (List.replicate (widthOf (byteAt formatAll 450 (8 + 2 : Nat)) - (decBytes (argAt formatAll 502 4)).length) 32 ++
          decBytes (argAt formatAll 502 4) ++ ([81] ++ ([] ++ [])))))) by decide]
  exact .more (by decide) (.plain 1 1 (by decide) (by decide)) (.more (by decide) (.number 2 1 specifierAt (by decide))
    (.more (by decide) (.char 4 2 specifierAt (by decide)) (.more (by decide) (.string 6 3 specifierAt (by decide)
      (stringReadable_of_length (n := 5) (by decide) (by decide))) (.more (by decide)
        (.padded 8 4 specifierAt (by decide) (by decide) (by decide)) (.more (by decide)
          (.other 11 5 81 specifierAt (by decide)) (.more (by decide)
            (.finalPercent 13 5 (by decide) (by decide) (by decide)) (.none 14 5)))))))

/-- The format `%I`, which ends without a width. -/
theorem witness_WriteFormattedResult_end :
    FormatRounds (formatSt 500 450 [37, 73] [42] []) (500 + 2) 450 2 1 1 (ascii "42" ++ []) 3 2 :=
  .more (by decide) (.paddedAtEnd 1 1 specifierAt (by decide) (by decide)) (.none 3 2)

/-- A format outside memory; then a format byte, a specifier, a width, an argument and a string that begin just above
memory, each in a format whose earlier bytes lie in its last words. -/
theorem witness_WriteFormattedResult_outside :
    ¬ (formatSt 500 19900 [] [] []).inBounds (byteWord 19900 0) ∧
    FormatRoundFaults (formatSt 500 19899 [120, 120] [] []) (500 + 2) 19899 2 2 1 19900 ∧
    FormatRoundFaults (formatSt 500 19899 [37, 78] [] []) (500 + 2) 19899 2 1 1 19900 ∧
    FormatRoundFaults (formatSt 500 19898 [120, 37, 73, 51] [] []) (500 + 2) 19898 4 2 1 19900 ∧
    FormatRoundFaults (formatSt 19895 450 [37, 67] [] []) (19895 + 2) 450 2 1 1 19900 ∧
    FormatRoundFaults (formatSt 500 450 [37, 83] [19900] []) (500 + 2) 450 2 1 1 19900 :=
  ⟨by decide, .formatByte 2 1 (by decide), .specifierByte 1 1 (by decide) (by decide) (by decide) (by decide),
    .widthByte 2 1 specifierAt (by decide) (by decide), .argument 1 1 67 specifierAt (by decide) (by decide) (by decide),
    .string 1 1 19900 specifierAt (by decide) ⟨0, by decide, by decide, by decide, by decide⟩⟩

/-- `%%` and an argument after a specifier, as R275 gives them. -/
theorem test_writeFormatted_percent :
    after (.call (opN 2)) (formatSt 500 450 [37, 37, 37, 78, 37, 67] [5, 65] []) (fun t => t.output) = some (ascii "%5A") := by
  decide

/-- An odd, a negative and a boundary offset: lane 1 of 411, lane 1 of 411 from 412, lane 1 of the last word. -/
theorem witness_GetByteResult :
    ∀ x ∈ [((411 : Int), (1 : Int)), (412, -1), (19899, 1), (0, 0)],
      CallsSystem (opN 2) (callSt .getByte 500 [x.1, x.2] []) .getByte (500 + 2) ∧
      ArgsReadable (callSt .getByte 500 [x.1, x.2] []) (500 + 2) 2 ∧
      (callSt .getByte 500 [x.1, x.2] []).inBounds ((argAt (callSt .getByte 500 [x.1, x.2] []) (500 + 2) 0).toInt +
        (argAt (callSt .getByte 500 [x.1, x.2] []) (500 + 2) 1).toInt / 2) := by
  intro x hx
  refine ⟨callsSystem_callSt _ 500 _ _ (by decide), ?_⟩
  unfold ArgsReadable
  revert x
  decide

theorem witness_PutByteResult :
    ∀ x ∈ [((411 : Int), (1 : Int)), (412, -1), (19899, 1), (0, 0)],
      CallsSystem (opN 2) (callSt .putByte 500 [x.1, x.2, 384] []) .putByte (500 + 2) ∧
      ArgsReadable (callSt .putByte 500 [x.1, x.2, 384] []) (500 + 2) 3 ∧
      (callSt .putByte 500 [x.1, x.2, 384] []).inBounds
        ((argAt (callSt .putByte 500 [x.1, x.2, 384] []) (500 + 2) 0).toInt +
          (argAt (callSt .putByte 500 [x.1, x.2, 384] []) (500 + 2) 1).toInt / 2) := by
  intro x hx
  refine ⟨callsSystem_callSt _ 500 _ _ (by decide), ?_⟩
  unfold ArgsReadable
  revert x
  decide

/-- The addressed word just above and just below memory, the arguments readable; the same for Get-byte and Put-byte. -/
theorem witness_ByteCalls_outside :
    ∀ x ∈ [((19899 : Int), (2 : Int)), (0, -1), (19900, 0), (-1, 0)], ∀ n ∈ [SysName.getByte, .putByte],
      (∀ i < 3, (callSt n 500 [x.1, x.2, 384] []).inBounds (500 + 2 + 2 + (i : Nat))) ∧
      ¬ (callSt n 500 [x.1, x.2, 384] []).inBounds
        ((argAt (callSt n 500 [x.1, x.2, 384] []) (500 + 2) 0).toInt +
          (argAt (callSt n 500 [x.1, x.2, 384] []) (500 + 2) 1).toInt / 2) := by decide

theorem witness_GetVectorResult :
    CallsSystem (opN 2) (callSt .getVector 19895 [10] []) .getVector (19895 + 2) ∧
      (callSt .getVector 19895 [10] []).inBounds (19895 + 2 + 2) :=
  ⟨callsSystem_callSt _ 19895 _ _ (by decide), by decide⟩

theorem witness_LongJumpResult :
    (CallsSystem (opN 2) (callSt .longJump 19894 [429, 409] []) .longJump (19894 + 2) ∧
      ArgsReadable (callSt .longJump 19894 [429, 409] []) (19894 + 2) 2) ∧
    CallsSystem (opN 2) (callSt .longJump 19895 [429] []) .longJump (19895 + 2) ∧
      (callSt .longJump 19895 [429] []).inBounds (19895 + 2 + 2) ∧
      ¬ (callSt .longJump 19895 [429] []).inBounds (19895 + 2 + 3) :=
  ⟨⟨callsSystem_callSt _ 19894 _ _ (by decide), by intro i hi; interval_cases i <;> decide⟩,
    callsSystem_callSt _ 19895 _ _ (by decide), by decide, by decide⟩

/-- The closure of R208, and one whose four words end at the last word of memory. -/
theorem witness_MakeClosureResult :
    ∀ n ∈ [(3 : Int), -1, 19395],
      CallsSystem (opN 2) (callSt .makeClosure 498 [404, n] []) .makeClosure (498 + 2) ∧
      (∀ i ∈ [0, 1], (callSt .makeClosure 498 [404, n] []).inBounds (498 + 2 + 2 + (i : Nat))) ∧
      (501 + n : Int) = 498 + 2 + (argAt (callSt .makeClosure 498 [404, n] []) (498 + 2) 1).toInt + 1 ∧
      (callSt .makeClosure 498 [404, n] []).inBounds (501 + n) ∧
      (callSt .makeClosure 498 [404, n] []).inBounds (501 + n + 3) := by
  intro n h
  refine ⟨callsSystem_callSt _ 498 _ _ (by decide), ?_⟩
  revert n
  decide

/-- Frames whose first word, and whose last word, is the first one outside memory; and a second argument outside. -/
theorem witness_MakeClosureResult_faults :
    (∀ x ∈ [((19399 : Int), 0), (-502, 0), (19398, 1), (19397, 2), (19396, 3)],
      (∀ j ∈ List.range x.2, (callSt .makeClosure 498 [404, x.1] []).inBounds (501 + x.1 + (j : Nat))) ∧
        ¬ (callSt .makeClosure 498 [404, x.1] []).inBounds (501 + x.1 + (x.2 : Nat))) ∧
    (callSt .makeClosure 19895 [404] []).inBounds (19895 + 2 + 2) ∧
      ¬ (callSt .makeClosure 19895 [404] []).inBounds (19895 + 2 + 3) := by decide

theorem witness_ExecuteFindsOperatorAtRunTime :
    (st 7 6 410 []).faultReg = none ∧ ResolvesTo (opV 5) (st 7 6 410 []) (operatorNumber .multiply) ∧
      Operator.multiply ∉ [Operator.indirection, .ret, .switch] ∧
      (∃ t, exec (instrOfOperator .ret) { st 9 0 412 [(412, 410), (413, 403), (415, 4)] with
          pc := 404 + (opIP 3).words - 1 } = .next t ∧ t.faultReg = none) ∧
      ResolvesTo (opIP 3) (st 9 0 412 [(412, 410), (413, 403), (415, 4)]) (operatorNumber .ret) :=
  ⟨rfl, .inl ⟨rfl, by decide⟩, by decide,
    ⟨{ st 9 0 410 [(412, 410), (413, 403), (415, 4)] with pc := 403 }, nextOf_eq (by decide), rfl⟩,
    .inr ⟨rfl, by decide, by decide⟩⟩

/-- A canonical Indirection, Return and Switch that fault, the X's operand being their number. -/
theorem witness_ExecuteFindsOperatorAtRunTime_faults :
    ∀ x ∈ [(Operator.indirection, st 19900 0 410 []), (.ret, st 9 0 19899 []), (.switch, { st 2 0 410 [] with pc := 19898 })],
      x.2.faultReg = none ∧ ResolvesTo (opV (operatorNumber x.1)) x.2 (operatorNumber x.1) ∧
        ∃ t f, exec (instrOfOperator x.1) { x.2 with pc := x.2.pc + (opV (operatorNumber x.1)).words - 1 } = .next t ∧
          t.faultReg = some f := by
  intro x h
  simp only [List.mem_cons, List.not_mem_nil, or_false] at h
  have key : ∀ (i : Instr) (s : State) (f : FaultRecord), after i s (fun t => t.faultReg) = some (some f) →
      ∃ t f, exec i s = .next t ∧ t.faultReg = some f := by
    intro i s f h
    obtain ⟨t, ht, hr⟩ := Option.map_eq_some_iff.1 h
    exact ⟨t, f, nextOf_eq ht, hr⟩
  rcases h with rfl | rfl | rfl
  · exact ⟨rfl, .inl ⟨rfl, by decide⟩, key _ _ ⟨.memoryFault 19900 .read, some 405⟩ (by decide)⟩
  · exact ⟨rfl, .inl ⟨rfl, by decide⟩, key _ _ ⟨.memoryFault 19900 .read, some 405⟩ (by decide)⟩
  · exact ⟨rfl, .inl ⟨rfl, by decide⟩, key _ _ ⟨.memoryFault 19900 .read, some 19899⟩ (by decide)⟩

/-- The X form records its own address, 404, where the canonical word would record 405. -/
theorem test_execute_indirection_outside :
    after (.execute (opV 1)) (st 19900 0 410 []) (fun t => t.faultReg) =
      some (some ⟨.memoryFault 19900 .read, some 404⟩) := by decide

theorem witness_UnknownOperatorFaults :
    (ResolvesTo (opV (-1)) (st 0 0 410 []) (-1) ∧ ((-1 : Int) < 1 ∨ 23 < (-1 : Int))) ∧
    (ResolvesTo (opV 24) (st 0 0 410 []) 24 ∧ ((24 : Int) < 1 ∨ 23 < (24 : Int))) ∧
    ResolvesTo (opP 0) (st 0 0 0 []) 0 ∧ ((0 : Int) < 1 ∨ 23 < (0 : Int)) :=
  ⟨⟨.inl ⟨rfl, by decide⟩, by decide⟩, ⟨.inl ⟨rfl, by decide⟩, by decide⟩, .inl ⟨rfl, by decide⟩, by decide⟩

theorem witness_IndirectionResult :
    (st 19899 0 410 []).inBounds (st 19899 0 410 []).a.toInt ∧ (st 0 0 410 []).inBounds (st 0 0 410 []).a.toInt ∧
      ¬ (st 19900 0 410 []).inBounds (st 19900 0 410 []).a.toInt ∧
      ¬ (st (-1) 0 410 []).inBounds (st (-1) 0 410 []).a.toInt := by decide

/-- Both modes, a zero divisor, and a divisor at the edge. -/
theorem witness_RemainderResult :
    (st 0 5 410 []).a = 0 ∧ ((st (-1) (-32768) 410 []).a ≠ 0 ∧ (st (-1) (-32768) 410 []).params.remMode = .truncate) ∧
      (withParams smallParams (st (-32768) 1 410 [])).a ≠ 0 ∧
      (withParams smallParams (st (-32768) 1 410 [])).params.remMode = .floor := by decide

theorem witness_DivideRemainderIdentity :
    ∃ s t u : State, s.params.remMode = .floor ∧ s.a ≠ 0 ∧ exec .xDivide s = .next t ∧ exec .xRemainder s = .next u :=
  ⟨withParams smallParams (st (-2) 7 410 []), _, _, rfl, by decide, rfl, rfl⟩

theorem witness_ShiftResults :
    (st 16 1 410 []).params.rshMode = .logical ∧ (withParams smallParams (st (-1) 1 410 [])).params.rshMode = .arithmetic :=
  ⟨rfl, rfl⟩

theorem witness_FinishResult : (st 42 0 410 []).phase = .loaded ∧ (st 42 0 410 []).faultReg = none := ⟨rfl, rfl⟩

/-- The first two clauses of Switch, at the end of memory. -/
theorem witness_SwitchResult_head :
    (¬ ({ st 2 0 410 [] with pc := 19899 } : State).inBounds (19899 + 1)) ∧
    ({ st 2 0 410 [] with pc := 19898 } : State).inBounds (19898 + 1) ∧
      ¬ ({ st 2 0 410 [] with pc := 19898 } : State).inBounds (19898 + 2) := by decide

/-- The table of R243: `j` = 1 matches 2, `j` = 3 is past the table for 99, and a count of -1 has no pair. -/
theorem witness_SwitchResult_table :
    ((switchSt 2).inBounds 405 ∧ (switchSt 2).inBounds 406 ∧
      (∀ i : Nat, i < 1 → (i : Int) < (wordAt (switchSt 2) 405).toInt ∧ (switchSt 2).inBounds (404 + 3 + 2 * i) ∧
        (switchSt 2).inBounds (404 + 4 + 2 * i) ∧ wordAt (switchSt 2) (404 + 3 + 2 * i) ≠ (switchSt 2).a) ∧
      (1 : Int) < (wordAt (switchSt 2) 405).toInt ∧ wordAt (switchSt 2) (404 + 3 + 2 * 1) = (switchSt 2).a) ∧
    ((∀ i : Nat, i < 3 → (i : Int) < (wordAt (switchSt 99) 405).toInt ∧ (switchSt 99).inBounds (404 + 3 + 2 * i) ∧
        (switchSt 99).inBounds (404 + 4 + 2 * i) ∧ wordAt (switchSt 99) (404 + 3 + 2 * i) ≠ (switchSt 99).a) ∧
      (wordAt (switchSt 99) 405).toInt ≤ 3) ∧
    (wordAt (st 2 0 410 [(405, -1)]) 405).toInt ≤ 0 := by decide

/-- An X23 at 19897 whose table of one pair begins just above memory, and one at 19896 whose pair has its target there. -/
def switchEnd (at_ : Nat) : State := { st 2 0 410 [(at_ + 1, 1)] with pc := at_ }

theorem witness_SwitchResult_outside :
    ((switchEnd 19897).inBounds (19897 + 1) ∧ (switchEnd 19897).inBounds (19897 + 2) ∧
      (0 : Int) < (wordAt (switchEnd 19897) (19897 + 1)).toInt ∧ ¬ (switchEnd 19897).inBounds (19897 + 3)) ∧
    (switchEnd 19896).inBounds (19896 + 1) ∧ (switchEnd 19896).inBounds (19896 + 2) ∧
      (0 : Int) < (wordAt (switchEnd 19896) (19896 + 1)).toInt ∧ (switchEnd 19896).inBounds (19896 + 3) ∧
      ¬ (switchEnd 19896).inBounds (19896 + 4) := by decide

theorem witness_ByteReadAfterWrite :
    ∃ t, setByte (st 0 0 410 [(411, 18437)]) 412 (-1) 74 = .ok t ∧ (0 : Int) ≠ -1 :=
  ⟨(st 0 0 410 [(411, 18949)]), rfl, by decide⟩

theorem witness_OnlyLoadWritesB :
    ∃ (i : Instr) (s t : State), (∀ o, i ≠ .load o) ∧ exec i s = .next t ∧ t.a ≠ s.a :=
  ⟨.xMultiply, st 7 6 410 [], { st 42 6 410 [] with pc := 405 }, by simp, nextOf_eq (by decide), by decide⟩

/-- Finish, an X that finds 22 in its data word, and Stop, each of which clears the running flag. -/
theorem witness_OnlyFinishAndStopClearRunning :
    ∀ x ∈ [(Instr.xFinish, st 42 0 410 []), (.execute (opV 22), st 42 0 410 []), (.call (opN 2), callSt .stop 500 [3] [])],
      ∃ t, exec x.1 x.2 = .next t ∧ x.2.running = true ∧ t.running = false := by
  intro x h
  simp only [List.mem_cons, List.not_mem_nil, or_false] at h
  have key : ∀ (i : Instr) (s : State), after i s (fun t => t.running) = some false → s.running = true →
      ∃ t, exec i s = .next t ∧ s.running = true ∧ t.running = false := by
    intro i s h hs
    obtain ⟨t, ht, hr⟩ := Option.map_eq_some_iff.1 h
    exact ⟨t, nextOf_eq ht, hs, hr⟩
  rcases h with rfl | rfl | rfl <;> exact key _ _ (by decide) (by decide)

theorem witness_RuntimeStateOnlyMovesForward :
    ∃ (i : Instr) (s t : State), exec i s = .next t ∧ t.output = ascii "-7" ∧ s.output = [] := by
  have h : after (.call (opN 2)) (callSt .writeNumber 500 [-7] []) (fun t => t.output) = some (ascii "-7") := by decide
  obtain ⟨t, ht, ho⟩ := Option.map_eq_some_iff.1 h
  exact ⟨_, _, t, nextOf_eq ht, ho, rfl⟩

/-- A state that is not the reset state, in the smallest memory, and the step it takes. -/
theorem witness_StepKeepsInvariant :
    ∃ s t : State, Inv s ∧ step s = .next t ∧ t.faultReg = none := by
  refine ⟨withParams smallParams (st 7 6 404 [(404, 1287)]),
    withParams smallParams { st 42 6 404 [(404, 1287)] with pc := 405, steps := 1 }, ⟨valid_small, by decide, by decide,
      by decide, by decide, by decide, ⟨by decide, by decide, by decide, by decide, ?_, ?_⟩, fun _ => rfl⟩, nextOf_eq (by decide), rfl⟩
  · exact ⟨List.Pairwise.nil, fun x h => by cases h⟩
  · intro w h; cases h

/-- An engine at work meets the invariant too: the text `LL5`, its reference already read. -/
theorem witness_StepKeepsInvariant_engine :
    ∃ t : State, step { constructWithText Params.reference "LL5".toList [] with engine := item "LL5" } = .next t ∧
      t.engine.finished = true := ⟨_, rfl, by decide⟩

/-- The end of that run: the image is loaded, the warnings are kept, and the engine is discarded (R32, R130). -/
theorem test_assembly_end :
    let t := assemblyStep { constructWithText Params.reference "LL5".toList [] with
      engine := engineStep Params.reference (item "LL5") }
    t.engine = Engine.blank ∧ t.assembly = some (.assembled [.unresolvedLabel 5 405]) ∧ t.phase = .loaded := by
  rw [assemblyStep_finished (by decide) (by decide)]
  exact ⟨loadImage_engine _ _, (loadImage_assembly _ _).trans (by decide), loadImage_phase _ _⟩

/-- A fatal error: the engine is discarded, the error kept, and no step follows (R32, R110). -/
theorem test_assembly_fatal :
    let t := assemblyStep { constructWithText Params.reference "l5".toList [] with engine := item "l5" }
    t.engine = Engine.blank ∧ t.assembly = some (.failed (.syntaxError 0 (some 'l'))) ∧ step t = .fault .noImage :=
  ⟨by decide, by decide, rfl⟩

theorem witness_EveryRunEnds :
    (State.reset.phase = .loaded ∧ State.reset.steps ≤ State.reset.params.budget) ∧
      (withParams smallParams State.reset.countStep).steps ≤ (withParams smallParams State.reset.countStep).params.budget := by
  decide

theorem witness_LoadGivesStartState :
    (Params.reference.Valid ∧ ([] : List Int).length ≤ Params.reference.memSize) ∧
      smallParams.Valid ∧ (List.replicate 408 (65535 : Int)).length ≤ smallParams.memSize :=
  ⟨⟨valid_reference, by decide⟩, valid_small, by rw [List.length_replicate]; decide⟩

theorem witness_LoadFaultAndReuse :
    smallParams.memSize < (List.replicate 409 (0 : Int)).length ∧ (st 7 6 410 []).phase = .loaded ∧
      State.reset.halt.phase = .loaded ∧ load [] (construct smallParams []) = .next (loadImage [] (construct smallParams [])) :=
  ⟨by rw [List.length_replicate]; decide, rfl, rfl, rfl⟩

theorem witness_EmitWritesAtCursor :
    (Engine.start []).cursor < smallParams.memSize ∧ smallParams.memSize ≤ { Engine.start [] with cursor := 408 }.cursor := by
  decide

/-- A chain of one placeholder at 405, and the next reference at 407; the empty chain; and a defined label. -/
theorem witness_ReferenceExtendsChain :
    0 ≤ slotGet (item "LL5").table 5 ∧ ChainFrom (item "LL5").image 19900 (slotGet (item "LL5").table 5) [405] ∧
      407 ∉ [405] ∧ ChainFrom (item "LL5").image 19900 (slotGet (item "LL5").table 6) [] ∧
      slotGet (engineRun Params.reference 2 (Engine.start "5 ".toList)).table 5 = -404 :=
  ⟨by decide, ⟨by decide, by decide, by decide, show _ = _ by decide⟩, by decide, show _ = _ by decide, by decide⟩

/-- A reference to a defined label stores its address and leaves the table (R121). -/
theorem test_reference_defined :
    let e := engineRun Params.reference 2 (Engine.start "5 ".toList)
    readWord (reference e 5 500).image 500 = 404 ∧ (reference e 5 500).table = e.table := by decide

/-- The engine of `LL5 AL5 5` before its definition: the chain 407, 405 of section 2.8. -/
def chainEngine : Engine := engineStep Params.reference (item "LL5 AL5")

/-- The engine of `5 5` before its second definition. -/
def definedEngine : Engine := engineRun Params.reference 2 (Engine.start "5 ".toList)

/-- A chain, the empty chain of the last label, a defined label, and the labels next to the range. -/
theorem witness_DefinitionClosesChain :
    (chainEngine.fatal = none ∧ chainEngine.finished = false ∧ 5 < Params.reference.labMax ∧ [407, 405].Nodup ∧
      ChainFrom chainEngine.image Params.reference.memSize (slotGet chainEngine.table 5) [407, 405]) ∧
    (9999 < Params.reference.labMax ∧
      ChainFrom chainEngine.image Params.reference.memSize (slotGet chainEngine.table 9999) []) ∧
    (definedEngine.fatal = none ∧ definedEngine.finished = false ∧ slotGet definedEngine.table 5 < 0) ∧
    (Params.reference.labMax : Int) ≤ 10000 ∧ (-1 : Int) < 0 :=
  ⟨⟨by decide, by decide, by decide, by decide, by decide, by decide, by decide,
    ⟨by decide, by decide, by decide, show _ = _ by decide⟩⟩, ⟨by decide, show _ = _ by decide⟩,
    ⟨by decide, by decide, by decide⟩, by decide, by decide⟩

end Sys2Proof.Tests
end

section
/-! PROOFS. The scope of the machine: the data-word fault, and the invariant that every step keeps. -/

/-! ## The fetch and the instruction cycle -/

namespace Sys2Proof.Machine

/-- The fetch in all its cases (R163, R164, R165). -/
theorem fetch_eq (s : State) :
    fetch s =
      if s.inBounds s.pc then
        if takesDataWord (wordAt s s.pc) then
          if s.inBounds (s.pc + 1) then .ok (decodeWords (wordAt s s.pc) (wordAt s (s.pc + 1)))
          else .error (.memoryFault (s.pc + 1) .read)
        else .ok (decodeWords (wordAt s s.pc) 0)
      else .error (.memoryFault s.pc .fetch) := by
  unfold fetch wordAt
  rw [memReadAs_eq, memRead_eq]
  cases s.inBounds s.pc
  · rfl
  · cases s.inBounds (s.pc + 1) <;> rfl

theorem inBounds_of_fetch_ok {s : State} {i : Instr} (h : fetch s = .ok i) : s.inBounds s.pc = true := by
  rw [fetch_eq] at h
  by_contra hb
  rw [if_neg hb] at h
  cases h

section
variable {s : State}

theorem step_loaded (hp : s.phase = .loaded) : step s = coreStep s := by
  unfold step; rw [hp]

/-- A core that may step and whose fetch fails takes the fault of the fetch (R160, R169). -/
theorem coreStep_of_fetch_error {c : FaultCause} (hr : s.running = true) (hf : s.faultReg = none)
    (hb : s.steps ≠ s.params.budget) (h : fetch s = .error c) : coreStep s = .next (takeFault s c) := by
  simp [coreStep, hr, hf, hb, h, budgetSpent]

/-- A step of the core that answers takes a fault, or runs the instruction it fetched and counts it when it completes
(R160, R161). -/
theorem coreStep_next {t : State} (h : coreStep s = .next t) :
    (∃ c, t = takeFault s c) ∨
      ∃ i u, s.steps ≠ s.params.budget ∧ fetch s = .ok i ∧ exec i s = .next u ∧
        t = if u.faultReg.isNone then u.countStep else u := by
  unfold coreStep at h
  split at h
  · cases h
  split at h
  · cases h
  split at h
  · injection h with h; exact .inl ⟨_, h.symm⟩
  rename_i hbudget
  have hb : s.steps ≠ s.params.budget := by simpa [budgetSpent] using hbudget
  cases hf : fetch s with
  | error c => rw [hf] at h; injection h with h; exact .inl ⟨c, h.symm⟩
  | ok i =>
    rw [hf] at h
    cases he : exec i s with
    | next u =>
      simp only [he, retire_next] at h
      injection h with h
      exact .inr ⟨i, u, hb, rfl, he, h.symm⟩
    | fault r => simp only [he, retire] at h; cases h
    | refused r => simp only [he, retire] at h; cases h

end

/-- Settles O9: the fetch reads the instruction word and then faults on its data word. -/
theorem dataWordOutsideMemoryFaults : Obligations.DataWordOutsideMemoryFaults := by
  unfold Obligations.DataWordOutsideMemoryFaults
  intro s hp hr hf hb hpc hres hd hout
  have hfetch : fetch s = .error (.memoryFault (s.pc + 1) .read) := by
    rw [fetch_eq, if_pos hpc, if_pos ((takesDataWord_iff _).2 ⟨hres, hd⟩), if_neg hout]
  rw [step_loaded hp]
  exact coreStep_of_fetch_error hr hf hb hfetch

/-! ## The engine keeps its invariant (R32, R112, R120) -/

/-- An operation of the engine that succeeds leaves an engine that meets the invariant. -/
def YieldsInv (p : Params) (r : Except AsmError Engine) : Prop := ∀ e, r = .ok e → EngineInv p e

section
variable {p : Params} {e : Engine}

theorem yieldsInv_error (err : AsmError) : YieldsInv p (.error err) := fun _ h => by cases h

theorem yieldsInv_ok (h : EngineInv p e) : YieldsInv p (.ok e) := fun _ he => by injection he with he; exact he ▸ h

theorem yieldsInv_bind {α : Type} {x : Except AsmError α} {f : α → Except AsmError Engine}
    (h : ∀ v, x = .ok v → YieldsInv p (f v)) : YieldsInv p (x >>= f) := by
  intro e he
  obtain ⟨v, hv, he⟩ := asm_bind_ok_iff.1 he
  exact h v hv e he

/-- Two operations in a row: the second needs only the invariant of what the first leaves. -/
theorem yieldsInv_seq {x : Except AsmError Engine} {f : Engine → Except AsmError Engine}
    (hx : YieldsInv p x) (h : ∀ e, EngineInv p e → YieldsInv p (f e)) : YieldsInv p (x >>= f) :=
  yieldsInv_bind fun e he => h e (hx e he)

theorem checkLabel_lt {v : Int} {k : Nat} (h : checkLabel p v = .ok k) : k < p.labMax := by
  obtain ⟨h0, hlt, rfl⟩ := checkLabel_ok_iff.1 h
  omega

theorem emit_yieldsInv (h : EngineInv p e) (v : Int) : YieldsInv p (emit p e v) := fun _ => emit_inv h

theorem emitReference_yieldsInv {k : Nat} (h : EngineInv p e) (hk : k < p.labMax) :
    YieldsInv p (emitReference p e k) := fun _ => emitReference_inv h hk

/-- Writing one image word inside memory keeps the invariant. -/
theorem writeImage_inv {addr : Nat} (h : EngineInv p e) (ha : addr < p.memSize) (v : Word) :
    EngineInv p { e with image := writeWord e.image addr v } :=
  { h with image_wf := writeWord_wf h.image_wf _ _, image_within := writeWord_within h.image_within ha _ }

theorem operandGlobal_yieldsInv (h : EngineInv p e) (f : Nat) (i fr : Bool) (sc : Scan) :
    YieldsInv p (operandGlobal p e f i fr sc) :=
  yieldsInv_bind fun ⟨v, sc⟩ _ =>
    yieldsInv_seq (emit_yieldsInv (moveTo_inv h sc) _) fun _ h => emit_yieldsInv h v

theorem operandLabel_yieldsInv (h : EngineInv p e) (f : Nat) (i fr : Bool) (sc : Scan) :
    YieldsInv p (operandLabel p e f i fr sc) :=
  yieldsInv_bind fun ⟨_, sc⟩ _ => yieldsInv_bind fun _ hk =>
    yieldsInv_seq (emit_yieldsInv (moveTo_inv h sc) _) fun _ h => emitReference_yieldsInv h (checkLabel_lt hk)

theorem operandNumber_yieldsInv (h : EngineInv p e) (f : Nat) (i fr : Bool) (sc : Scan) :
    YieldsInv p (operandNumber p e f i fr sc) := by
  refine yieldsInv_bind fun ⟨v, sc⟩ _ => ?_
  dsimp only
  split
  · exact emit_yieldsInv (moveTo_inv h sc) _
  · exact yieldsInv_seq (emit_yieldsInv (moveTo_inv h sc) _) fun _ h => emit_yieldsInv h v

/-- An assembled instruction is one of the three operand forms, or a syntax error (R122). -/
theorem assembleInstruction_yieldsInv (h : EngineInv p e) (f : Nat) (sc : Scan) :
    YieldsInv p (assembleInstruction p e f sc) := by
  unfold assembleInstruction
  dsimp only
  split
  · exact yieldsInv_error _
  split
  · exact operandGlobal_yieldsInv h _ _ _ _
  split
  · exact operandLabel_yieldsInv h _ _ _ _
  split
  · exact operandNumber_yieldsInv h _ _ _ _
  · exact yieldsInv_error _

theorem directiveC_yieldsInv (h : EngineInv p e) (sc : Scan) : YieldsInv p (directiveC p e sc) :=
  yieldsInv_bind fun ⟨v, sc⟩ _ => emit_yieldsInv (moveTo_inv h sc) v

theorem directiveD_yieldsInv (h : EngineInv p e) (sc : Scan) : YieldsInv p (directiveD p e sc) := by
  unfold directiveD
  dsimp only
  split
  · exact yieldsInv_bind fun ⟨_, sc⟩ _ => yieldsInv_bind fun _ hk =>
      emitReference_yieldsInv (moveTo_inv h sc) (checkLabel_lt hk)
  · exact yieldsInv_bind fun ⟨v, sc⟩ _ => emit_yieldsInv (moveTo_inv h sc) v

/-- A global slot lies below word 401, so inside every legal memory (R6, R128). -/
theorem directiveG_yieldsInv (hp : p.Valid) (h : EngineInv p e) (sc : Scan) : YieldsInv p (directiveG p e sc) := by
  refine yieldsInv_bind fun ⟨g, sc⟩ _ => ?_
  dsimp only
  split
  · refine yieldsInv_bind fun ⟨v, sc⟩ _ => ?_
    dsimp only
    split
    · rename_i hg
      have hslot : g.toNat < p.memSize := by have := hp.memSize_ge; omega
      exact yieldsInv_bind fun k hk => yieldsInv_ok
        (reference_inv (writeImage_inv (moveTo_inv h sc) hslot 0) (checkLabel_lt hk) hslot)
    · exact yieldsInv_error _
  · exact yieldsInv_error _

theorem directiveZ_inv (h : EngineInv p e) (sc : Scan) : EngineInv p (directiveZ e sc) :=
  { moveTo_inv h sc with table_wf := tableWf_nil _ }

theorem finishText_inv (h : EngineInv p e) : EngineInv p (finishText e) := { h with }

theorem beginDefinition_yieldsInv (h : EngineInv p e) (v : Int) : YieldsInv p (beginDefinition p e v) := by
  refine yieldsInv_bind fun k hk => ?_
  have hw : ∀ w, some (⟨k, slotGet e.table k⟩ : ChainWalk) = some w → w.label < p.labMax := by
    rintro _ ⟨⟩; exact checkLabel_lt hk
  dsimp only
  split <;> exact yieldsInv_ok { h with walk_label := hw }

/-- One item of the text (R117). -/
theorem readItem_yieldsInv (hp : p.Valid) (h : EngineInv p e) : YieldsInv p (readItem p e) := by
  unfold readItem
  dsimp only
  split
  · exact yieldsInv_ok (finishText_inv (moveTo_inv h _))
  split
  · split
    · exact beginDefinition_yieldsInv (moveTo_inv h _) _
    · exact yieldsInv_error _
  split
  · exact assembleInstruction_yieldsInv h _ _
  split
  · exact directiveC_yieldsInv h _
  split
  · exact directiveD_yieldsInv h _
  split
  · exact directiveG_yieldsInv hp h _
  split
  · exact yieldsInv_ok (directiveZ_inv h _)
  · exact yieldsInv_error _

/-- One round of a chain walk writes a link inside memory, or closes the slot of a checked label (R118). -/
theorem walkChain_yieldsInv {w : ChainWalk} (h : EngineInv p e) (hw : w.label < p.labMax) :
    YieldsInv p (walkChain p e w) := by
  unfold walkChain
  split
  · split
    · exact yieldsInv_error _
    · rename_i hlink
      refine yieldsInv_ok { writeImage_inv h (by omega) _ with walk_label := ?_ }
      rintro _ ⟨⟩; exact hw
  · exact yieldsInv_ok { h with table_wf := slotSet_wf h.table_wf hw _, walk_label := by rintro _ ⟨⟩ }

theorem settleEngine_inv {r : Except AsmError Engine} (h : EngineInv p e) (hr : YieldsInv p r) :
    EngineInv p (settleEngine e r) := by
  cases r with
  | ok e' => exact hr e' rfl
  | error err => exact { h with }

theorem engineStep_inv (hp : p.Valid) (h : EngineInv p e) : EngineInv p (engineStep p e) := by
  unfold engineStep
  split
  · exact h
  split
  · rename_i w hw
    exact settleEngine_inv h (walkChain_yieldsInv h (h.walk_label w hw))
  · exact settleEngine_inv h (readItem_yieldsInv hp h)

end

/-! ## An assembly run keeps the invariant -/

/-- A load starts a run that meets the invariant, whether or not the image fits (R307, R332). -/
theorem loadImage_inv {s : State} (hp : s.params.Valid) (hw : s.mem.wf) (hn : s.mem.within s.params.memSize)
    (image : List Word) : Inv (loadImage image s) := by
  have hstart : Inv (startRegisters s) :=
    { params_valid := hp, mem_wf := hw, mem_within := hn
      pc_ge := (by decide : -65536 ≤ progStart), pc_le := (by decide : progStart ≤ 65534), steps_le := Nat.zero_le _
      engine := blank_inv hp, engine_discarded := fun _ => rfl }
  unfold loadImage
  split
  · exact { hstart with }
  · rename_i hfits
    exact { hstart with
      mem_wf := copyWords_wf hw _ _
      mem_within := copyWords_within (n := s.params.memSize) hn (by omega) }

theorem assemblyStep_inv {s : State} (h : Inv s) (hs : s.phase = .assembling) : Inv (assemblyStep s) := by
  cases hf : s.engine.fatal with
  | some err =>
    rw [assemblyStep_fatal hf]
    exact { h with engine := blank_inv h.params_valid, engine_discarded := fun _ => rfl }
  | none =>
    cases hd : s.engine.finished with
    | true =>
      rw [assemblyStep_finished hf hd]
      exact loadImage_inv (s := { s with engine := Engine.blank, assembly := some (.assembled s.engine.warnings) })
        h.params_valid h.mem_wf h.mem_within _
    | false =>
      rw [assemblyStep_engine hf hd]
      exact { h with
        engine := engineStep_inv h.params_valid h.engine
        engine_discarded := fun hne => absurd hs hne }

/-! ## Where an instruction leaves `pc` (R22) -/

/-- A body leaves `pc` where it stood, past the instruction, or puts the value of a Word in it. -/
def PcKeptOrWord (t u : State) : Prop := u.pc = t.pc ∨ ∃ w : Word, u.pc = w.toInt

theorem memWrite_pc {t u : State} {addr : Int} {v : Word} (h : memWrite t addr v = .ok u) : u.pc = t.pc := by
  obtain ⟨-, rfl⟩ := memWrite_ok_iff.1 h
  rfl

theorem runSyscall_pc {n : SysName} {frame : Int} {t u : State} (h : runSyscall n frame t = .ok u) :
    PcKeptOrWord t u := by
  cases n <;> simp only [runSyscall, sysSelectInput, sysSelectOutput, sysWriteChar, sysStop, sysLevel, sysLongJump,
    sysFindOutput, sysFindInput, sysWriteString, sysWriteNumber, sysWriteDecimalPadded, sysReadNumber, sysWriteHex,
    sysWriteFormatted, sysWriteOctal, sysGetByte, sysPutByte, sysGetVector, sysFreeVector, sysMakeClosure,
    bind_ok_iff, pure_eq_ok, Except.ok.injEq] at h
  case longJump => obtain ⟨_, -, newpc, -, rfl⟩ := h; exact .inr ⟨newpc, rfl⟩
  case makeClosure => obtain ⟨routine, -, _, -, _, -, _, -, _, -, _, -, rfl⟩ := h; exact .inr ⟨routine, rfl⟩
  case readChar => unfold sysReadChar at h; split at h <;> injection h with h <;> subst h <;> exact .inl rfl
  case putByte =>
    obtain ⟨_, -, _, -, _, -, h⟩ := h
    obtain ⟨-, rfl⟩ := setByte_ok_iff.1 h
    exact .inl rfl
  case level | findOutput | findInput | readNumber | freeVector => subst h; exact .inl rfl
  case selectInput | selectOutput | stop | getVector => obtain ⟨_, -, rfl⟩ := h; exact .inl rfl
  case getByte => obtain ⟨_, -, _, -, _, -, rfl⟩ := h; exact .inl rfl
  case writeChar | writeNumber => obtain ⟨_, -, rfl⟩ := h; exact .inl (out_pc _ _)
  case writeString | writeDecimalPadded | writeHex | writeOctal =>
    obtain ⟨_, -, _, -, rfl⟩ := h; exact .inl (out_pc _ _)
  case writeFormatted => obtain ⟨_, -, _, -, _, -, rfl⟩ := h; exact .inl (out_pc _ _)

theorem syscall_pc {ipc frame : Int} {t u : State} (h : syscall ipc frame t = .ok u) : PcKeptOrWord t u := by
  unfold syscall at h
  split at h
  · exact runSyscall_pc h
  · injection h with h; subst h; exact .inl rfl

theorem userCall_pc {frame : Int} {t u : State} (h : userCall frame t = .ok u) : PcKeptOrWord t u := by
  obtain ⟨-, -, rfl⟩ := userCall_ok_iff.1 h
  exact .inr ⟨t.a, rfl⟩

/-- Return and Switch put a Word in `pc`; no other operator writes it (R203, R243). -/
theorem runOperator_pc {op : Operator} {t u : State} (h : runOperator op t = .ok u) : PcKeptOrWord t u := by
  cases op
  case indirection =>
    simp only [runOperator, opIndirection, bind_ok_iff, pure_eq_ok, Except.ok.injEq] at h
    obtain ⟨_, -, rfl⟩ := h
    exact .inl rfl
  case ret =>
    obtain ⟨-, -, rfl⟩ := opReturn_ok_iff.1 h
    exact .inr ⟨_, rfl⟩
  case switch =>
    simp only [runOperator, opSwitch, bind_ok_iff, pure_eq_ok, Except.ok.injEq] at h
    obtain ⟨_, -, _, -, found, -, rfl⟩ := h
    exact .inr ⟨found, rfl⟩
  all_goals injection h with h; subst h; exact .inl rfl

/-- The values an instruction can leave in `pc`: at most two words on, a Word, or its resolved operand. -/
def PcReachable (s : State) (pc : Int) : Prop :=
  (∃ n : Nat, n ≤ 2 ∧ pc = s.pc + n) ∨ (∃ w : Word, pc = w.toInt) ∨ ∃ o, resolve o s = .ok pc

theorem operand_words_le (o : Operand) : o.words ≤ 2 := by
  unfold Operand.words; split <;> omega

theorem pcReachable_of_keptOrWord {s u : State} {n : Nat} (hn : n ≤ 2) (h : PcKeptOrWord (s.past n) u) :
    PcReachable s u.pc := by
  rcases h with h | h
  · exact .inl ⟨n, hn, h⟩
  · exact .inr (.inl h)

theorem pcReachable_of_takeFault (s : State) (c : FaultCause) : PcReachable s (takeFault s c).pc :=
  .inl ⟨0, by omega, by simp⟩

theorem withOperand_pcReachable {o : Operand} {s t : State} {body : Int → State → Except FaultCause State}
    (h : withOperand o s body = .next t)
    (hb : ∀ d u, body d (s.past o.words) = .ok u → PcKeptOrWord (s.past o.words) u ∨ u.pc = d) :
    PcReachable s t.pc := by
  rcases withOperand_next h with ⟨d, hd, h⟩ | ⟨c, rfl, -⟩
  · rcases hb d t h with h | h
    · exact pcReachable_of_keptOrWord (operand_words_le o) h
    · exact .inr (.inr ⟨o, h ▸ hd⟩)
  · exact pcReachable_of_takeFault s c

theorem exec_pcReachable {i : Instr} {s t : State} (h : exec i s = .next t) : PcReachable s t.pc := by
  rcases instr_cases i with ⟨op, rfl⟩ | ⟨o, hi⟩ | ⟨n, rfl⟩ | ⟨w, rfl⟩
  · rw [exec_instrOfOperator] at h
    rcases commit_next h with h | ⟨c, -, rfl⟩
    · exact pcReachable_of_keptOrWord (by omega) (runOperator_pc h)
    · exact pcReachable_of_takeFault s c
  · fin_cases hi
    · rw [exec_load] at h
      exact withOperand_pcReachable h fun d u h => by injection h with h; subst h; exact .inl (.inl rfl)
    · rw [exec_store] at h
      exact withOperand_pcReachable h fun d u h => .inl (.inl (memWrite_pc h))
    · rw [exec_add] at h
      exact withOperand_pcReachable h fun d u h => by injection h with h; subst h; exact .inl (.inl rfl)
    · rw [exec_jump] at h
      exact withOperand_pcReachable h fun d u h => by injection h with h; subst h; exact .inr rfl
    · rw [exec_testTrue] at h
      exact withOperand_pcReachable h fun d u h => by
        injection h with h; subst h; split; exacts [.inr rfl, .inl (.inl rfl)]
    · rw [exec_testFalse] at h
      exact withOperand_pcReachable h fun d u h => by
        injection h with h; subst h; split; exacts [.inr rfl, .inl (.inl rfl)]
    · rw [exec_call] at h
      refine withOperand_pcReachable h fun d u h => .inl ?_
      split at h
      · exact syscall_pc h
      · exact userCall_pc h
    · rw [exec_execute] at h
      refine withOperand_pcReachable h fun d u h => ?_
      obtain ⟨op, -, h⟩ := executeNumber_ok h
      exact .inl (runOperator_pc h)
  · rw [exec_unknownOperator] at h; injection h with h; subst h; exact pcReachable_of_takeFault s _
  · rw [exec_unknownOpcode] at h; injection h with h; subst h; exact pcReachable_of_takeFault s _

theorem word_toInt_bounds (w : Word) : -32768 ≤ w.toInt ∧ w.toInt ≤ 32767 := by
  have hlo := BitVec.le_toInt w
  have hhi := BitVec.toInt_lt (x := w)
  omega

theorem baseValue_bounds (b : OperandBase) : -32768 ≤ baseValue b ∧ baseValue b ≤ 32767 := by
  cases b with
  | inline n => have := n.isLt; simp only [baseValue]; omega
  | dataWord v => exact word_toInt_bounds v

/-- A resolved operand has 17 signed bits: it is a Word, or the sum of two (R22, R166). -/
theorem resolve_bounds {o : Operand} {s : State} {d : Int} (h : resolve o s = .ok d) : -65536 ≤ d ∧ d ≤ 65534 := by
  have hsum : -65536 ≤ operandSum o s ∧ operandSum o s ≤ 65534 := by
    have hbase := baseValue_bounds o.base
    have hsp := word_toInt_bounds s.sp
    unfold operandSum
    split <;> omega
  rw [resolve_eq] at h
  split at h
  · split at h
    · injection h with h
      have := word_toInt_bounds (readWord s.mem (operandSum o s).toNat)
      omega
    · cases h
  · injection h with h; omega

/-- An instruction fetched inside a legal memory leaves `pc` in 17 signed bits (R6, R22). -/
theorem pcReachable_bounds {s : State} {pc : Int} (hp : s.params.Valid) (hb : s.inBounds s.pc = true)
    (h : PcReachable s pc) : -65536 ≤ pc ∧ pc ≤ 65534 := by
  obtain ⟨h0, hlt⟩ := inBounds_iff.1 hb
  have hmem := hp.memSize_le
  rcases h with ⟨n, hn, rfl⟩ | ⟨w, rfl⟩ | ⟨o, ho⟩
  · omega
  · have := word_toInt_bounds w; omega
  · exact resolve_bounds ho

/-! ## The core keeps the invariant -/

theorem takeFault_inv {s : State} (h : Inv s) (c : FaultCause) : Inv (takeFault s c) := { h with }

theorem countStep_inv {s : State} (h : Inv s) (hlt : s.steps < s.params.budget) : Inv s.countStep :=
  { h with steps_le := hlt }

theorem setB_inv {s : State} (h : Inv s) (v : Word) : Inv (s.setB v) := { h with }

/-- What a completing instruction leaves alone is all of the invariant but the bounds of `pc`. -/
theorem Completes.inv {s t : State} (hc : Completes s t) (h : Inv s) (hpc : -65536 ≤ t.pc ∧ t.pc ≤ 65534) : Inv t where
  params_valid := hc.params ▸ h.params_valid
  mem_wf := hc.mem_wf h.mem_wf
  mem_within := hc.mem_within h.mem_within
  pc_ge := hpc.1
  pc_le := hpc.2
  steps_le := by rw [hc.steps, hc.params]; exact h.steps_le
  engine := by rw [hc.params, hc.engine]; exact h.engine
  engine_discarded := by rw [hc.phase, hc.engine]; exact h.engine_discarded

theorem exec_inv {i : Instr} {s t : State} (h : Inv s) (hb : s.inBounds s.pc = true) (he : exec i s = .next t) :
    Inv t := by
  have hpc := pcReachable_bounds h.params_valid hb (exec_pcReachable he)
  rcases exec_cases he with ⟨c, rfl⟩ | hc | ⟨o, d, -, -, rfl⟩
  · exact takeFault_inv h c
  · exact hc.inv h hpc
  · have hpast : Inv (s.past o.words) := (Completes.setPc s _).inv h hpc
    exact (Completes.setA _ _).inv (setB_inv hpast s.a) hpc

/-- No instruction counts itself or writes a parameter (R27, R62). -/
theorem exec_steps_params {i : Instr} {s t : State} (he : exec i s = .next t) :
    t.steps = s.steps ∧ t.params = s.params := by
  rcases exec_cases he with ⟨c, rfl⟩ | hc | ⟨o, d, -, -, rfl⟩
  · exact ⟨rfl, rfl⟩
  · exact ⟨hc.steps, hc.params⟩
  · exact ⟨rfl, rfl⟩

theorem coreStep_inv {s t : State} (h : Inv s) (hs : coreStep s = .next t) : Inv t := by
  rcases coreStep_next hs with ⟨c, rfl⟩ | ⟨i, u, hbudget, hfetch, he, rfl⟩
  · exact takeFault_inv h c
  · have hu : Inv u := exec_inv h (inBounds_of_fetch_ok hfetch) he
    split
    · obtain ⟨hsteps, hparams⟩ := exec_steps_params he
      refine countStep_inv hu ?_
      rw [hsteps, hparams]
      exact lt_of_le_of_ne h.steps_le hbudget
    · exact hu

/-- Settles O53, by the phase: a step of the assembly run or a step of the core. -/
theorem stepKeepsInvariant : Obligations.StepKeepsInvariant := by
  unfold Obligations.StepKeepsInvariant
  intro s t h hs
  cases hp : s.phase with
  | assembling =>
    simp only [step, hp] at hs
    injection hs with hs; subst hs
    exact assemblyStep_inv h hp
  | loaded => exact coreStep_inv h (step_loaded hp ▸ hs)
  | noImage | constructed => simp only [step, hp, reduceCtorEq] at hs

end Sys2Proof.Machine
end

section
/-! PROOFS. The state: which instruction writes `b` and the running flag, how the runtime state moves, and what a reference
and a definition do to a backpatch chain. -/

namespace Sys2Proof.Machine

/-! ## What an instruction leaves alone (R21, R27, R29, R31, R32) -/

/-- Settles O50: of the three things an instruction can do, only the last, a Load, writes `b`. -/
theorem onlyLoadWritesB : Obligations.OnlyLoadWritesB := by
  unfold Obligations.OnlyLoadWritesB
  intro i s t hload he
  rcases exec_cases he with ⟨c, rfl⟩ | hc | ⟨o, d, hi, -, -⟩
  · exact takeFault_b s c
  · exact hc.b
  · exact absurd hi (hload o)

/-- Settles O52: a fault and a Load leave the runtime state as it was, and `Completes` is what every other body keeps. -/
theorem runtimeStateOnlyMovesForward : Obligations.RuntimeStateOnlyMovesForward := by
  unfold Obligations.RuntimeStateOnlyMovesForward
  intro i s t he
  rcases exec_cases he with ⟨c, rfl⟩ | hc | ⟨o, d, -, -, rfl⟩
  · simp
  · exact ⟨hc.steps, hc.params, hc.engine, hc.assembly, hc.phase, hc.output, hc.warnings, hc.input⟩
  · simp

/-! ## The running flag (R25) -/

/-- The three stages of the model answer the operand of R83 and R84. -/
theorem resolve_ok_iff {o : Operand} {s : State} {d : Int} : resolve o s = .ok d ↔ ResolvesTo o s d := by
  have hsum : operandSum o s = SumOf o s := by
    unfold operandSum SumOf
    cases o.base <;> rfl
  rw [resolve_eq, hsum, ResolvesTo]
  cases o.indirect <;> cases s.inBounds (SumOf o s) <;> simp [eq_comm]

/-- A body that completes leaves the running flag of `t`. -/
def KeepsRunning (t : State) (r : Except FaultCause State) : Prop := ∀ u, r = .ok u → u.running = t.running

section
variable {t : State}

theorem keepsRunning_ok {u : State} (h : u.running = t.running) : KeepsRunning t (.ok u) :=
  fun _ hu => by injection hu with hu; exact hu ▸ h

theorem keepsRunning_bind {α : Type} {x : Except FaultCause α} {f : α → Except FaultCause State}
    (h : ∀ v, x = .ok v → KeepsRunning t (f v)) : KeepsRunning t (x >>= f) := by
  intro u hu
  obtain ⟨v, hv, hu⟩ := bind_ok_iff.1 hu
  exact h v hv u hu

/-- Two bodies in a row: the second starts with the flag that the first left. -/
theorem keepsRunning_seq {x : Except FaultCause State} {f : State → Except FaultCause State}
    (hx : KeepsRunning t x) (h : ∀ u, KeepsRunning u (f u)) : KeepsRunning t (x >>= f) :=
  keepsRunning_bind fun u hu v hv => (h u v hv).trans (hx u hu)

theorem memWrite_keepsRunning (t : State) (addr : Int) (v : Word) : KeepsRunning t (memWrite t addr v) := by
  intro u h
  obtain ⟨-, rfl⟩ := memWrite_ok_iff.1 h
  rfl

theorem setByte_keepsRunning (t : State) (addr off : Int) (v : Byte) : KeepsRunning t (setByte t addr off v) := by
  intro u h
  obtain ⟨-, rfl⟩ := setByte_ok_iff.1 h
  rfl

theorem userCall_keepsRunning (frame : Int) (t : State) : KeepsRunning t (userCall frame t) := by
  intro u h
  obtain ⟨-, -, rfl⟩ := userCall_ok_iff.1 h
  rfl

theorem sysMakeClosure_keepsRunning (frame : Int) (t : State) : KeepsRunning t (sysMakeClosure frame t) :=
  keepsRunning_bind fun _ _ => keepsRunning_bind fun _ _ =>
    keepsRunning_seq (memWrite_keepsRunning _ _ _) fun _ =>
    keepsRunning_seq (memWrite_keepsRunning _ _ _) fun _ =>
    keepsRunning_seq (memWrite_keepsRunning _ _ _) fun _ =>
    keepsRunning_seq (memWrite_keepsRunning _ _ _) fun _ => keepsRunning_ok rfl

/-- Every call but Stop leaves the running flag (R266). -/
theorem runSyscall_keepsRunning {n : SysName} (hn : n ≠ .stop) (frame : Int) (t : State) :
    KeepsRunning t (runSyscall n frame t) := by
  cases n
  case stop => exact absurd rfl hn
  case readChar =>
    simp only [runSyscall, sysReadChar]
    split <;> exact keepsRunning_ok rfl
  case level | findOutput | findInput | readNumber | freeVector => exact keepsRunning_ok rfl
  case selectInput | selectOutput | getVector => exact keepsRunning_bind fun _ _ => keepsRunning_ok rfl
  case longJump => exact keepsRunning_bind fun _ _ => keepsRunning_bind fun _ _ => keepsRunning_ok rfl
  case makeClosure => exact sysMakeClosure_keepsRunning frame t
  case writeChar | writeNumber => exact keepsRunning_bind fun _ _ => keepsRunning_ok (out_running _ _)
  case writeString | writeDecimalPadded | writeHex | writeOctal =>
    exact keepsRunning_bind fun _ _ => keepsRunning_bind fun _ _ => keepsRunning_ok (out_running _ _)
  case writeFormatted =>
    exact keepsRunning_bind fun _ _ => keepsRunning_bind fun _ _ => keepsRunning_bind fun _ _ =>
      keepsRunning_ok (out_running _ _)
  case getByte =>
    exact keepsRunning_bind fun _ _ => keepsRunning_bind fun _ _ => keepsRunning_bind fun _ _ => keepsRunning_ok rfl
  case putByte =>
    exact keepsRunning_bind fun _ _ => keepsRunning_bind fun _ _ => keepsRunning_bind fun _ _ =>
      setByte_keepsRunning _ _ _ _

/-- The system-call port leaves the running flag unless `a` has Stop's number (R260, R266). -/
theorem syscall_keepsRunning (ha : t.a ≠ t.params.sysNums.num .stop) (ipc frame : Int) :
    KeepsRunning t (syscall ipc frame t) := by
  unfold syscall
  split
  · rename_i n hn
    refine runSyscall_keepsRunning ?_ frame t
    rintro rfl
    exact ha (sysNameOf_some hn).symm
  · exact keepsRunning_ok rfl

/-- Every operator but Finish leaves the running flag (R242). -/
theorem runOperator_keepsRunning {op : Operator} (hop : op ≠ .finish) (t : State) :
    KeepsRunning t (runOperator op t) := by
  cases op
  case finish => exact absurd rfl hop
  case indirection => exact keepsRunning_bind fun _ _ => keepsRunning_ok rfl
  case ret => exact keepsRunning_bind fun _ _ => keepsRunning_bind fun _ _ => keepsRunning_ok rfl
  case switch =>
    exact keepsRunning_bind fun _ _ => keepsRunning_bind fun _ _ => keepsRunning_bind fun _ _ => keepsRunning_ok rfl
  all_goals exact keepsRunning_ok rfl

/-- An X leaves the running flag unless its operand is 22, the number of Finish (R85, R242). -/
theorem executeNumber_keepsRunning {d : Int} (hd : d ≠ 22) (t : State) : KeepsRunning t (executeNumber d t) := by
  intro u h
  obtain ⟨op, hop, h⟩ := executeNumber_ok h
  refine runOperator_keepsRunning ?_ t u h
  rintro rfl
  exact hd hop.symm

end

/-- The instructions that are Finish or Stop in the state `s` (R242, R266). -/
def FinishesOrStops (i : Instr) (s : State) : Prop :=
  i = .xFinish ∨ (∃ o, i = .execute o ∧ ResolvesTo o s 22) ∨ ∃ o, i = .call o ∧ s.a = s.params.sysNums.num .stop

/-- An instruction with an operand leaves the running flag when its body does on the resolved operand. -/
theorem withOperand_running {o : Operand} {s t : State} {body : Int → State → Except FaultCause State}
    (h : withOperand o s body = .next t)
    (hb : ∀ d, resolve o s = .ok d → KeepsRunning (s.past o.words) (body d (s.past o.words))) :
    t.running = s.running := by
  rcases withOperand_next h with ⟨d, hd, h⟩ | ⟨c, rfl, -⟩
  · exact hb d hd t h
  · rfl

/-- Every instruction that is neither Finish nor Stop leaves the running flag, whether or not it faults. -/
theorem exec_running {i : Instr} {s t : State} (hi : ¬ FinishesOrStops i s) (h : exec i s = .next t) :
    t.running = s.running := by
  rcases instr_cases i with ⟨op, rfl⟩ | ⟨o, ho⟩ | ⟨n, rfl⟩ | ⟨w, rfl⟩
  · have hop : op ≠ .finish := by rintro rfl; exact hi (.inl rfl)
    rw [exec_instrOfOperator] at h
    rcases commit_next h with h | ⟨c, -, rfl⟩
    · exact runOperator_keepsRunning hop (s.past 1) t h
    · rfl
  · fin_cases ho
    · rw [exec_load] at h; exact withOperand_running h fun _ _ => keepsRunning_ok rfl
    · rw [exec_store] at h; exact withOperand_running h fun _ _ => memWrite_keepsRunning _ _ _
    · rw [exec_add] at h; exact withOperand_running h fun _ _ => keepsRunning_ok rfl
    · rw [exec_jump] at h; exact withOperand_running h fun _ _ => keepsRunning_ok rfl
    · rw [exec_testTrue] at h
      exact withOperand_running h fun _ _ => keepsRunning_ok (by split <;> rfl)
    · rw [exec_testFalse] at h
      exact withOperand_running h fun _ _ => keepsRunning_ok (by split <;> rfl)
    · have hstop : s.a ≠ s.params.sysNums.num .stop := fun ha => hi (.inr (.inr ⟨o, rfl, ha⟩))
      rw [exec_call] at h
      refine withOperand_running h fun d _ => ?_
      split
      · exact syscall_keepsRunning (t := s.past o.words) hstop _ _
      · exact userCall_keepsRunning _ _
    · rw [exec_execute] at h
      refine withOperand_running h fun d hd => executeNumber_keepsRunning ?_ _
      rintro rfl
      exact hi (.inr (.inl ⟨o, rfl, resolve_ok_iff.1 hd⟩))
  · rw [exec_unknownOperator] at h; injection h with h; subst h; rfl
  · rw [exec_unknownOpcode] at h; injection h with h; subst h; rfl

/-- No instruction sets the running flag (R25). -/
theorem exec_never_sets_running {i : Instr} {s t : State} (h : exec i s = .next t) (ht : t.running = true) :
    s.running = true := by
  rcases exec_cases h with ⟨c, rfl⟩ | hc | ⟨o, d, -, -, rfl⟩
  · exact ht
  · exact hc.running ht
  · exact ht

/-- Settles O51: an instruction that is neither Finish nor Stop leaves the flag, so one that clears it is one of them. -/
theorem onlyFinishAndStopClearRunning : Obligations.OnlyFinishAndStopClearRunning := by
  unfold Obligations.OnlyFinishAndStopClearRunning
  intro i s t he
  refine ⟨exec_never_sets_running he, fun hs ht => ?_⟩
  by_contra hi
  have hkept : t.running = s.running := exec_running hi he
  rw [hs, ht] at hkept
  cases hkept

/-! ## Words of the image (R55) -/

/-- A Word read answers the Word last written there, and a write leaves every other Word. -/
theorem readWord_writeWord (m : Memory) (i j : Nat) (v : Word) :
    readWord (writeWord m i v) j = if j = i then v else readWord m j := by
  unfold readWord
  rw [readByte_writeWord, readByte_writeWord]
  by_cases h : j = i
  · subst h
    have hlanes : v.extractLsb' 8 8 ++ v.extractLsb' 0 8 = v := by
      rw [BitVec.extractLsb'_append_extractLsb'_eq_extractLsb' (by rfl)]
      exact BitVec.extractLsb'_eq_self
    rw [if_pos rfl, if_neg (by omega), if_pos rfl, if_pos rfl]
    exact hlanes
  · rw [if_neg (by omega), if_neg (by omega), if_neg (by omega), if_neg (by omega), if_neg h]

theorem readWord_writeWord_same (m : Memory) (i : Nat) (v : Word) : readWord (writeWord m i v) i = v := by
  rw [readWord_writeWord, if_pos rfl]

theorem readWord_writeWord_ne {m : Memory} {i j : Nat} {v : Word} (h : j ≠ i) :
    readWord (writeWord m i v) j = readWord m j := by
  rw [readWord_writeWord, if_neg h]

/-! ## Backpatch chains (R33, R121) -/

/-- A chain reads nothing but its own placeholders. -/
theorem chainFrom_congr {m m' : Memory} {size : Nat} {s : Int} {ps : List Nat}
    (hm : ∀ q ∈ ps, readWord m' q = readWord m q) (h : ChainFrom m size s ps) : ChainFrom m' size s ps := by
  induction ps generalizing s with
  | nil => exact h
  | cons q ps ih =>
    obtain ⟨hs, hpos, hlt, hrest⟩ := h
    refine ⟨hs, hpos, hlt, ?_⟩
    rw [hm q (by simp)]
    exact ih (fun x hx => hm x (by simp [hx])) hrest

/-- A write outside a chain leaves it a chain. -/
theorem chainFrom_writeWord {m : Memory} {size addr : Nat} {s : Int} {ps : List Nat} (v : Word) (ha : addr ∉ ps)
    (h : ChainFrom m size s ps) : ChainFrom (writeWord m addr v) size s ps :=
  chainFrom_congr (fun _ hq => readWord_writeWord_ne (ne_of_mem_of_not_mem hq ha)) h

/-- The head of a chain is 0 or one of its placeholders. -/
theorem chainFrom_head_bounds {m : Memory} {size : Nat} {s : Int} {ps : List Nat} (h : ChainFrom m size s ps) :
    0 ≤ s ∧ s ≤ size := by
  cases ps with
  | nil => have hs : s = 0 := h; omega
  | cons q ps => obtain ⟨hs, -, hlt, -⟩ := h; omega

/-- The value of a slot that a Word can hold survives being stored (R9). -/
theorem wrap16_toInt {x : Int} (h0 : 0 ≤ x) (h1 : x ≤ 32767) : (wrap16 x).toInt = x := by
  unfold wrap16
  rw [BitVec.toInt_ofInt]
  exact Int.bmod_eq_of_le (by omega) (by omega)

/-- Storing the head of a chain in a new placeholder puts that placeholder before it. -/
theorem chainFrom_cons {m : Memory} {size addr : Nat} {s : Int} {ps : List Nat} (hsize : size ≤ 32767) (h0 : 0 < addr)
    (hlt : addr < size) (ha : addr ∉ ps) (h : ChainFrom m size s ps) :
    ChainFrom (writeWord m addr (wrap16 s)) size addr (addr :: ps) := by
  refine ⟨rfl, h0, hlt, ?_⟩
  obtain ⟨hs0, hsle⟩ := chainFrom_head_bounds h
  rw [readWord_writeWord_same, wrap16_toInt hs0 (by omega)]
  exact chainFrom_writeWord _ ha h

theorem reference_readWord_ne {e : Engine} {k addr i : Nat} (h : i ≠ addr) :
    readWord (reference e k addr).image i = readWord e.image i := by
  by_cases hs : slotGet e.table k < 0
  · rw [reference_defined hs]; exact readWord_writeWord_ne h
  · rw [reference_open (by omega)]; exact readWord_writeWord_ne h

/-- Settles O59, by the two cases of R121: the label is defined, or its chain is open. -/
theorem referenceExtendsChain : Obligations.ReferenceExtendsChain := by
  unfold Obligations.ReferenceExtendsChain
  intro e k addr
  refine ⟨_, rfl, fun i hi => reference_readWord_ne hi, fun hs => ?_, fun hs => ?_⟩
  · rw [reference_defined hs]
    exact ⟨readWord_writeWord_same _ _ _, rfl⟩
  · rw [reference_open hs]
    have hslot : slotGet (slotSet e.table k addr) k = addr := by rw [slotGet_slotSet, if_pos rfl]
    refine ⟨readWord_writeWord_same _ _ _, hslot, fun j hj => ?_, rfl, fun size ps hsize h0 hlt ha hc => ?_⟩
    · rw [slotGet_slotSet, if_neg hj]
    · rw [hslot]
      exact chainFrom_cons hsize h0 hlt ha hc

/-! ## The chain walk of a definition (R118, R119) -/

/-- The image with `v` written at every address of `ps`. -/
def patchWords (v : Word) : List Nat → Memory → Memory
  | [], m => m
  | q :: ps, m => patchWords v ps (writeWord m q v)

theorem readWord_patchWords (v : Word) (ps : List Nat) (m : Memory) (i : Nat) :
    readWord (patchWords v ps m) i = if i ∈ ps then v else readWord m i := by
  induction ps generalizing m with
  | nil => simp [patchWords]
  | cons q ps ih =>
    rw [patchWords, ih, readWord_writeWord]
    by_cases hps : i ∈ ps
    · simp [hps]
    · simp [hps, List.mem_cons]

section
variable {p : Params} {e : Engine}

theorem engineStep_of_walkChain {e' : Engine} {w : ChainWalk} (hf : e.fatal = none) (hn : e.finished = false)
    (hw : e.walk = some w) (h : walkChain p e w = .ok e') : engineStep p e = e' := by
  rw [engineStep_walk hf hn hw, h]; rfl

/-- The walk of a chain patches its placeholders one a step, and one more step closes the slot (R118). -/
theorem engineRun_walk {k : Nat} {s : Int} {ps : List Nat} (hf : e.fatal = none) (hn : e.finished = false)
    (hw : e.walk = some ⟨k, s⟩) (hnd : ps.Nodup) (hc : ChainFrom e.image p.memSize s ps) :
    engineRun p (ps.length + 1) e = { e with
      image := patchWords (wrap16 e.cursor) ps e.image
      table := slotSet e.table k (-(e.cursor : Int))
      walk := none } := by
  induction ps generalizing e s with
  | nil =>
    have hs : s = 0 := hc
    exact engineStep_of_walkChain hf hn hw (walkChain_end (Int.le_of_eq hs))
  | cons q ps ih =>
    obtain ⟨rfl, hpos, hlt, hrest⟩ := hc
    obtain ⟨hq, hnd⟩ := List.nodup_cons.1 hnd
    rw [List.length_cons, engineRun, engineStep_of_walkChain hf hn hw (walkChain_link hpos hlt)]
    exact ih hf hn rfl hnd (chainFrom_writeWord _ hq hrest)

/-- A walk whose link is not positive is at its end (R118, R119). -/
theorem engineRun_walk_end {w : ChainWalk} (hf : e.fatal = none) (hn : e.finished = false) (hw : e.walk = some w)
    (h : w.link ≤ 0) :
    engineRun p 1 e = { e with table := slotSet e.table w.label (-(e.cursor : Int)), walk := none } :=
  engineStep_of_walkChain hf hn hw (walkChain_end h)

end

/-- Settles O60: a definition starts its walk at the label's slot, which heads an open chain or holds an old definition. -/
theorem definitionClosesChain : Obligations.DefinitionClosesChain := by
  unfold Obligations.DefinitionClosesChain
  intro p e
  refine ⟨fun v hv => beginDefinition_error hv, fun k hk hf hn => ?_⟩
  have hclosed : slotGet (slotSet e.table k (-(e.cursor : Int))) k = -(e.cursor : Int) := by
    rw [slotGet_slotSet, if_pos rfl]
  have hother : ∀ j, j ≠ k → slotGet (slotSet e.table k (-(e.cursor : Int))) j = slotGet e.table j := fun j hj => by
    rw [slotGet_slotSet, if_neg hj]
  by_cases hs : slotGet e.table k < 0
  · refine ⟨_, beginDefinition_duplicate hk hs, rfl, fun ps _ hc => ?_, fun _ => ?_⟩
    · exact absurd (chainFrom_head_bounds hc).1 (by omega)
    · exact ⟨_, engineRun_walk_end hf hn rfl hs.le, hclosed, hother, rfl⟩
  · refine ⟨_, beginDefinition_open hk (by omega), rfl, fun ps hnd hc => ?_, fun h => absurd h hs⟩
    exact ⟨_, engineRun_walk hf hn rfl hnd hc, readWord_patchWords _ _ _, hclosed, hother, rfl⟩

end Sys2Proof.Machine
end

section
/-! PROOFS. Memory: reads after writes by Word and by byte, the system calls that read or write packed bytes, and the
load of an image that does not fit. -/

namespace Sys2Proof.Machine

/-! ## Words (R55, R62) -/

/-- Settles O48, by the two lanes of the Word. -/
theorem wordReadAfterWrite : Obligations.WordReadAfterWrite := by
  unfold Obligations.WordReadAfterWrite
  exact readWord_writeWord

/-! ## The two lanes of a Word (R56, R57) -/

theorem extract_readWord (m : Memory) (i : Nat) {lane : Nat} (h : lane < 2) :
    (readWord m i).extractLsb' (8 * lane) 8 = readByte m (2 * i + lane) := by
  interval_cases lane
  · exact BitVec.extractLsb'_append_eq_right
  · exact BitVec.extractLsb'_append_eq_left

/-- The byte at a lane, as a quotient of the pattern of its Word. -/
theorem ofNat_div_lane (w : Word) (lane : Nat) :
    BitVec.ofNat 8 (w.toNat / 256 ^ lane) = w.extractLsb' (8 * lane) 8 := by
  apply BitVec.eq_of_toNat_eq
  rw [BitVec.toNat_ofNat, BitVec.extractLsb'_toNat, Nat.shiftRight_eq_div_pow, pow_mul]
  rfl

theorem getLsbD_byteMask (j : Nat) : (0xFF : Word).getLsbD j = decide (j < 8) :=
  Nat.testBit_two_pow_sub_one 8 j

/-- `mergeLane` takes the bits of its lane from the byte and every other bit from the Word. -/
theorem getLsbD_mergeLane (w : Word) (lane : Nat) (v : Byte) {j : Nat} (hj : j < 16) :
    (mergeLane w lane v).getLsbD j =
      if 8 * lane ≤ j ∧ j < 8 * lane + 8 then v.getLsbD (j - 8 * lane) else w.getLsbD j := by
  simp only [mergeLane, BitVec.getLsbD_or, BitVec.getLsbD_and, BitVec.getLsbD_not, BitVec.getLsbD_shiftLeft,
    BitVec.getLsbD_setWidth, getLsbD_byteMask]
  by_cases hlow : j < 8 * lane
  · rw [if_neg (by omega)]
    simp [hj, hlow]
  by_cases hin : j - 8 * lane < 8
  · rw [if_pos (by omega)]
    have hbit : j - 8 * lane < 16 := by omega
    simp [hj, hlow, hin, hbit]
  · rw [if_neg (by omega)]
    have hbyte : v.getLsbD (j - 8 * lane) = false := BitVec.getLsbD_of_ge _ _ (by omega)
    simp [hj, hin, hbyte]

theorem extract_mergeLane (w : Word) (v : Byte) {lane l : Nat} (hl : l < 2) :
    (mergeLane w lane v).extractLsb' (8 * l) 8 = if l = lane then v else w.extractLsb' (8 * l) 8 := by
  apply BitVec.eq_of_getLsbD_eq
  intro i hi
  rw [BitVec.getLsbD_extractLsb', getLsbD_mergeLane _ _ _ (by omega)]
  by_cases hll : l = lane
  · rw [if_pos hll, if_pos (by omega)]
    simp [hi, hll]
  · rw [if_neg hll, if_neg (by omega), BitVec.getLsbD_extractLsb']

/-- The lanes after one lane of a Word was replaced. -/
theorem readByte_writeWord_mergeLane (m : Memory) (i : Nat) {lane : Nat} (h : lane < 2) (v : Byte) (key : Nat) :
    readByte (writeWord m i (mergeLane (readWord m i) lane v)) key =
      if key = 2 * i + lane then v else readByte m key := by
  by_cases hi : key / 2 = i
  · obtain ⟨l, hl, rfl⟩ : ∃ l < 2, key = 2 * i + l := ⟨key % 2, by omega, by omega⟩
    rw [← extract_readWord _ _ hl, readWord_writeWord_same, extract_mergeLane _ _ hl, extract_readWord _ _ hl]
    simp only [Nat.add_left_cancel_iff]
  · rw [readByte_writeWord, if_neg (by omega), if_neg (by omega), if_neg (by omega)]

/-! ## The byte helper (R56) -/

/-- The lane that holds byte `off` from `addr`. -/
def byteKey (addr off : Int) : Nat := 2 * (byteWord addr off).toNat + (off % 2).toNat

theorem lane_lt_two (off : Int) : (off % 2).toNat < 2 := by omega

/-- In bounds the lane is at the exact byte offset from the first lane of `addr`. -/
theorem byteKey_cast {s : State} {addr off : Int} (h : s.inBounds (byteWord addr off)) :
    (byteKey addr off : Int) = 2 * addr + off := by
  have h0 := (inBounds_iff.1 h).1
  unfold byteKey
  unfold byteWord at *
  omega

theorem byteAt_eq_readByte (s : State) (addr off : Int) : byteAt s addr off = readByte s.mem (byteKey addr off) := by
  unfold byteAt wordAt byteKey
  rw [ofNat_div_lane, extract_readWord _ _ (lane_lt_two off)]

/-- A byte read answers its byte, or faults where its word is outside memory. -/
theorem getByte_eq_byteAt (s : State) (addr off : Int) :
    getByte s addr off =
      if s.inBounds (byteWord addr off) then .ok (byteAt s addr off)
      else .error (.memoryFault (byteWord addr off) .read) := getByte_eq s addr off

/-- The floor division of the model is the division of integers, the divisor being positive. -/
theorem laneAddr_eq (addr off : Int) : laneAddr addr off = byteWord addr off := by
  rw [laneAddr, Int.fdiv_eq_ediv_of_nonneg _ (by omega), byteWord]

/-- The memory after byte `off` from `addr` was replaced. -/
def setLane (m : Memory) (addr off : Int) (v : Byte) : Memory :=
  writeWord m (byteWord addr off).toNat (mergeLane (readWord m (byteWord addr off).toNat) (off % 2).toNat v)

theorem readByte_setLane (m : Memory) (addr off : Int) (v : Byte) (key : Nat) :
    readByte (setLane m addr off v) key = if key = byteKey addr off then v else readByte m key :=
  readByte_writeWord_mergeLane m _ (lane_lt_two off) v key

@[simp] theorem inBounds_setMem (s : State) (m : Memory) (addr : Int) :
    (s.setMem m).inBounds addr = s.inBounds addr := rfl

/-- The bytes after one was replaced: those on the same lane, and all others. -/
theorem byteAt_setLane (s : State) (addr off : Int) (v : Byte) (off' : Int) :
    byteAt (s.setMem (setLane s.mem addr off v)) addr off' =
      if byteKey addr off' = byteKey addr off then v else byteAt s addr off' := by
  rw [byteAt_eq_readByte, setMem_mem, readByte_setLane, ← byteAt_eq_readByte]

/-- A byte write replaces one lane, or faults with kind read, as it reads its Word first. -/
theorem setByte_eq (s : State) (addr off : Int) (v : Byte) :
    setByte s addr off v =
      if s.inBounds (byteWord addr off) then .ok (s.setMem (setLane s.mem addr off v))
      else .error (.memoryFault (byteWord addr off) .read) := by
  unfold setByte
  rw [laneAddr_eq]
  by_cases hb : s.inBounds (byteWord addr off)
  · rw [memRead_ok hb, if_pos hb]
    exact memWrite_ok hb
  · rw [memRead_fault hb, if_neg hb]

/-- Settles O49: the lanes of two offsets differ wherever both words are in memory. -/
theorem byteReadAfterWrite : Obligations.ByteReadAfterWrite := by
  unfold Obligations.ByteReadAfterWrite
  intro s t addr off v h
  by_cases hb : s.inBounds (byteWord addr off)
  case neg => rw [setByte_eq, if_neg hb] at h; cases h
  rw [setByte_eq, if_pos hb] at h
  injection h with h
  subst h
  refine ⟨by rw [getByte_eq_byteAt, inBounds_setMem, byteAt_setLane, if_pos hb, if_pos rfl], fun off' hne => ?_⟩
  rw [getByte_eq_byteAt, getByte_eq_byteAt, inBounds_setMem, byteAt_setLane]
  by_cases hb' : s.inBounds (byteWord addr off')
  · have hkey : byteKey addr off' ≠ byteKey addr off := by
      have hoff := byteKey_cast hb
      have hoff' := byteKey_cast hb'
      omega
    rw [if_neg hkey]
  · rw [if_neg hb', if_neg hb']

/-! ## A Call that is a system call (R200, R260, R284) -/

section
variable {o : Operand} {s : State} {n : SysName} {frame : Int}

/-- A Call with the number of a system call in `a` runs that call with `pc` past the instruction. -/
theorem exec_callsSystem (h : CallsSystem o s n frame) :
    exec (.call o) s = commit s (runSyscall n frame (s.past o.words)) := by
  obtain ⟨hvalid, ha, d, hd, rfl⟩ := h
  have hlow : s.a.toInt < progStart := ha ▸ (hvalid.sysNum_range n (mem_sysName_all n)).1
  have hname : sysNameOf (s.past o.words).params.sysNums (s.past o.words).a = some n := by
    rw [past_params, past_a, ha]
    exact sysNameOf_num hvalid n
  rw [exec_call_system (resolve_ok_iff.2 hd) hlow, syscall, hname]

theorem exec_callsSystem_ok {u : State} (h : CallsSystem o s n frame)
    (hr : runSyscall n frame (s.past o.words) = .ok u) : exec (.call o) s = .next u := by
  rw [exec_callsSystem h, hr, commit_ok]

/-- A system call that fails leaves only its fault (R169, R261). -/
theorem exec_callsSystem_fault {c : FaultCause} (h : CallsSystem o s n frame)
    (hr : runSyscall n frame (s.past o.words) = .error c) : exec (.call o) s = .next (Faulted s c) := by
  rw [exec_callsSystem h, hr, commit_error]; rfl

end

/-! ## Arguments of a system call (R261) -/

section
variable {α : Type} {t : State} {frame : Int} {i : Nat} {f : Word → Except FaultCause α}

theorem argument_bind_ok (h : t.inBounds (frame + 2 + i)) : argument t frame i >>= f = f (argAt t frame i) := by
  rw [argument, memRead_ok h]; rfl

theorem argument_bind_fault (h : ¬ t.inBounds (frame + 2 + i)) :
    argument t frame i >>= f = .error (.memoryFault (frame + 2 + i) .read) := by
  rw [argument, memRead_fault h]; rfl

end

/-! ## Reads past the instruction: moving `pc` moves no byte of memory -/

@[simp] theorem inBounds_past (s : State) (n : Nat) (addr : Int) : (s.past n).inBounds addr = s.inBounds addr := rfl

@[simp] theorem argAt_past (s : State) (n : Nat) (frame : Int) (i : Nat) :
    argAt (s.past n) frame i = argAt s frame i := rfl

@[simp] theorem byteAt_past (s : State) (n : Nat) (addr off : Int) :
    byteAt (s.past n) addr off = byteAt s addr off := rfl

/-! ## Get-byte (R277) -/

theorem zeroExtend_ofNat_byte (n : Nat) : (BitVec.ofNat 8 n).zeroExtend 16 = wrap16 ((n : Int) % 256) := by
  apply BitVec.eq_of_toNat_eq
  simp only [wrap16, BitVec.toNat_setWidth, BitVec.toNat_ofNat, BitVec.toNat_ofInt]
  omega

section
variable {t : State} {frame : Int}

theorem sysGetByte_eq (h : ArgsReadable t frame 2) :
    sysGetByte frame t =
      if t.inBounds (byteWord (argAt t frame 0).toInt (argAt t frame 1).toInt) then
        .ok (t.setA ((byteAt t (argAt t frame 0).toInt (argAt t frame 1).toInt).zeroExtend 16))
      else .error (.memoryFault (byteWord (argAt t frame 0).toInt (argAt t frame 1).toInt) .read) := by
  rw [sysGetByte, argument_bind_ok (h 0 (by omega)), argument_bind_ok (h 1 (by omega)), getByte_eq_byteAt]
  split <;> rfl

theorem sysGetByte_badArgument {i : Nat} (hi : i < 2) (h : FirstBadArgument t frame i) :
    sysGetByte frame t = .error (.memoryFault (frame + 2 + i) .read) := by
  obtain ⟨hread, hbad⟩ := h
  interval_cases i
  · exact argument_bind_fault hbad
  · rw [sysGetByte, argument_bind_ok (hread 0 (by omega)), argument_bind_fault hbad]

end

/-- Settles O32: the call is one byte read at its two arguments. -/
theorem getByteResult : Obligations.GetByteResult := by
  unfold Obligations.GetByteResult
  intro o s frame hcall
  refine ⟨fun i hi hbad => exec_callsSystem_fault hcall (sysGetByte_badArgument hi hbad), fun hargs addr haddr => ?_⟩
  have hrun := sysGetByte_eq (t := s.past o.words) hargs
  rw [inBounds_past, byteAt_past, argAt_past, argAt_past] at hrun
  subst haddr
  refine ⟨fun hb => ?_, fun hb => exec_callsSystem_fault hcall (hrun.trans (if_neg hb))⟩
  rw [exec_callsSystem_ok hcall (hrun.trans (if_pos hb)), byteAt, zeroExtend_ofNat_byte]
  push_cast
  rfl

/-! ## Put-byte (R278) -/

/-- The byte that Put-byte and Write-char take from a Word. -/
theorem extract_low_byte (v : Word) : v.extractLsb' 0 8 = BitVec.ofInt 8 (v.toInt % 256) := by
  apply BitVec.eq_of_toNat_eq
  rw [BitVec.extractLsb'_toNat, BitVec.toNat_ofInt, BitVec.toInt_eq_toNat_cond]
  have := v.isLt
  split <;> omega

section
variable {t : State} {frame : Int}

theorem sysPutByte_eq (h : ArgsReadable t frame 3) :
    sysPutByte frame t =
      setByte t (argAt t frame 0).toInt (argAt t frame 1).toInt (BitVec.ofInt 8 ((argAt t frame 2).toInt % 256)) := by
  rw [sysPutByte, argument_bind_ok (h 0 (by omega)), argument_bind_ok (h 1 (by omega)),
    argument_bind_ok (h 2 (by omega)), extract_low_byte]

theorem sysPutByte_badArgument {i : Nat} (hi : i < 3) (h : FirstBadArgument t frame i) :
    sysPutByte frame t = .error (.memoryFault (frame + 2 + i) .read) := by
  obtain ⟨hread, hbad⟩ := h
  unfold sysPutByte
  interval_cases i
  · exact argument_bind_fault hbad
  · rw [argument_bind_ok (hread 0 (by omega)), argument_bind_fault hbad]
  · rw [argument_bind_ok (hread 0 (by omega)), argument_bind_ok (hread 1 (by omega)), argument_bind_fault hbad]

end

/-- Settles O33: the call is one byte write at its first two arguments. -/
theorem putByteResult : Obligations.PutByteResult := by
  unfold Obligations.PutByteResult
  intro o s frame hcall
  refine ⟨fun i hi hbad => exec_callsSystem_fault hcall (sysPutByte_badArgument hi hbad), fun hargs addr haddr => ?_⟩
  have hrun := (sysPutByte_eq (t := s.past o.words) hargs).trans (setByte_eq _ _ _ _)
  simp only [inBounds_past, argAt_past, past_mem] at hrun
  subst haddr
  refine ⟨fun hb => ?_, fun hb => exec_callsSystem_fault hcall (hrun.trans (if_neg hb))⟩
  refine ⟨_, exec_callsSystem_ok hcall (hrun.trans (if_pos hb)), rfl, fun key => ?_⟩
  have hkey := byteKey_cast hb
  simp only [setMem_mem, readByte_setLane, ← hkey, Int.ofNat_inj]

/-! ## Write-string (R270) -/

section
variable {t : State} {addr : Int}

theorem stringBytes_readable (h : StringReadable t addr) : stringBytes t addr = .ok (textAt t addr) := by
  rw [stringBytes, bind_ok_iff]
  refine ⟨_, (getByte_eq_byteAt t addr 0).trans (if_pos (h 0 (Nat.zero_le _))), bytesFrom_ok_iff.2 ⟨?_, fun i hi => ?_⟩⟩
  · simp [textAt, lengthAt]
  · have hi : i < lengthAt t addr := by simpa [textAt] using hi
    have hoff : (1 : Int) + i = (i + 1 : Nat) := by omega
    rw [hoff, getByte_eq_byteAt, if_pos (h (i + 1) hi)]
    simp [textAt]

/-- A string faults on its length byte, or on the first byte of its text outside memory. -/
theorem stringBytes_fault {bad : Int} (h : StringFaultsAt t addr bad) :
    stringBytes t addr = .error (.memoryFault bad .read) := by
  obtain ⟨i, hi, hread, rfl, hbad⟩ := h
  have hfault := (getByte_eq_byteAt t addr i).trans (if_neg hbad)
  rw [stringBytes, bind_error_iff]
  cases i with
  | zero => exact .inl hfault
  | succ i =>
    have hlen := (getByte_eq_byteAt t addr 0).trans (if_pos (hread 0 (by omega)))
    have hoff : ∀ j : Nat, (1 : Int) + j = (j + 1 : Nat) := fun j => by omega
    refine .inr ⟨_, hlen, bytesFrom_error (i := i) hi (fun j hj => ⟨byteAt t addr (j + 1 : Nat), ?_⟩) ?_⟩
    · rw [hoff]
      exact (getByte_eq_byteAt t addr _).trans (if_pos (hread (j + 1) (by omega)))
    · rw [hoff]
      exact hfault

end

/-- The output of a call is appended exactly while the print handle is selected (R281). -/
theorem out_eq (t : State) (l : List Byte) :
    t.out l = { t with output := t.output ++ if t.cout = t.params.printHandle then l else [] } := by
  unfold State.out
  split
  · rfl
  · rw [List.append_nil]

section
variable {t : State} {frame : Int}

theorem sysWriteString_ok (h : t.inBounds (frame + 2)) (hs : StringReadable t (argAt t frame 0).toInt) :
    sysWriteString frame t = .ok (t.out (textAt t (argAt t frame 0).toInt)) := by
  rw [sysWriteString, argument_bind_ok (by simpa using h), stringBytes_readable hs]; rfl

theorem sysWriteString_stringFault {bad : Int} (h : t.inBounds (frame + 2))
    (hs : StringFaultsAt t (argAt t frame 0).toInt bad) :
    sysWriteString frame t = .error (.memoryFault bad .read) := by
  rw [sysWriteString, argument_bind_ok (by simpa using h), stringBytes_fault hs]; rfl

theorem sysWriteString_argumentFault (h : ¬ t.inBounds (frame + 2)) :
    sysWriteString frame t = .error (.memoryFault (frame + 2) .read) := by
  rw [sysWriteString, argument_bind_fault (by simpa using h)]; simp

end

/-- Settles O27: the call outputs the text of the string, or takes the fault of reading it. -/
theorem writeStringResult : Obligations.WriteStringResult := by
  unfold Obligations.WriteStringResult
  intro o s frame hcall
  refine ⟨fun hbad => exec_callsSystem_fault hcall (sysWriteString_argumentFault hbad), fun harg =>
    ⟨fun htext => ?_, fun bad hbad => exec_callsSystem_fault hcall (sysWriteString_stringFault harg hbad)⟩⟩
  have hrun := sysWriteString_ok (t := s.past o.words) harg htext
  rw [exec_callsSystem_ok hcall hrun, out_eq]
  rfl

/-! ## An image that does not fit (R68, R307) -/

theorem loadImage_too_long {image : List Word} {s : State} (h : s.params.memSize < image.length) :
    loadImage image s = { startRegisters s with faultReg := some ⟨.loadFault image.length, none⟩ } := if_pos h

theorem load_loaded {image : List Int} {s : State} (h : s.phase = .loaded) :
    load image s = .refused .alreadyLoaded := by
  unfold load; rw [h]

theorem load_next {image : List Int} {s t : State} (h : load image s = .next t) :
    t = loadImage (image.map wrap16) s := by
  unfold load at h
  split at h
  · cases h
  · injection h with h; exact h.symm

/-- A core whose fault register is set has no step (R161). -/
theorem coreStep_faulted {s : State} {f : FaultRecord} (h : s.faultReg = some f) : coreStep s = .fault .faulted := by
  unfold coreStep; rw [h]; rfl

/-- Settles O57: every load ends in the phase `loaded`, and one of too long an image with its fault recorded. -/
theorem loadFaultAndReuse : Obligations.LoadFaultAndReuse := by
  unfold Obligations.LoadFaultAndReuse
  refine ⟨fun p input image hlong => ?_, fun s t image h => ?_, fun s image h => load_loaded h⟩
  · have hlen : (image.map wrap16).length = image.length := List.length_map _
    have hload := loadImage_too_long (s := construct p input) (hlen.symm ▸ hlong)
    rw [hlen] at hload
    exact ⟨_, congrArg _ hload, rfl, rfl, coreStep_faulted rfl, rfl⟩
  · rw [load_next h, loadImage_phase]

end Sys2Proof.Machine
end

section
/-! PROOFS. Encoding: decoder and encoder undo each other, through the fields of the word and the one table of opcodes; and
the run-time form of X against the canonical words. -/

namespace Sys2Proof

/-! ## The fields of a word, as numbers (R81) -/

theorem bool_toNat_injective : Function.Injective Bool.toNat := Function.LeftInverse.injective Bool.ofNat_toNat

theorem opcodeField_toNat (w : Word) : (opcodeField w).toNat = w.toNat % 8 := by simp [opcodeField]

theorem indirectFlag_toNat (w : Word) : (indirectFlag w).toNat = w.toNat / 8 % 2 := Nat.toNat_testBit _ 3

theorem frameFlag_toNat (w : Word) : (frameFlag w).toNat = w.toNat / 16 % 2 := Nat.toNat_testBit _ 4

theorem dataFlag_toNat (w : Word) : (dataFlag w).toNat = w.toNat / 32 % 2 := Nat.toNat_testBit _ 5

theorem reservedField_eq_zero_iff (w : Word) : reservedField w = 0 ↔ w.toNat / 64 % 4 = 0 := by
  rw [← BitVec.toNat_inj, reservedField, BitVec.extractLsb'_toNat, Nat.shiftRight_eq_div_pow]
  exact Iff.rfl

theorem inlineField_toNat (w : Word) : (inlineField w).toNat = w.toNat / 256 := by
  have := w.isLt
  simp only [inlineField, BitVec.extractLsb'_toNat, Nat.shiftRight_eq_div_pow]
  omega

theorem hasReservedBits_eq_false_iff (w : Word) : hasReservedBits w = false ↔ reservedField w = 0 := by
  rw [← Bool.not_eq_true, hasReservedBits_iff, not_not]

/-! ## The fields of an encoded word (R90) -/

section
variable {f : Nat} (hf : f < 8) (i p d : Bool) (n : BitVec 8)
include hf

theorem opcodeField_encodeWord : (opcodeField (encodeWord f i p d n)).toNat = f := by
  rw [opcodeField_toNat, encodeWord_toNat f hf]
  omega

theorem indirectFlag_encodeWord : indirectFlag (encodeWord f i p d n) = i := by
  have hi := i.toNat_lt
  apply bool_toNat_injective
  rw [indirectFlag_toNat, encodeWord_toNat f hf]
  omega

theorem frameFlag_encodeWord : frameFlag (encodeWord f i p d n) = p := by
  have hi := i.toNat_lt
  have hp := p.toNat_lt
  apply bool_toNat_injective
  rw [frameFlag_toNat, encodeWord_toNat f hf]
  omega

theorem dataFlag_encodeWord : dataFlag (encodeWord f i p d n) = d := by
  have hi := i.toNat_lt
  have hp := p.toNat_lt
  have hd := d.toNat_lt
  apply bool_toNat_injective
  rw [dataFlag_toNat, encodeWord_toNat f hf]
  omega

theorem reservedField_encodeWord : reservedField (encodeWord f i p d n) = 0 := by
  have hi := i.toNat_lt
  have hp := p.toNat_lt
  have hd := d.toNat_lt
  rw [reservedField_eq_zero_iff, encodeWord_toNat f hf]
  omega

theorem inlineField_encodeWord : inlineField (encodeWord f i p d n) = n := by
  have hi := i.toNat_lt
  have hp := p.toNat_lt
  have hd := d.toNat_lt
  apply BitVec.eq_of_toNat_eq
  rw [inlineField_toNat, encodeWord_toNat f hf]
  omega

theorem takesDataWord_encodeWord : takesDataWord (encodeWord f i p d n) = d := by
  simp [takesDataWord, reservedField_encodeWord hf, dataFlag_encodeWord hf]

theorem decodeOperand_encodeWord (v : Word) :
    decodeOperand (encodeWord f i p d n) v = ⟨if d then .dataWord v else .inline n, p, i⟩ := by
  simp only [decodeOperand, dataFlag_encodeWord hf, frameFlag_encodeWord hf, indirectFlag_encodeWord hf,
    inlineField_encodeWord hf]

end

/-- A word with its reserved bits 00 is the encoding of its own fields. -/
theorem encodeWord_fields {w : Word} (hw : hasReservedBits w = false) :
    encodeWord (opcodeField w).toNat (indirectFlag w) (frameFlag w) (dataFlag w) (inlineField w) = w := by
  have hres := (reservedField_eq_zero_iff w).1 ((hasReservedBits_eq_false_iff w).1 hw)
  apply BitVec.eq_of_toNat_eq
  rw [encodeWord_toNat _ (opcodeField w).isLt, inlineField_toNat, dataFlag_toNat, frameFlag_toNat, indirectFlag_toNat,
    opcodeField_toNat]
  omega

/-- Clearing the inline field of an encoded word (R90). -/
theorem encodeWord_and_low_byte {f : Nat} (hf : f < 8) (i p d : Bool) (n : BitVec 8) :
    encodeWord f i p d n &&& 0x00FF = encodeWord f i p d 0 := by
  have hi := i.toNat_lt
  have hp := p.toNat_lt
  have hd := d.toNat_lt
  apply BitVec.eq_of_toNat_eq
  rw [BitVec.toNat_and, encodeWord_toNat f hf, encodeWord_toNat f hf]
  calc (n.toNat * 256 + d.toNat * 32 + p.toNat * 16 + i.toNat * 8 + f) &&& (2 ^ 8 - 1)
      = (n.toNat * 256 + d.toNat * 32 + p.toNat * 16 + i.toNat * 8 + f) % 2 ^ 8 := Nat.and_two_pow_sub_one_eq_mod _ 8
    _ = (0 : BitVec 8).toNat * 256 + d.toNat * 32 + p.toNat * 16 + i.toNat * 8 + f := by
      have hzero : (0 : BitVec 8).toNat = 0 := rfl
      omega

/-! ## The instruction of an opcode and an operand (R82) -/

/-- The rows of R82: what `decodeWords` reads from a word whose reserved bits are 00 (`decodeWords_eq`). -/
def instrOfOpcode (f : Nat) (o : Operand) : Instr :=
  match f with
  | 0 => .load o
  | 1 => .store o
  | 2 => .add o
  | 3 => .jump o
  | 4 => .testTrue o
  | 5 => .testFalse o
  | 6 => .call o
  | _ => decodeExecute o

theorem decodeWords_eq {w : Word} (hw : hasReservedBits w = false) (v : Word) :
    decodeWords w v = instrOfOpcode (opcodeField w).toNat (decodeOperand w v) := by
  have hres : ¬ reservedField w ≠ 0 := not_not.2 ((hasReservedBits_eq_false_iff w).1 hw)
  rw [decodeWords, if_neg hres]
  rfl

theorem decodeWords_reserved {w : Word} (hw : hasReservedBits w = true) (v : Word) :
    decodeWords w v = .unknownOpcode w := by
  rw [decodeWords, if_pos ((hasReservedBits_iff w).1 hw)]

/-! ## X words: the canonical inline forms and the others (R85, R88) -/

theorem isUnknownInline_iff (n : BitVec 8) : isUnknownInline n = true ↔ operatorOfNumber n.toNat = none := by
  rw [Machine.operatorOfNumber_none_iff]
  simp [isUnknownInline]

theorem decodeInlineExecute_some {n : BitVec 8} {op : Operator} (h : operatorOfNumber n.toNat = some op) :
    decodeInlineExecute n = instrOfOperator op := by rw [decodeInlineExecute, h]

theorem decodeInlineExecute_none {n : BitVec 8} (h : operatorOfNumber n.toNat = none) :
    decodeInlineExecute n = .unknownOperator n := by rw [decodeInlineExecute, h]

theorem decodeInlineExecute_number (op : Operator) :
    decodeInlineExecute (BitVec.ofNat 8 (operatorNumber op)) = instrOfOperator op := by cases op <;> rfl

/-- An X word is plain inline, or it finds its operator at run time. -/
theorem decodeExecute_cases (o : Operand) :
    (∃ n, o = ⟨.inline n, false, false⟩ ∧ decodeExecute o = decodeInlineExecute n) ∨
      (o.isPlainInline = false ∧ decodeExecute o = .execute o) := by
  obtain ⟨n | v, p, i⟩ := o
  · cases p
    · cases i
      · exact .inl ⟨n, rfl, rfl⟩
      · exact .inr ⟨rfl, rfl⟩
    · exact .inr ⟨rfl, rfl⟩
  · exact .inr ⟨rfl, rfl⟩

theorem decodeExecute_of_not_plain {o : Operand} (h : o.isPlainInline = false) : decodeExecute o = .execute o := by
  rcases decodeExecute_cases o with ⟨n, rfl, -⟩ | ⟨-, he⟩
  · cases h
  · exact he

theorem encode_instrOfOperator (op : Operator) : encode (instrOfOperator op) = encodeOperator op := by
  cases op <;> rfl

theorem wellFormed_instrOfOperator (op : Operator) : WellFormed (instrOfOperator op) = true := by
  cases op <;> rfl

theorem encode_decodeInlineExecute (n : BitVec 8) :
    encode (decodeInlineExecute n) = encodeOperand 7 ⟨.inline n, false, false⟩ := by
  cases h : operatorOfNumber n.toNat with
  | none => rw [decodeInlineExecute_none h]; rfl
  | some op =>
    have hn : BitVec.ofNat 8 (operatorNumber op) = n := by
      rw [Machine.operatorOfNumber_some h, BitVec.ofNat_toNat, BitVec.setWidth_eq]
    rw [decodeInlineExecute_some h, encode_instrOfOperator, encodeOperator, hn]
    rfl

theorem wellFormed_decodeInlineExecute (n : BitVec 8) : WellFormed (decodeInlineExecute n) = true := by
  cases h : operatorOfNumber n.toNat with
  | none => rw [decodeInlineExecute_none h]; exact (isUnknownInline_iff n).2 h
  | some op => rw [decodeInlineExecute_some h, wellFormed_instrOfOperator]

theorem encode_decodeExecute (o : Operand) : encode (decodeExecute o) = encodeOperand 7 o := by
  rcases decodeExecute_cases o with ⟨n, rfl, he⟩ | ⟨-, he⟩
  · rw [he, encode_decodeInlineExecute]
  · rw [he]; rfl

theorem wellFormed_decodeExecute (o : Operand) : WellFormed (decodeExecute o) = true := by
  rcases decodeExecute_cases o with ⟨n, rfl, he⟩ | ⟨hplain, he⟩
  · rw [he, wellFormed_decodeInlineExecute]
  · rw [he, WellFormed, hplain]; rfl

/-! ## Every well-formed instruction is a row of R82 or an unknown opcode -/

theorem encode_instrOfOpcode {f : Nat} (hf : f < 8) (o : Operand) :
    encode (instrOfOpcode f o) = encodeOperand f o := by
  rcases Nat.lt_or_eq_of_le (Nat.le_of_lt_succ hf) with h | rfl
  · interval_cases f <;> rfl
  · exact encode_decodeExecute o

theorem wellFormed_instrOfOpcode {f : Nat} (hf : f < 8) (o : Operand) : WellFormed (instrOfOpcode f o) = true := by
  rcases Nat.lt_or_eq_of_le (Nat.le_of_lt_succ hf) with h | rfl
  · interval_cases f <;> rfl
  · exact wellFormed_decodeExecute o

theorem wellFormed_cases {i : Instr} (h : WellFormed i = true) :
    (∃ f < 8, ∃ o, i = instrOfOpcode f o) ∨ ∃ w, i = .unknownOpcode w ∧ hasReservedBits w = true := by
  rcases Machine.instr_cases i with ⟨op, rfl⟩ | ⟨o, hi⟩ | ⟨n, rfl⟩ | ⟨w, rfl⟩
  · exact .inl ⟨7, by omega, ⟨.inline (BitVec.ofNat 8 (operatorNumber op)), false, false⟩,
      (decodeInlineExecute_number op).symm⟩
  · left
    fin_cases hi
    · exact ⟨0, by omega, o, rfl⟩
    · exact ⟨1, by omega, o, rfl⟩
    · exact ⟨2, by omega, o, rfl⟩
    · exact ⟨3, by omega, o, rfl⟩
    · exact ⟨4, by omega, o, rfl⟩
    · exact ⟨5, by omega, o, rfl⟩
    · exact ⟨6, by omega, o, rfl⟩
    · have hplain : o.isPlainInline = false := by simpa [WellFormed] using h
      exact ⟨7, by omega, o, (decodeExecute_of_not_plain hplain).symm⟩
  · have hn := (isUnknownInline_iff n).1 h
    exact .inl ⟨7, by omega, ⟨.inline n, false, false⟩, (decodeInlineExecute_none hn).symm⟩
  · exact .inr ⟨w, rfl, h⟩

/-! ## Decoding a word sequence (R80, R302) -/

theorem decode_two_words {w : Word} (h : takesDataWord w = true) (v : Word) (rest : List Word) :
    decode (w :: v :: rest) = .ok (decodeWords w v, rest) := by rw [decode, if_pos h]

theorem decode_missing_data_word {w : Word} (h : takesDataWord w = true) : decode [w] = .error .noDataWord := by
  rw [decode, if_pos h]

/-- A word that takes no data word decodes to one instruction, whatever the word after it. -/
theorem decodeWords_ignores_next {w : Word} (h : takesDataWord w = false) (v v' : Word) :
    decodeWords w v = decodeWords w v' := by
  cases hw : hasReservedBits w with
  | true => rw [decodeWords_reserved hw, decodeWords_reserved hw]
  | false =>
    have hd : dataFlag w = false := by simpa [takesDataWord, (hasReservedBits_eq_false_iff w).1 hw] using h
    rw [decodeWords_eq hw, decodeWords_eq hw]
    simp only [decodeOperand, hd]
    rfl

theorem decode_one_word {w : Word} (h : takesDataWord w = false) (v : Word) (rest : List Word) :
    decode (w :: rest) = .ok (decodeWords w v, rest) := by
  rw [decodeWords_ignores_next h v 0]
  simp [decode, h]

theorem decodeWords_encodeWord {f : Nat} (hf : f < 8) (i p d : Bool) (n : BitVec 8) (v : Word) :
    decodeWords (encodeWord f i p d n) v = instrOfOpcode f ⟨if d then .dataWord v else .inline n, p, i⟩ := by
  rw [decodeWords_eq ((hasReservedBits_eq_false_iff _).2 (reservedField_encodeWord hf i p d n)),
    opcodeField_encodeWord hf, decodeOperand_encodeWord hf]

theorem decode_encodeOperand {f : Nat} (hf : f < 8) (o : Operand) (rest : List Word) :
    decode (encodeOperand f o ++ rest) = .ok (instrOfOpcode f o, rest) := by
  obtain ⟨n | v, p, i⟩ := o
  · refine (decode_one_word (takesDataWord_encodeWord hf i p false n) 0 rest).trans ?_
    rw [decodeWords_encodeWord hf]
    rfl
  · refine (decode_two_words (takesDataWord_encodeWord hf i p true 0) v rest).trans ?_
    rw [decodeWords_encodeWord hf]
    rfl

/-- Settles O1: a well-formed instruction is an opcode with an operand, whose encoding keeps every field, or a word with
reserved bits, which is its own encoding. -/
theorem decodeEncodeEveryInstruction : Obligations.DecodeEncodeEveryInstruction := by
  unfold Obligations.DecodeEncodeEveryInstruction
  intro i rest h
  rcases wellFormed_cases h with ⟨f, hf, o, rfl⟩ | ⟨w, rfl, hw⟩
  · rw [encode_instrOfOpcode hf, decode_encodeOperand hf]
  · have htakes : takesDataWord w = false := by
      rw [← Bool.not_eq_true, takesDataWord_iff, hw]
      simp
    exact (decode_one_word htakes 0 rest).trans (by rw [decodeWords_reserved hw])

/-! ## Encoding what was decoded (R89, R90) -/

theorem encode_decodeWords {w : Word} (hw : hasReservedBits w = false) (v : Word) :
    encode (decodeWords w v) = if w.getLsbD 5 then [w &&& 0x00FF, v] else [w] := by
  have hf := (opcodeField w).isLt
  have hfields := encodeWord_fields hw
  have hflag : w.getLsbD 5 = dataFlag w := rfl
  rw [decodeWords_eq hw, encode_instrOfOpcode hf, encodeOperand, decodeOperand, hflag]
  cases hd : dataFlag w with
  | true =>
    have hlow := encodeWord_and_low_byte hf (indirectFlag w) (frameFlag w) true (inlineField w)
    rw [← hd, hfields, hd] at hlow
    rw [if_pos rfl, if_pos rfl, hlow]
  | false =>
    rw [hd] at hfields
    simp [hfields]

/-- Settles O2: a word with its reserved bits 00 is the encoding of its fields, with the inline field cleared when D = 1. -/
theorem encodeDecodeEveryWord : Obligations.EncodeDecodeEveryWord := by
  unfold Obligations.EncodeDecodeEveryWord
  intro w v
  cases hw : hasReservedBits w with
  | true =>
    rw [decodeWords_reserved hw]
    exact ⟨hw, rfl⟩
  | false =>
    refine ⟨?_, encode_decodeWords hw v⟩
    rw [decodeWords_eq hw]
    exact wellFormed_instrOfOpcode (opcodeField w).isLt _

/-- Settles O3: nine closed words, each evaluated. -/
theorem sampleWordsDecode : Obligations.SampleWordsDecode := by
  unfold Obligations.SampleWordsDecode
  exact ⟨rfl, rfl, rfl, rfl, rfl, rfl, rfl, rfl, rfl⟩

/-- An instruction has as many words as its encoding (R80, R90). -/
theorem encode_length (i : Instr) : (encode i).length = i.words := by
  rcases Machine.instr_cases i with ⟨op, rfl⟩ | ⟨o, hi⟩ | ⟨n, rfl⟩ | ⟨w, rfl⟩
  · cases op <;> rfl
  · fin_cases hi <;> exact Laws.EncodedLength.operand _ o
  · rfl
  · rfl

/-- Settles O4: the length is that of the encoding of what was decoded, and decoding takes a data word exactly when D is
set. -/
theorem lengthFromDataFlag : Obligations.LengthFromDataFlag := by
  unfold Obligations.LengthFromDataFlag
  intro w v rest hw
  have hwords : (decodeWords w v).words = (if w.getLsbD 5 then [w &&& 0x00FF, v] else [w]).length := by
    rw [← encode_length, encode_decodeWords hw]
  refine ⟨fun hd => ?_, fun hd => ?_⟩
  · have htakes : takesDataWord w = true := (takesDataWord_iff w).2 ⟨hw, hd⟩
    exact ⟨by rw [hwords, hd]; rfl, decode_two_words htakes v rest, decode_missing_data_word htakes⟩
  · have htakes : takesDataWord w = false := by
      rw [← Bool.not_eq_true, takesDataWord_iff, hd]
      simp
    exact ⟨by rw [hwords, hd]; rfl, decode_one_word htakes v rest⟩

end Sys2Proof

namespace Sys2Proof.Machine

/-! ## The operators fail only by a read outside memory (R203, R222, R243) -/

/-- A computation that fails does so by a read outside memory. -/
def FailsByRead {α : Type} (r : Except FaultCause α) : Prop := ∀ c, r = .error c → ∃ addr, c = .memoryFault addr .read

theorem failsByRead_ok {α : Type} (v : α) : FailsByRead (.ok v : Except FaultCause α) := fun _ h => by cases h

theorem failsByRead_memRead (t : State) (addr : Int) : FailsByRead (memRead t addr) := fun _ h =>
  ⟨addr, (memRead_error_iff.1 h).2⟩

theorem failsByRead_bind {α β : Type} {x : Except FaultCause α} {f : α → Except FaultCause β} (hx : FailsByRead x)
    (hf : ∀ v, FailsByRead (f v)) : FailsByRead (x >>= f) := by
  intro c h
  rcases bind_error_iff.1 h with h | ⟨v, -, h⟩
  · exact hx c h
  · exact hf v c h

theorem switchScan_failsByRead (t : State) (target : Word) (n : Nat) (p : Int) :
    FailsByRead (switchScan t target n p) := by
  induction n generalizing p with
  | zero => exact failsByRead_ok target
  | succ n ih =>
    refine failsByRead_bind (failsByRead_memRead t p) fun v => ?_
    refine failsByRead_bind (failsByRead_memRead t (p + 1)) fun u => ?_
    split
    · exact failsByRead_ok u
    · exact ih (p + 2)

theorem runOperator_completes_of_not_reads {op : Operator} (h : op ∉ [Operator.indirection, .ret, .switch]) (t : State) :
    ∃ u, runOperator op t = .ok u := by
  cases op
  case indirection | ret | switch => simp at h
  all_goals exact ⟨_, rfl⟩

theorem runOperator_failsByRead (op : Operator) (t : State) : FailsByRead (runOperator op t) := by
  by_cases h : op ∈ [Operator.indirection, .ret, .switch]
  · fin_cases h
    · exact failsByRead_bind (failsByRead_memRead t _) fun _ => failsByRead_ok _
    · exact failsByRead_bind (failsByRead_memRead t _) fun _ =>
        failsByRead_bind (failsByRead_memRead t _) fun _ => failsByRead_ok _
    · exact failsByRead_bind (failsByRead_memRead t _) fun _ => failsByRead_bind (failsByRead_memRead t _) fun _ =>
        failsByRead_bind (switchScan_failsByRead t _ _ _) fun _ => failsByRead_ok _
  · obtain ⟨u, hu⟩ := runOperator_completes_of_not_reads h t
    rw [hu]
    exact failsByRead_ok u

/-! ## The run-time form of X and the canonical word (R85, R220) -/

theorem executeNumber_operatorNumber (op : Operator) (t : State) :
    executeNumber (operatorNumber op) t = runOperator op t := by
  rw [executeNumber, if_neg (by omega), Int.toNat_natCast, operatorOfNumber_number]

theorem exec_execute_operator {o : Operand} {s : State} {op : Operator} (h : ResolvesTo o s (operatorNumber op)) :
    exec (.execute o) s = commit s (runOperator op (s.past o.words)) := by
  rw [exec_execute, withOperand_ok (resolve_ok_iff.2 h), executeNumber_operatorNumber]

/-- The canonical word, begun so that it ends where an instruction with operand `o` ends, runs its operator on the same
state. -/
theorem exec_instrOfOperator_aligned (o : Operand) (s : State) (op : Operator) :
    exec (instrOfOperator op) { s with pc := s.pc + o.words - 1 } =
      commit { s with pc := s.pc + o.words - 1 } (runOperator op (s.past o.words)) := by
  have hpast : State.past { s with pc := s.pc + o.words - 1 } 1 = s.past o.words := by
    simp [State.past, State.setPc]
  rw [exec_instrOfOperator, withoutOperand, hpast]

/-- Settles O37: both forms commit the same run of the operator; it completes with the fault register empty, or fails by a
read outside memory. -/
theorem executeFindsOperatorAtRunTime : Obligations.ExecuteFindsOperatorAtRunTime := by
  unfold Obligations.ExecuteFindsOperatorAtRunTime
  intro o s op hs hres
  rw [exec_execute_operator hres, exec_instrOfOperator_aligned]
  have hcompletes : ∀ u, runOperator op (s.past o.words) = .ok u → u.faultReg = none := fun u hu =>
    (runOperator_completes hu).faultReg.trans hs
  refine ⟨fun t ht hf => ?_, fun t f ht hf => ?_, fun hop => ?_⟩
  · rcases commit_next ht with hu | ⟨c, -, rfl⟩
    · rw [hu, commit_ok]
    · cases hf
  · rcases commit_next ht with hu | ⟨c, hc, rfl⟩
    · rw [hcompletes t hu] at hf
      cases hf
    · obtain ⟨addr, rfl⟩ := runOperator_failsByRead op _ c hc
      cases hf
      exact ⟨addr, rfl, by rw [hc]; rfl⟩
  · obtain ⟨u, hu⟩ := runOperator_completes_of_not_reads hop (s.past o.words)
    rw [hu]
    exact ⟨u, commit_ok s u, hcompletes u hu, commit_ok _ u⟩

end Sys2Proof.Machine
end

section
/-! PROOFS. The assembler's emit: one Word of the image, or no room for it (R112). -/

namespace Sys2Proof.Machine

/-- An `emit` with no room left in the image is the fatal AsmImageOverflow (R112). -/
theorem emit_overflow {p : Params} {e : Engine} {v : Int} (h : p.memSize ≤ e.cursor) :
    emit p e v = .error (.imageOverflow e.cursor) := by
  unfold emit; exact if_pos h

/-- Settles O58: an emit inside the image is one write at the cursor, and what reads after it is read over write. -/
theorem emitWritesAtCursor : Obligations.EmitWritesAtCursor := by
  unfold Obligations.EmitWritesAtCursor
  intro p e v
  refine ⟨fun hlt => ?_, emit_overflow⟩
  exact ⟨_, emit_ok_iff.2 ⟨hlt, rfl⟩, rfl, fun i => readWord_writeWord e.image e.cursor i (wrap16 v), rfl⟩

end Sys2Proof.Machine
end

section
/-! PROOFS. Fetch and decode: the step of a loaded core runs the instruction its words decode to, an instruction always
answers a next state, a fault is precise, and a run ends within its budget. -/

namespace Sys2Proof.Machine

/-! ## Every instruction answers (R160, R169, R305) -/

/-- Every opcode that takes an operand resolves it and then runs a body on it (R83, R168). -/
theorem exec_withOperand {o : Operand} {i : Instr} (s : State)
    (hi : i ∈ [Instr.load o, .store o, .add o, .jump o, .testTrue o, .testFalse o, .call o, .execute o]) :
    ∃ body, exec i s = withOperand o s body := by
  fin_cases hi
  exacts [⟨_, exec_load o s⟩, ⟨_, exec_store o s⟩, ⟨_, exec_add o s⟩, ⟨_, exec_jump o s⟩, ⟨_, exec_testTrue o s⟩,
    ⟨_, exec_testFalse o s⟩, ⟨_, exec_call o s⟩, ⟨_, exec_execute o s⟩]

theorem commit_answers_next (s : State) (r : Except FaultCause State) : ∃ t, commit s r = .next t := by
  rcases commit_cases s r with ⟨t, -, h⟩ | ⟨c, -, h⟩
  exacts [⟨t, h⟩, ⟨_, h⟩]

/-- Settles O11: an instruction ends in a `commit`, or is one of the two that only fault. -/
theorem everyInstructionAnswersNext : Obligations.EveryInstructionAnswersNext := by
  unfold Obligations.EveryInstructionAnswersNext
  intro i s
  rcases instr_cases i with ⟨op, rfl⟩ | ⟨o, hi⟩ | ⟨n, rfl⟩ | ⟨w, rfl⟩
  · rw [exec_instrOfOperator]
    exact commit_answers_next _ _
  · obtain ⟨body, hbody⟩ := exec_withOperand s hi
    rw [hbody]
    exact commit_answers_next _ _
  · exact ⟨_, exec_unknownOperator s n⟩
  · exact ⟨_, exec_unknownOpcode s w⟩

/-! ## An indirect operand outside memory (R167, R301) -/

theorem operandSum_eq_sumOf (o : Operand) (s : State) : operandSum o s = SumOf o s := by
  unfold operandSum SumOf
  cases o.base <;> rfl

/-- The I flag's read outside memory is the fault of the whole resolution (R167). -/
theorem resolve_error {o : Operand} {s : State} {addr : Int} (h : OperandFaultsAt o s addr) :
    resolve o s = .error (.memoryFault addr .read) := by
  obtain ⟨hind, rfl, hout⟩ := h
  rw [resolve_eq, if_pos hind, operandSum_eq_sumOf, if_neg hout]

/-- Settles O12: the operand is resolved before the body, so its fault is the instruction's. -/
theorem indirectOperandOutsideMemoryFaults : Obligations.IndirectOperandOutsideMemoryFaults := by
  unfold Obligations.IndirectOperandOutsideMemoryFaults
  intro o s addr h i hi
  obtain ⟨body, hbody⟩ := exec_withOperand s hi
  exact hbody.trans (withOperand_error (resolve_error h))

/-! ## The step by its guards (R160, R161, R306) -/

section
variable {s : State}

theorem coreStep_halted (hf : s.faultReg = none) (hr : s.running = false) : coreStep s = .fault .halted := by
  simp [coreStep, hf, hr]

/-- At the budget the step faults before it fetches (R306). -/
theorem coreStep_budgetSpent (hf : s.faultReg = none) (hr : s.running = true) (hb : s.steps = s.params.budget) :
    coreStep s = .next (takeFault s (.instructionBudgetExceeded s.steps)) := by
  simp [coreStep, hf, hr, hb, budgetSpent]

/-- A core that may step executes what it fetched, and counts it when it completes (R160, R161). -/
theorem coreStep_of_fetch_ok {i : Instr} (hf : s.faultReg = none) (hr : s.running = true)
    (hb : s.steps ≠ s.params.budget) (h : fetch s = .ok i) : coreStep s = retire (exec i s) := by
  simp [coreStep, hf, hr, hb, h, budgetSpent]

end

/-- Settles O7, guard by guard in the order of R160. -/
theorem stoppedOrSpentCoreRunsNothing : Obligations.StoppedOrSpentCoreRunsNothing := by
  unfold Obligations.StoppedOrSpentCoreRunsNothing
  intro s hp
  rw [step_loaded hp]
  refine ⟨fun hf => ?_, coreStep_halted, coreStep_budgetSpent⟩
  obtain ⟨f, hf⟩ := Option.ne_none_iff_exists'.1 hf
  exact coreStep_faulted hf

/-- Settles O8: the fetch fails at its first word. -/
theorem fetchOutsideMemoryFaults : Obligations.FetchOutsideMemoryFaults := by
  unfold Obligations.FetchOutsideMemoryFaults
  intro s hp hr hf hb hout
  have hfetch : fetch s = .error (.memoryFault s.pc .fetch) := by rw [fetch_eq, if_neg hout]
  rw [step_loaded hp]
  exact coreStep_of_fetch_error hr hf hb hfetch

/-! ## The words at `pc` and the instruction fetched (R80, R163, R164, R165) -/

theorem operand_words_eq (o : Operand) : o.words = 1 ∨ o.words = 2 := by
  unfold Operand.words
  split
  exacts [.inl rfl, .inr rfl]

theorem instr_words_eq (i : Instr) : i.words = 1 ∨ i.words = 2 := by
  rcases instr_cases i with ⟨op, rfl⟩ | ⟨o, hi⟩ | ⟨n, rfl⟩ | ⟨w, rfl⟩
  · cases op <;> exact .inl rfl
  · fin_cases hi <;> exact operand_words_eq o
  · exact .inl rfl
  · exact .inl rfl

/-- `i.words` words that decode to `i` with none left over are the one word of `i`, or its word and data word. -/
theorem decode_take_words {w v : Word} {i : Instr} (h : decode ([w, v].take i.words) = .ok (i, [])) :
    (takesDataWord w = false ∧ i = decodeWords w 0) ∨
      (i.words = 2 ∧ takesDataWord w = true ∧ i = decodeWords w v) := by
  rcases instr_words_eq i with hn | hn <;> cases ht : takesDataWord w <;> rw [hn] at h
  · cases (decode_one_word ht 0 []).symm.trans h
    exact .inl ⟨rfl, rfl⟩
  · cases (decode_missing_data_word ht).symm.trans h
  · cases (decode_one_word ht 0 [v]).symm.trans h
  · cases (decode_two_words ht v []).symm.trans h
    exact .inr ⟨hn, rfl, rfl⟩

/-- The fetch answers the instruction that the words at `pc` decode to, where they are in memory. -/
theorem fetch_of_decode {s : State} {i : Instr} (hpc : s.inBounds s.pc) (hdata : i.words = 2 → s.inBounds (s.pc + 1))
    (h : decode ([wordAt s s.pc, wordAt s (s.pc + 1)].take i.words) = .ok (i, [])) : fetch s = .ok i := by
  rw [fetch_eq, if_pos hpc]
  rcases decode_take_words h with ⟨ht, hi⟩ | ⟨hn, ht, hi⟩
  · rw [ht, hi]; rfl
  · rw [if_pos ht, if_pos (hdata hn), ← hi]

/-- Settles O5: the fetch answers the decoded instruction, and `retire` counts it exactly when no fault was recorded. -/
theorem stepRunsDecodedInstruction : Obligations.StepRunsDecodedInstruction := by
  unfold Obligations.StepRunsDecodedInstruction
  intro s i hp hr hf hb hpc hdata hdecode
  obtain ⟨t, ht⟩ := everyInstructionAnswersNext i s
  rw [step_loaded hp, coreStep_of_fetch_ok hf hr hb (fetch_of_decode hpc hdata hdecode), ht, retire_next]
  exact congrArg Host.Outcome.next (if_congr Option.isNone_iff_eq_none rfl rfl)

/-! ## A step faults and changes nothing else, or completes and is counted (R161, R169) -/

/-- An instruction writes the fault register only by taking a fault. -/
theorem exec_faultReg {i : Instr} {s t : State} (h : exec i s = .next t) :
    (∃ c, t = takeFault s c) ∨ t.faultReg = s.faultReg := by
  rcases exec_cases h with hc | hc | ⟨o, d, -, -, rfl⟩
  · exact .inl hc
  · exact .inr hc.faultReg
  · exact .inr rfl

/-- `t` follows `s` by an instruction that completed; `coreStep_faults_or_counts` says when. -/
structure Counted (s t : State) : Prop where
  below_budget : s.steps ≠ s.params.budget
  faultReg : t.faultReg = none
  steps : t.steps = s.steps + 1
  params : t.params = s.params
  phase : t.phase = s.phase

/-- What a step of the core that answers can do: the whole of a fault, or the count of an instruction. -/
theorem coreStep_faults_or_counts {s t : State} (h : coreStep s = .next t) :
    (∃ c, t = takeFault s c) ∨ Counted s t := by
  have hs : s.faultReg = none := by
    by_contra hne
    obtain ⟨f, hf⟩ := Option.ne_none_iff_exists'.1 hne
    rw [coreStep_faulted hf] at h
    cases h
  rcases coreStep_next h with hc | ⟨i, u, hb, -, he, rfl⟩
  · exact .inl hc
  rcases exec_faultReg he with ⟨c, rfl⟩ | hu
  · exact .inl ⟨c, rfl⟩
  · obtain ⟨hsteps, hparams, -, -, hphase, -⟩ := runtimeStateOnlyMovesForward i s u he
    have hnone : u.faultReg = none := hu.trans hs
    rw [if_pos (Option.isNone_iff_eq_none.2 hnone)]
    exact .inr ⟨hb, hnone, congrArg (· + 1) hsteps, hparams, hphase⟩

/-- Settles O6: a step that leaves a fault recorded is no completed instruction, so it is `takeFault` alone. -/
theorem faultsArePrecise : Obligations.FaultsArePrecise := by
  unfold Obligations.FaultsArePrecise
  intro s t hp hs hfault
  rw [step_loaded hp] at hs
  rcases coreStep_faults_or_counts hs with ⟨c, rfl⟩ | hc
  · have hpt : (takeFault s c).phase = .loaded := hp
    refine ⟨⟨c, rfl⟩, (step_loaded hpt).trans (coreStep_faulted rfl), ?_⟩
    simp [reportOf, hp]
  · exact absurd hc.faultReg hfault

/-! ## Every run ends (R161, R170, R306) -/

theorem coreStep_answers_next {s : State} (hf : s.faultReg = none) (hr : s.running = true) :
    ∃ t, coreStep s = .next t := by
  by_cases hb : s.steps = s.params.budget
  · exact ⟨_, coreStep_budgetSpent hf hr hb⟩
  cases hfetch : fetch s with
  | error c => exact ⟨_, coreStep_of_fetch_error hr hf hb hfetch⟩
  | ok i =>
    obtain ⟨t, ht⟩ := everyInstructionAnswersNext i s
    exact ⟨_, by rw [coreStep_of_fetch_ok hf hr hb hfetch, ht, retire_next]⟩

/-- A loaded run has ended, or ends with a fault at the next step, or counts one more instruction. -/
theorem ended_or_step {s : State} (hp : s.phase = .loaded) :
    s.ended ∨ ∃ t, step s = .next t ∧ (t.ended ∨ Counted s t) := by
  by_cases hend : s.faultReg.isSome ∨ s.running = false
  · exact .inl ⟨hp, hend⟩
  obtain ⟨hf, hr⟩ : s.faultReg = none ∧ s.running = true := by simpa using hend
  obtain ⟨t, ht⟩ := coreStep_answers_next hf hr
  refine .inr ⟨t, (step_loaded hp).trans ht, ?_⟩
  rcases coreStep_faults_or_counts ht with ⟨c, rfl⟩ | hc
  · exact .inl ⟨hp, .inl rfl⟩
  · exact .inr hc

theorem run_succ_of_step {M : Host.Core} {s t : M.State} (h : M.step s = .next t) (n : Nat) :
    M.run (n + 1) s = M.run n t := by
  rw [Host.Core.run, h]

theorem core_run_succ {s t : State} (h : step s = .next t) (n : Nat) :
    Sys2Proof.core.run (n + 1) s = Sys2Proof.core.run n t := run_succ_of_step (M := Sys2Proof.core) h n

/-- By induction on a bound of the steps left: one that counts its instruction leaves one fewer. -/
theorem run_ends_within (k : Nat) {s : State} (hp : s.phase = .loaded) (hle : s.steps ≤ s.params.budget)
    (hk : s.params.budget < s.steps + k) : ∃ n t, n ≤ k ∧ Sys2Proof.core.run n s = .next t ∧ t.ended := by
  induction k generalizing s with
  | zero => omega
  | succ k ih =>
    rcases ended_or_step hp with hend | ⟨t, ht, hend | hc⟩
    · exact ⟨0, s, by omega, rfl, hend⟩
    · exact ⟨1, t, by omega, core_run_succ ht 0, hend⟩
    · have hlt : s.steps < s.params.budget := lt_of_le_of_ne hle hc.below_budget
      obtain ⟨n, u, hn, hrun, hu⟩ := ih (hc.phase.trans hp) (by rw [hc.steps, hc.params]; omega)
        (by rw [hc.steps, hc.params]; omega)
      exact ⟨n + 1, u, by omega, (core_run_succ ht n).trans hrun, hu⟩

/-- Settles O55: of the instructions the budget leaves, and the step that finds it spent, one ends the run. -/
theorem everyRunEnds : Obligations.EveryRunEnds := by
  unfold Obligations.EveryRunEnds
  intro s hp hle
  exact run_ends_within (s.params.budget - s.steps + 1) hp hle (by omega)

end Sys2Proof.Machine
end

section
/-! PROOFS. Load, Store and Add: what each does with a resolved operand, and the one Word a store writes (R180 to R182). -/

namespace Sys2Proof.Machine

/-! ## An instruction body on its resolved operand (R83, R168) -/

section
variable {o : Operand} {s : State} {d : Int} {body : Int → State → Except FaultCause State}

/-- A body that completes on the resolved operand is the whole instruction. -/
theorem withOperand_completes {t : State} (hd : ResolvesTo o s d) (hb : body d (s.past o.words) = .ok t) :
    withOperand o s body = .next t := by
  rw [withOperand_ok (resolve_ok_iff.2 hd), hb, commit_ok]

/-- A body that fails on the resolved operand leaves only its fault, with `pc` back at the instruction (R169). -/
theorem withOperand_bodyFaults {c : FaultCause} (hd : ResolvesTo o s d) (hb : body d (s.past o.words) = .error c) :
    withOperand o s body = .next (Faulted s c) := by
  rw [withOperand_ok (resolve_ok_iff.2 hd), hb, commit_error]; rfl

end

/-! ## Load and Add write registers only (R180, R182) -/

/-- Settles O13: the body of Load never fails, and an operand that does not resolve is O12. -/
theorem loadResult : Obligations.LoadResult := by
  unfold Obligations.LoadResult
  intro o s
  refine ⟨fun d hd => ?_, fun addr h => indirectOperandOutsideMemoryFaults o s addr h _ (by simp)⟩
  rw [exec_load]
  exact withOperand_completes hd rfl

/-- Settles O15: the body of Add never fails, and wraps the exact sum. -/
theorem addResult : Obligations.AddResult := by
  unfold Obligations.AddResult
  intro o s
  refine ⟨fun d hd => ?_, fun addr h => indirectOperandOutsideMemoryFaults o s addr h _ (by simp)⟩
  rw [exec_add]
  exact withOperand_completes hd rfl

/-! ## The one Word a store writes (R12, R181) -/

section
variable {s : State} {addr : Int} (v : Word)

theorem wordAt_setMem_writeWord : wordAt (s.setMem (writeWord s.mem addr.toNat v)) addr = v :=
  readWord_writeWord_same s.mem addr.toNat v

/-- Both lanes written belong to the word address, so a lane of any other reads as before. -/
theorem sameBytesBut_setMem_writeWord (h : s.inBounds addr) :
    SameBytesBut [addr] s (s.setMem (writeWord s.mem addr.toNat v)) := by
  intro key hkey
  obtain ⟨hnonneg, -⟩ := inBounds_iff.1 h
  have hother : key / 2 ≠ addr.toNat := fun heq => hkey (by simp only [List.mem_singleton]; omega)
  rw [setMem_mem, readByte_writeWord, if_neg (by omega), if_neg (by omega)]

end

/-- Settles O14: Store is one memory write past the instruction, in bounds or not. -/
theorem storeResult : Obligations.StoreResult := by
  unfold Obligations.StoreResult
  intro o s
  refine ⟨fun d hd hin => ?_, fun d hd hout => ?_,
    fun addr h => indirectOperandOutsideMemoryFaults o s addr h _ (by simp)⟩
  · rw [exec_store]
    exact ⟨_, withOperand_completes hd (memWrite_ok hin), wordAt_setMem_writeWord s.a,
      sameBytesBut_setMem_writeWord s.a hin, rfl⟩
  · rw [exec_store]
    exact withOperand_bodyFaults hd (memWrite_fault hout)

end Sys2Proof.Machine
end

section
/-! PROOFS. Jump, TestTrue and TestFalse: a jump writes `pc` alone, and a test that is not met leaves it past the
instruction (R190 to R192). -/

namespace Sys2Proof.Machine

section
variable {o : Operand} {s : State} {d : Int}

/-- Taken or not, a conditional jump differs from the state it started in by `pc` alone. -/
theorem ite_setPc_past (s : State) (n : Nat) (d : Int) (taken : Prop) [Decidable taken] :
    (if taken then (s.past n).setPc d else s.past n) = { s with pc := if taken then d else s.pc + n } := by
  by_cases h : taken
  · rw [if_pos h, if_pos h]; rfl
  · rw [if_neg h, if_neg h]; rfl

/-- Jump sets `pc` to its operand, with no check of the target (R190). -/
theorem exec_jump_resolved (hd : ResolvesTo o s d) : exec (.jump o) s = .next { s with pc := d } := by
  rw [exec_jump]
  exact withOperand_completes hd rfl

/-- TestTrue jumps when `a` is not 0 (R191). -/
theorem exec_testTrue_resolved (hd : ResolvesTo o s d) :
    exec (.testTrue o) s = .next { s with pc := if s.a ≠ 0 then d else s.pc + o.words } := by
  rw [exec_testTrue]
  refine withOperand_completes hd (congrArg Except.ok ?_)
  simp only [past_a, testsTrue_iff]
  exact ite_setPc_past s o.words d (s.a ≠ 0)

/-- TestFalse jumps when `a` is 0 (R192). -/
theorem exec_testFalse_resolved (hd : ResolvesTo o s d) :
    exec (.testFalse o) s = .next { s with pc := if s.a = 0 then d else s.pc + o.words } := by
  rw [exec_testFalse]
  refine withOperand_completes hd (congrArg Except.ok ?_)
  simp only [past_a, testsFalse_iff]
  exact ite_setPc_past s o.words d (s.a = 0)

end

/-- Settles O16: each of the three on a resolved operand, and O12 for one that does not resolve, taken or not. -/
theorem jumpAndTestResults : Obligations.JumpAndTestResults := by
  unfold Obligations.JumpAndTestResults
  intro o s
  refine ⟨fun d hd => ⟨exec_jump_resolved hd, exec_testTrue_resolved hd, exec_testFalse_resolved hd⟩, fun addr h => ?_⟩
  have hfault := indirectOperandOutsideMemoryFaults o s addr h
  exact ⟨hfault _ (by simp), hfault _ (by simp), hfault _ (by simp)⟩

end Sys2Proof.Machine
end

section
/-! PROOFS. The call frame: entering a routine through a frame of consecutive words, as a user call and Make-closure do,
leaving it again with Return, and the system calls that write one register or handle, or `sp` and `pc` (R202 to R208). -/

namespace Sys2Proof.Machine

/-! ## Consecutive words of memory (R55) -/

/-- Copying a run of words changes no lane outside its word addresses. -/
theorem readByte_copyWords {m : Memory} {addr : Nat} {l : List Word} {key : Nat}
    (h : key / 2 < addr ∨ addr + l.length ≤ key / 2) : readByte (copyWords m addr l) key = readByte m key := by
  induction l generalizing m addr with
  | nil => rfl
  | cons v l ih =>
    rw [List.length_cons] at h
    rw [copyWords, ih (by omega), readByte_writeWord, if_neg (by omega), if_neg (by omega)]

theorem readWord_copyWords (m : Memory) (addr : Nat) {l : List Word} {i : Nat} (h : i < l.length) :
    readWord (copyWords m addr l) (addr + i) = l[i] := by
  induction l generalizing m addr i with
  | nil => simp at h
  | cons v l ih =>
    cases i with
    | zero =>
      have hkept : readWord (copyWords (writeWord m addr v) (addr + 1) l) addr = readWord (writeWord m addr v) addr := by
        rw [readWord, readByte_copyWords (by omega), readByte_copyWords (by omega), readWord]
      exact hkept.trans (readWord_writeWord_same m addr v)
    | succ i =>
      have hshift : addr + (i + 1) = addr + 1 + i := by omega
      rw [copyWords, hshift, ih]
      rfl

/-! ## Entering a routine through a new frame (R202, R208) -/

/-- Write the words of a frame from `addr` upwards; the first address outside memory faults (R12). -/
def writeFrame : State → Int → List Word → Except FaultCause State
  | t, _, [] => pure t
  | t, addr, v :: l => memWrite t addr v >>= fun u => writeFrame u (addr + 1) l

/-- Write a frame at `nf`, make it the current one, and go on at `target`. -/
def enterFrame (t : State) (nf : Int) (l : List Word) (target : Int) : Except FaultCause State :=
  writeFrame t nf l >>= fun u => pure ((u.setSp (wrap16 nf)).setPc target)

/-- The state that `enterFrame` ends in when its frame is in memory. -/
def frameEntered (t : State) (nf : Int) (l : List Word) (target : Int) : State :=
  { t with pc := target, sp := wrap16 nf, mem := copyWords t.mem nf.toNat l }

/-- A user call enters the routine in `a` through a frame of two words (R202). -/
theorem userCall_eq (frame : Int) (t : State) :
    userCall frame t = enterFrame t frame [t.sp, wrap16 t.pc] t.a.toInt := by
  simp only [userCall, enterFrame, writeFrame, bind_assoc, pure_bind]

/-- Make-closure enters its routine through a frame of four words above the closure's vector (R208). -/
theorem sysMakeClosure_eq {frame : Int} {t : State} (h : ArgsReadable t frame 2) :
    sysMakeClosure frame t =
      enterFrame t (frame + (argAt t frame 1).toInt + 1) [t.sp, wrap16 t.pc, wrap16 frame, argAt t frame 1]
        (argAt t frame 0).toInt := by
  rw [sysMakeClosure, argument_bind_ok (h 0 (by omega)), argument_bind_ok (h 1 (by omega))]
  simp only [enterFrame, writeFrame, bind_assoc, pure_bind, Int.add_assoc, Int.reduceAdd]

section
variable {t : State} {nf : Int} {l : List Word}

theorem writeFrame_ok (h : ∀ i < l.length, t.inBounds (nf + (i : Nat))) :
    writeFrame t nf l = .ok (t.setMem (copyWords t.mem nf.toNat l)) := by
  induction l generalizing t nf with
  | nil => rfl
  | cons v l ih =>
    have hin : t.inBounds nf := by simpa using h 0 (by simp)
    have hnext : (nf + 1).toNat = nf.toNat + 1 := by have := (inBounds_iff.1 hin).1; omega
    have htail := ih (t := t.setMem (writeWord t.mem nf.toNat v)) (nf := nf + 1) fun i hi => by
      simpa [Int.add_assoc, Int.add_comm 1] using h (i + 1) (by simpa using hi)
    rw [hnext] at htail
    exact bind_ok_iff.2 ⟨_, memWrite_ok hin, htail⟩

/-- The words of a frame are checked upwards, so its first bad address is the one that faults. -/
theorem writeFrame_fault {k : Nat} (hk : k < l.length) (h : ∀ j < k, t.inBounds (nf + (j : Nat)))
    (hbad : ¬ t.inBounds (nf + k)) : writeFrame t nf l = .error (.memoryFault (nf + k) .write) := by
  induction l generalizing t nf k with
  | nil => simp at hk
  | cons v l ih =>
    refine bind_error_iff.2 ?_
    cases k with
    | zero => exact .inl (by simpa using memWrite_fault hbad)
    | succ k =>
      have hin : t.inBounds nf := by simpa using h 0 (by omega)
      have hshift : ∀ j : Nat, nf + 1 + j = nf + (j + 1 : Nat) := fun j => by omega
      refine .inr ⟨_, memWrite_ok hin, ?_⟩
      rw [← hshift] at hbad ⊢
      exact ih (by simpa using hk) (fun j hj => hshift j ▸ h (j + 1) (by omega)) hbad

theorem enterFrame_ok {target : Int} (h : ∀ i < l.length, t.inBounds (nf + (i : Nat))) :
    enterFrame t nf l target = .ok (frameEntered t nf l target) :=
  bind_ok_iff.2 ⟨_, writeFrame_ok h, rfl⟩

theorem enterFrame_fault {target : Int} {k : Nat} (hk : k < l.length) (h : ∀ j < k, t.inBounds (nf + (j : Nat)))
    (hbad : ¬ t.inBounds (nf + k)) : enterFrame t nf l target = .error (.memoryFault (nf + k) .write) :=
  bind_error_iff.2 (.inl (writeFrame_fault hk h hbad))

/-- The word at `nf + i` of an entered frame is the word `i` written. -/
theorem wordAt_frameEntered {target : Int} (hnf : 0 ≤ nf) {i : Nat} (hi : i < l.length) :
    wordAt (frameEntered t nf l target) (nf + i) = l[i] := by
  have haddr : (nf + i).toNat = nf.toNat + i := by omega
  rw [wordAt, haddr]
  exact readWord_copyWords t.mem nf.toNat hi

theorem wordAt_frameEntered_first {target : Int} (v : Word) :
    wordAt (frameEntered t nf (v :: l) target) nf = v :=
  readWord_copyWords t.mem nf.toNat (i := 0) (l := v :: l) (by simp)

theorem sameBytesBut_frameEntered {target : Int} {addrs : List Int} (hnf : 0 ≤ nf)
    (h : ∀ i < l.length, nf + (i : Nat) ∈ addrs) : SameBytesBut addrs t (frameEntered t nf l target) := by
  intro key hkey
  refine readByte_copyWords ?_
  by_contra hin
  have hoff : ((key / 2 : Nat) : Int) = nf + (key / 2 - nf.toNat : Nat) := by omega
  exact hkey (hoff ▸ h _ (by omega))

end

/-! ## A user call (R202) -/

section
variable {o : Operand} {s : State} {d : Int}

/-- A Call with `a` from PROGSTART on is a user call with the frame at `d + sp` (R200). -/
theorem exec_call_enterFrame (hd : ResolvesTo o s d) (ha : 401 ≤ s.a.toInt) :
    exec (.call o) s =
      commit s (enterFrame (s.past o.words) (d + s.sp.toInt) [s.sp, wrap16 (s.pc + o.words)] s.a.toInt) := by
  rw [exec_call_user (resolve_ok_iff.2 hd) (not_lt.2 ha), userCall_eq]; rfl

/-- The state in the routine that a user call with its frame in memory enters. -/
theorem exec_call_entered (hd : ResolvesTo o s d) (ha : 401 ≤ s.a.toInt) (h0 : s.inBounds (d + s.sp.toInt))
    (h1 : s.inBounds (d + s.sp.toInt + 1)) :
    exec (.call o) s =
      .next (frameEntered (s.past o.words) (d + s.sp.toInt) [s.sp, wrap16 (s.pc + o.words)] s.a.toInt) := by
  have hin : ∀ i < 2, (s.past o.words).inBounds (d + s.sp.toInt + (i : Nat)) := fun i hi => by
    interval_cases i
    · simpa using h0
    · exact h1
  rw [exec_call_enterFrame hd ha, enterFrame_ok (l := [_, _]) hin, commit_ok]

theorem exec_call_frameFault (hd : ResolvesTo o s d) (ha : 401 ≤ s.a.toInt) {k : Nat} (hk : k < 2)
    (h : ∀ j < k, s.inBounds (d + s.sp.toInt + (j : Nat))) (hbad : ¬ s.inBounds (d + s.sp.toInt + k)) :
    exec (.call o) s = .next (Faulted s (.memoryFault (d + s.sp.toInt + k) .write)) := by
  rw [exec_call_enterFrame hd ha, enterFrame_fault (t := s.past o.words) hk h hbad, commit_error]; rfl

end

/-- Settles O17: a user call enters its routine through a frame of two words. -/
theorem userCallResult : Obligations.UserCallResult := by
  unfold Obligations.UserCallResult
  intro o s d hd ha
  refine ⟨fun h0 h1 => ?_, fun h0 => ?_, fun h0 h1 => ?_⟩
  · have hnf : 0 ≤ d + s.sp.toInt := (inBounds_iff.1 h0).1
    refine ⟨_, exec_call_entered hd ha h0 h1, wordAt_frameEntered_first _, wordAt_frameEntered (i := 1) hnf (by simp),
      sameBytesBut_frameEntered hnf fun i (hi : i < 2) => ?_, rfl⟩
    interval_cases i <;> simp
  · simpa using exec_call_frameFault hd ha (k := 0) (by omega) (by simp) (by simpa using h0)
  · exact exec_call_frameFault hd ha (k := 1) (by omega) (by simpa using h0) h1

/-! ## Return (R203, R204) -/

/-- Settles O18: Return is two reads through the `sp` it started with. -/
theorem returnResult : Obligations.ReturnResult := by
  unfold Obligations.ReturnResult
  intro s
  rw [exec_xReturn]
  refine ⟨fun h1 h0 => ?_, fun h1 => ?_, fun h1 h0 => ?_⟩
  · have hrun := (opReturn_ok_iff (t := s.past 1)).2 ⟨h1, h0, rfl⟩
    exact congrArg (commit s) hrun
  · have hrun : opReturn (s.past 1) = .error (.memoryFault (s.sp.toInt + 1) .read) :=
      bind_error_iff.2 (.inl (memRead_fault h1))
    exact congrArg (commit s) hrun
  · have hrun : opReturn (s.past 1) = .error (.memoryFault s.sp.toInt .read) :=
      bind_error_iff.2 (.inr ⟨_, memRead_ok h1, bind_error_iff.2 (.inl (memRead_fault h0))⟩)
    exact congrArg (commit s) hrun

/-- Settles O19: with legal parameters the frame address and the return address are Words, so that `sp` and the frame word
hold them exactly. -/
theorem returnUndoesUserCall : Obligations.ReturnUndoesUserCall := by
  unfold Obligations.ReturnUndoesUserCall
  intro o s t u d hd hvalid ha h0 h1 hpc hcall hparams hsp hword0 hword1 hret
  obtain ⟨t', hcall', hsaved, hreturn, -, ht'⟩ := (userCallResult o s d hd ha).1 h0 h1
  obtain rfl : t' = t := by simpa using hcall'.symm.trans hcall
  have hframe : t'.sp.toInt = d + s.sp.toInt := by
    obtain ⟨hnonneg, hlt⟩ := inBounds_iff.1 h0
    have := hvalid.memSize_le
    rw [ht']
    exact wrap16_toInt hnonneg (by omega)
  have hbounds : ∀ addr, u.inBounds addr = s.inBounds addr := fun addr => by
    rw [State.inBounds, hparams, ht', State.inBounds]
  rw [hframe] at hword0 hword1
  have huSp : u.sp.toInt = d + s.sp.toInt := by rw [hsp, hframe]
  have hresult := (returnResult u).1 (by rwa [huSp, hbounds]) (by rwa [huSp, hbounds])
  rw [hresult, huSp, hword0, hword1, hsaved, hreturn,
    wrap16_toInt (by have := (inBounds_iff.1 hpc).1; omega) hret]

/-! ## Arguments of a system call, one at a time (R261) -/

section
variable {α : Type} {t : State} {frame : Int}

theorem firstArgument_fault {f : Word → Except FaultCause α} (h : ¬ t.inBounds (frame + 2)) :
    argument t frame 0 >>= f = .error (.memoryFault (frame + 2) .read) := by
  simpa using argument_bind_fault (i := 0) (f := f) (by simpa using h)

theorem secondArgument_fault {f : Word → Word → Except FaultCause α} (h0 : t.inBounds (frame + 2))
    (h1 : ¬ t.inBounds (frame + 3)) :
    (argument t frame 0 >>= fun v => argument t frame 1 >>= f v) = .error (.memoryFault (frame + 3) .read) := by
  have haddr : frame + 2 + (1 : Nat) = frame + 3 := by omega
  rw [argument_bind_ok (by simpa using h0), argument_bind_fault (by rwa [haddr]), haddr]

end

/-! ## Calls that write one register or handle, or nothing (R206, R263, R264, R268, R269, R280) -/

/-- A system call that only reads its one argument and then updates the state completes, or faults on that argument. -/
theorem exec_call_oneArgument {o : Operand} {s : State} {n : SysName} {frame : Int} {f : Word → State}
    (h : CallsSystem o s n frame)
    (hn : runSyscall n frame (s.past o.words) = argument (s.past o.words) frame 0 >>= fun v => pure (f v)) :
    (s.inBounds (frame + 2) → exec (.call o) s = .next (f (argAt s frame 0))) ∧
      (¬ s.inBounds (frame + 2) → exec (.call o) s = .next (Faulted s (.memoryFault (frame + 2) .read))) :=
  ⟨fun harg => exec_callsSystem_ok h (hn.trans (argument_bind_ok (by simpa using harg))),
    fun hbad => exec_callsSystem_fault h (hn.trans (firstArgument_fault hbad))⟩

/-- Settles O22: four calls read no argument, and the other two read one. -/
theorem handleAndRegisterCalls : Obligations.HandleAndRegisterCalls := by
  unfold Obligations.HandleAndRegisterCalls
  intro o s frame
  exact ⟨fun h => exec_callsSystem_ok h rfl, fun h => exec_callsSystem_ok h rfl, fun h => exec_callsSystem_ok h rfl,
    fun h => exec_callsSystem_ok h rfl, fun h => exec_call_oneArgument h rfl, fun h => exec_call_oneArgument h rfl⟩

/-! ## Long-jump and Make-closure (R207, R208) -/

theorem sysLongJump_eq {t : State} {frame : Int} (h : ArgsReadable t frame 2) :
    sysLongJump frame t = .ok ((t.setSp (argAt t frame 0)).setPc (argAt t frame 1).toInt) := by
  rw [sysLongJump, argument_bind_ok (h 0 (by omega)), argument_bind_ok (h 1 (by omega))]; rfl

/-- Settles O35: the call is its two argument reads in order, and two register writes. -/
theorem longJumpResult : Obligations.LongJumpResult := by
  unfold Obligations.LongJumpResult
  intro o s frame hcall
  exact ⟨fun hargs => exec_callsSystem_ok hcall (sysLongJump_eq (t := s.past o.words) hargs),
    fun h0 => exec_callsSystem_fault hcall (firstArgument_fault h0),
    fun h0 h1 => exec_callsSystem_fault hcall (secondArgument_fault h0 h1)⟩

/-- Settles O36: Make-closure reads two arguments and enters its routine through a frame of four words. -/
theorem makeClosureResult : Obligations.MakeClosureResult := by
  unfold Obligations.MakeClosureResult
  intro o s frame hcall
  refine ⟨fun h0 => exec_callsSystem_fault hcall (firstArgument_fault h0),
    fun h0 h1 => exec_callsSystem_fault hcall (secondArgument_fault h0 h1), fun hargs nf hnf => ?_⟩
  have hrun := sysMakeClosure_eq (t := s.past o.words) hargs
  rw [argAt_past, argAt_past, ← hnf] at hrun
  refine ⟨fun k hk hin hbad => exec_callsSystem_fault hcall (hrun.trans (enterFrame_fault hk hin hbad)), fun hlo hhi => ?_⟩
  obtain ⟨hnonneg, -⟩ := inBounds_iff.1 hlo
  obtain ⟨-, htop⟩ := inBounds_iff.1 hhi
  have hin : ∀ i < 4, (s.past o.words).inBounds (nf + (i : Nat)) := fun i hi =>
    inBounds_iff.2 ⟨by omega, by rw [past_params]; omega⟩
  refine ⟨_, exec_callsSystem_ok hcall (hrun.trans (enterFrame_ok hin)), wordAt_frameEntered_first _,
    wordAt_frameEntered (i := 1) hnonneg (by simp), wordAt_frameEntered (i := 2) hnonneg (by simp),
    wordAt_frameEntered (i := 3) hnonneg (by simp), sameBytesBut_frameEntered hnonneg fun i (hi : i < 4) => ?_, rfl⟩
  interval_cases i <;> simp

end Sys2Proof.Machine
end

section
/-! PROOFS. Execute and its operators: the canonical inline word of an operator, each result of the ALU against the
arithmetic or the bit pattern it stands for, the scan of a Switch table, and the operands that name no operator (R220 to
R244). -/

namespace Sys2Proof.Machine

/-! ## The canonical inline word of an operator (R85, R169) -/

section
variable {op : Operator} {s : State}

/-- An operator that completes past its word is the whole instruction. -/
theorem exec_instrOfOperator_ok {t : State} (h : runOperator op (s.past 1) = .ok t) :
    exec (instrOfOperator op) s = .next t := by
  rw [exec_instrOfOperator, withoutOperand, h, commit_ok]

/-- An operator that fails leaves only its fault, with `pc` back at the word. -/
theorem exec_instrOfOperator_fault {c : FaultCause} (h : runOperator op (s.past 1) = .error c) :
    exec (instrOfOperator op) s = .next (Faulted s c) := by
  rw [exec_instrOfOperator, withoutOperand, h, commit_error]; rfl

/-- An operator that only puts a result in `a` moves `pc` by one and changes nothing else (R221). -/
theorem exec_instrOfOperator_setA {v : Word} (h : runOperator op (s.past 1) = .ok ((s.past 1).setA v)) :
    exec (instrOfOperator op) s = .next { s with pc := s.pc + 1, a := v } := exec_instrOfOperator_ok h

end

/-- A memory read in bounds hands its Word to what follows. -/
theorem memRead_bind_ok {α : Type} {t : State} {addr : Int} {f : Word → Except FaultCause α} (h : t.inBounds addr) :
    memRead t addr >>= f = f (wordAt t addr) := by
  rw [memRead_ok h]; rfl

/-- A memory read outside memory is the fault of the whole computation. -/
theorem memRead_bind_fault {α : Type} {t : State} {addr : Int} {f : Word → Except FaultCause α}
    (h : ¬ t.inBounds addr) : memRead t addr >>= f = .error (.memoryFault addr .read) := by
  rw [memRead_fault h]; rfl

/-! ## Remainder (R227) -/

section
variable (b a : Word)

/-- The exact remainder of truncated division is a Word, so wrapping it changes nothing. -/
theorem wrap16_tmod_toInt : (wrap16 (b.toInt.tmod a.toInt)).toInt = b.toInt.tmod a.toInt := by
  rw [← BitVec.toInt_srem, wrap16, BitVec.ofInt_toInt]

/-- The exact remainder of floor division is a Word, so wrapping it changes nothing. -/
theorem wrap16_fmod_toInt : (wrap16 (b.toInt.fmod a.toInt)).toInt = b.toInt.fmod a.toInt := by
  rw [← BitVec.toInt_smod, wrap16, BitVec.ofInt_toInt]

theorem aluRemainder_zero (mode : RemMode) : aluRemainder mode b 0 = 0 := rfl

variable {a}

theorem aluRemainder_truncate_toInt (ha : a ≠ 0) : (aluRemainder .truncate b a).toInt = b.toInt.tmod a.toInt := by
  rw [aluRemainder, if_neg ha, ← Int.tmod_def, wrap16_tmod_toInt]

theorem aluRemainder_floor_toInt (ha : a ≠ 0) : (aluRemainder .floor b a).toInt = b.toInt.fmod a.toInt := by
  rw [aluRemainder, if_neg ha, ← Int.fmod_def, wrap16_fmod_toInt]

end

theorem word_toInt_eq_zero_iff {v : Word} : v.toInt = 0 ↔ v = 0 := BitVec.toInt_inj (y := 0)

theorem natAbs_tmod_lt (x : Int) {y : Int} (hy : y ≠ 0) : (x.tmod y).natAbs < y.natAbs := by
  rw [Int.natAbs_tmod]
  exact Nat.mod_lt _ (Int.natAbs_pos.2 hy)

/-- A non-zero remainder of truncated division has the sign of the dividend. -/
theorem tmod_neg_iff {x y : Int} (h : x.tmod y ≠ 0) : x.tmod y < 0 ↔ x < 0 := by
  have hsign : (x.tmod y).sign = x.sign := by
    rw [Int.sign_tmod, if_neg (mt Int.tmod_eq_zero_of_dvd h)]
  rw [← Int.sign_eq_neg_one_iff_neg, hsign, Int.sign_eq_neg_one_iff_neg]

/-- The remainder of floor division lies between 0 and the divisor, on the side of the divisor. -/
theorem fmod_between (x : Int) {y : Int} (hy : y ≠ 0) :
    0 ≤ x.fmod y ∧ x.fmod y < y ∨ y < x.fmod y ∧ x.fmod y ≤ 0 := by
  rcases lt_or_gt_of_ne hy with hneg | hpos
  · have hflip := Int.neg_fmod_neg (-x) (-y)
    rw [neg_neg, neg_neg] at hflip
    have := Int.fmod_nonneg_of_pos (-x) (neg_pos.2 hneg)
    have := Int.fmod_lt_of_pos (-x) (neg_pos.2 hneg)
    exact .inr ⟨by omega, by omega⟩
  · exact .inl ⟨Int.fmod_nonneg_of_pos x hpos, Int.fmod_lt_of_pos x hpos⟩

/-- Settles O42: in either mode the result is the exact remainder, whose size and sign are those of the division it is
the remainder of. -/
theorem remainderResult : Obligations.RemainderResult := by
  unfold Obligations.RemainderResult
  intro s
  refine ⟨aluRemainder s.params.remMode s.b s.a, exec_instrOfOperator_setA (op := .remainder) rfl, fun ha => ?_,
    fun ha => ?_⟩
  · rw [ha, aluRemainder_zero]
  have ha' : s.a.toInt ≠ 0 := mt word_toInt_eq_zero_iff.1 ha
  rw [← word_toInt_eq_zero_iff, ← Int.tmod_def, ← Int.fmod_def]
  cases s.params.remMode with
  | truncate =>
    rw [aluRemainder_truncate_toInt s.b ha]
    exact ⟨natAbs_tmod_lt _ ha', fun _ => ⟨rfl, or_iff_not_imp_left.2 tmod_neg_iff⟩, nofun⟩
  | floor =>
    rw [aluRemainder_floor_toInt s.b ha]
    have hrange := fmod_between s.b.toInt ha'
    exact ⟨by omega, nofun, fun _ => ⟨rfl, by omega⟩⟩

/-! ## Divide and Remainder together (R226, R227) -/

/-- `wrap16` keeps sums and products, so the integer identity of floor division passes to the wrapped results. -/
theorem wrap16_divide_add_remainder {b a : Word} (ha : a ≠ 0) :
    wrap16 (a.toInt * (aluDivide b a).toInt + (aluRemainder .floor b a).toInt) = b := by
  have hdiv : aluDivide b a = wrap16 (b.toInt.fdiv a.toInt) := if_neg ha
  calc wrap16 (a.toInt * (aluDivide b a).toInt + (aluRemainder .floor b a).toInt)
    _ = wrap16 (a.toInt * b.toInt.fdiv a.toInt + b.toInt.fmod a.toInt) := by
      rw [hdiv, aluRemainder_floor_toInt b ha]
      simp only [wrap16, BitVec.ofInt_add, BitVec.ofInt_mul, BitVec.ofInt_toInt]
    _ = wrap16 b.toInt := by rw [Int.mul_fdiv_add_fmod]
    _ = b := BitVec.ofInt_toInt

/-- Settles O43: the two states hold the quotient and the remainder of the same `b` and `a`. -/
theorem divideRemainderIdentity : Obligations.DivideRemainderIdentity := by
  unfold Obligations.DivideRemainderIdentity
  intro s t u hmode ha hdivide hremainder
  have ht : exec .xDivide s = .next { s with pc := s.pc + 1, a := aluDivide s.b s.a } :=
    exec_instrOfOperator_setA (op := .divide) rfl
  have hu : exec .xRemainder s = .next { s with pc := s.pc + 1, a := aluRemainder s.params.remMode s.b s.a } :=
    exec_instrOfOperator_setA (op := .remainder) rfl
  cases ht.symm.trans hdivide
  cases hu.symm.trans hremainder
  rw [hmode]
  exact wrap16_divide_add_remainder ha

/-! ## The shifts (R236, R237) -/

section
variable (b a : Word)

theorem aluLeftShift_eq : aluLeftShift b a = b <<< a.toNat := by
  unfold aluLeftShift bits16 sext16
  split
  · next h => exact (BitVec.shiftLeft_eq_zero h).symm
  · apply BitVec.eq_of_toNat_eq
    simp [Nat.shiftLeft_eq]

theorem aluRightShift_logical_eq : aluRightShift .logical b a = b >>> a.toNat := by
  unfold aluRightShift bits16 sext16
  dsimp only
  split
  · next h => exact (BitVec.ushiftRight_eq_zero h).symm
  · apply BitVec.eq_of_toNat_eq
    rw [BitVec.toNat_ushiftRight, Nat.shiftRight_eq_div_pow, BitVec.toNat_ofNat]
    exact Nat.mod_eq_of_lt (lt_of_le_of_lt (Nat.div_le_self _ _) b.isLt)

/-- Sign fill is floor division by the power of two, and a Word shifted by its width or more is all sign. -/
theorem aluRightShift_arithmetic_eq : aluRightShift .arithmetic b a = b.sshiftRight a.toNat := by
  unfold aluRightShift bits16
  dsimp only
  split
  · next h =>
    apply BitVec.eq_of_getLsbD_eq
    intro k hk
    have hout : ¬ a.toNat + k < 16 := by omega
    rw [BitVec.getLsbD_sshiftRight, if_neg hout, BitVec.msb_eq_toInt]
    by_cases hneg : b.toInt < 0
    · have hones : (-1 : Word) = BitVec.allOnes 16 := by decide
      rw [if_pos hneg, hones, BitVec.getLsbD_allOnes]
      simp [hneg, hk]
    · simp [hneg]
  · rw [BitVec.sshiftRight_eq, Int.shiftRight_eq_div_pow, Int.fdiv_eq_ediv_of_nonneg _ (by positivity), wrap16]
    norm_cast

end

/-- Settles O45: the model's shifts are those of bit vectors, which are known bit by bit. -/
theorem shiftResults : Obligations.ShiftResults := by
  unfold Obligations.ShiftResults
  intro s
  refine ⟨⟨aluLeftShift s.b s.a, exec_instrOfOperator_setA (op := .leftShift) rfl, fun k hk => ?_⟩,
    aluRightShift s.params.rshMode s.b s.a, exec_instrOfOperator_setA (op := .rightShift) rfl, fun hmode k hk => ?_,
    fun hmode k hk => ?_⟩
  · rw [aluLeftShift_eq, BitVec.getLsbD_shiftLeft, decide_eq_true hk, Bool.true_and]
    simp only [← decide_not, Nat.not_lt]
  · rw [hmode, aluRightShift_logical_eq, BitVec.getLsbD_ushiftRight, Nat.add_comm]
  · rw [hmode, aluRightShift_arithmetic_eq, BitVec.getLsbD_sshiftRight, Nat.add_comm]
    simp [hk, BitVec.msb_eq_getLsbD_last]

/-! ## The scan of a Switch table (R243) -/

section
variable {t : State} {target : Word} {n : Nat} {p : Int}

theorem switchScan_match (hv : t.inBounds p) (hu : t.inBounds (p + 1)) (h : wordAt t p = t.a) :
    switchScan t target (n + 1) p = .ok (wordAt t (p + 1)) := by
  rw [switchScan, memRead_bind_ok hv, memRead_bind_ok hu, if_pos h]; rfl

theorem switchScan_next (hv : t.inBounds p) (hu : t.inBounds (p + 1)) (h : wordAt t p ≠ t.a) :
    switchScan t target (n + 1) p = switchScan t target n (p + 2) := by
  rw [switchScan, memRead_bind_ok hv, memRead_bind_ok hu, if_neg h]

theorem switchScan_valueFault (hv : ¬ t.inBounds p) :
    switchScan t target (n + 1) p = .error (.memoryFault p .read) := memRead_bind_fault hv

theorem switchScan_targetFault (hv : t.inBounds p) (hu : ¬ t.inBounds (p + 1)) :
    switchScan t target (n + 1) p = .error (.memoryFault (p + 1) .read) := by
  rw [switchScan, memRead_bind_ok hv, memRead_bind_fault hu]

/-- Pairs that are in memory and do not match are passed over. -/
theorem switchScan_skip {j : Nat} (h : ∀ i < j,
      t.inBounds (p + 2 * (i : Nat)) ∧ t.inBounds (p + 2 * (i : Nat) + 1) ∧ wordAt t (p + 2 * (i : Nat)) ≠ t.a) :
    switchScan t target (j + n) p = switchScan t target n (p + 2 * (j : Nat)) := by
  induction j generalizing n with
  | zero => simp
  | succ j ih =>
    obtain ⟨hv, hu, hne⟩ := h j (by omega)
    calc switchScan t target (j + 1 + n) p
      _ = switchScan t target (j + (n + 1)) p := by rw [Nat.add_assoc, Nat.add_comm 1]
      _ = switchScan t target (n + 1) (p + 2 * (j : Nat)) := ih fun i hi => h i (by omega)
      _ = switchScan t target n (p + 2 * (j : Nat) + 2) := switchScan_next hv hu hne
      _ = switchScan t target n (p + 2 * ((j + 1 : Nat) : Int)) := by congr 1; omega

end

section
variable {s : State}

/-- With its count and default in memory, a Switch is the scan of its table (R243). -/
theorem opSwitch_past (h1 : s.inBounds (s.pc + 1)) (h2 : s.inBounds (s.pc + 2)) :
    opSwitch (s.past 1) =
      switchScan (s.past 1) (wordAt s (s.pc + 2)) (wordAt s (s.pc + 1)).toInt.toNat (s.pc + 3) >>= fun found =>
        pure ((s.past 1).setPc found.toInt) := by
  have hdefault : (s.past 1).pc + 1 = s.pc + 2 := by rw [past_pc]; omega
  have htable : (s.past 1).pc + 2 = s.pc + 3 := by rw [past_pc]; omega
  rw [opSwitch, hdefault, htable]
  exact (memRead_bind_ok h1).trans (memRead_bind_ok h2)

/-- The default is read after the count and before any pair. -/
theorem opSwitch_past_defaultFault (h1 : s.inBounds (s.pc + 1)) (h2 : ¬ s.inBounds (s.pc + 2)) :
    opSwitch (s.past 1) = .error (.memoryFault (s.pc + 2) .read) := by
  have hdefault : (s.past 1).pc + 1 = s.pc + 2 := by rw [past_pc]; omega
  rw [opSwitch, hdefault]
  exact (memRead_bind_ok h1).trans (memRead_bind_fault h2)

theorem exec_xSwitch_found {v : Word} (h1 : s.inBounds (s.pc + 1)) (h2 : s.inBounds (s.pc + 2))
    (h : switchScan (s.past 1) (wordAt s (s.pc + 2)) (wordAt s (s.pc + 1)).toInt.toNat (s.pc + 3) = .ok v) :
    exec .xSwitch s = .next { s with pc := v.toInt } :=
  exec_instrOfOperator_ok (op := .switch) ((opSwitch_past h1 h2).trans (by rw [h]; rfl))

theorem exec_xSwitch_scanFault {c : FaultCause} (h1 : s.inBounds (s.pc + 1)) (h2 : s.inBounds (s.pc + 2))
    (h : switchScan (s.past 1) (wordAt s (s.pc + 2)) (wordAt s (s.pc + 1)).toInt.toNat (s.pc + 3) = .error c) :
    exec .xSwitch s = .next (Faulted s c) :=
  exec_instrOfOperator_fault (op := .switch) ((opSwitch_past h1 h2).trans (by rw [h]; rfl))

end

/-- Settles O47: the two head words are read first, the scan passes over the pairs before `j`, and what it does then is
told by the pair `j`, or by the default when no pair is left. -/
theorem switchResult : Obligations.SwitchResult := by
  unfold Obligations.SwitchResult
  intro s
  refine ⟨fun h1 => exec_instrOfOperator_fault (op := .switch) (memRead_bind_fault h1),
    fun h1 h2 => exec_instrOfOperator_fault (op := .switch) (opSwitch_past_defaultFault h1 h2),
    fun h1 h2 j hbefore => ?_⟩
  have htarget : ∀ i : Nat, s.pc + 4 + 2 * (i : Int) = s.pc + 3 + 2 * (i : Nat) + 1 := fun i => by omega
  simp only [htarget] at hbefore ⊢
  have hscan : ∀ n, (wordAt s (s.pc + 1)).toInt.toNat = j + n →
      switchScan (s.past 1) (wordAt s (s.pc + 2)) (wordAt s (s.pc + 1)).toInt.toNat (s.pc + 3) =
        switchScan (s.past 1) (wordAt s (s.pc + 2)) n (s.pc + 3 + 2 * (j : Nat)) := fun n hn => by
    rw [hn]
    exact switchScan_skip fun i hi => (hbefore i hi).2
  refine ⟨fun hend => ?_, fun hmore => ?_⟩
  · have hcount : (wordAt s (s.pc + 1)).toInt.toNat = j + 0 := by
      cases j with
      | zero => omega
      | succ j =>
        obtain ⟨hlt, -⟩ := hbefore j (by omega)
        omega
    exact exec_xSwitch_found h1 h2 (hscan 0 hcount)
  · obtain ⟨n, hcount⟩ : ∃ n, (wordAt s (s.pc + 1)).toInt.toNat = j + (n + 1) := Nat.exists_eq_add_of_lt (by omega)
    have hpair := hscan (n + 1) hcount
    exact ⟨fun hv => exec_xSwitch_scanFault h1 h2 (hpair.trans (switchScan_valueFault hv)),
      fun hv hu => exec_xSwitch_scanFault h1 h2 (hpair.trans (switchScan_targetFault hv hu)),
      fun hv hu hmatch => exec_xSwitch_found h1 h2 (hpair.trans (switchScan_match hv hu hmatch))⟩

/-! ## Operands that name no operator (R244) -/

theorem executeNumber_unknown {d : Int} (h : d < 1 ∨ 23 < d) (t : State) :
    executeNumber d t = .error (.unknownOperator d) := by
  unfold executeNumber
  split
  · rfl
  · next hd => rw [operatorOfNumber_none_iff.2 (by omega)]

/-- Settles O38: an operand out of 1..23 has no row in the operator table, and an inline word that names no operator has
the fault as its body. -/
theorem unknownOperatorFaults : Obligations.UnknownOperatorFaults := by
  unfold Obligations.UnknownOperatorFaults
  refine ⟨fun o s d hd hout => ?_, fun n s => exec_unknownOperator s n⟩
  rw [exec_execute]
  exact withOperand_bodyFaults hd (executeNumber_unknown hout _)

/-! ## Indirection (R222) -/

/-- Settles O39: Indirection is one memory read at the address in `a`. -/
theorem indirectionResult : Obligations.IndirectionResult := by
  unfold Obligations.IndirectionResult
  intro s
  exact ⟨fun hin => exec_instrOfOperator_setA (op := .indirection) (memRead_bind_ok (t := s.past 1) hin),
    fun hout => exec_instrOfOperator_fault (op := .indirection) (memRead_bind_fault (t := s.past 1) hout)⟩

/-! ## Negate, Not and the bitwise operators (R223, R224, R238 to R241) -/

/-- The complement of a pattern is `-a - 1`, which is a Word for every `a` (R224). -/
theorem aluNot_eq (a : Word) : aluNot a = wrap16 (-a.toInt - 1) := by
  rw [aluNot, BitVec.not_eq_neg_add, wrap16, sub_eq_add_neg (-a.toInt), BitVec.ofInt_add, BitVec.ofInt_neg,
    BitVec.ofInt_toInt, BitVec.sub_eq_add_neg]
  rfl

theorem aluEquivalence_getLsbD (b a : Word) {k : Nat} (hk : k < 16) :
    (aluEquivalence b a).getLsbD k = (b.getLsbD k == a.getLsbD k) := by
  rw [aluEquivalence, BitVec.getLsbD_not, BitVec.getLsbD_xor, decide_eq_true hk, Bool.true_and]
  cases b.getLsbD k <;> cases a.getLsbD k <;> rfl

/-- Settles O40: each result is its row of the ALU; Equivalence is the one known bit by bit. -/
theorem unaryAndBitwiseResults : Obligations.UnaryAndBitwiseResults := by
  unfold Obligations.UnaryAndBitwiseResults
  intro s
  rw [← aluNot_eq]
  exact ⟨exec_instrOfOperator_setA (op := .negate) rfl, exec_instrOfOperator_setA (op := .bitNot) rfl,
    exec_instrOfOperator_setA (op := .bitAnd) rfl, exec_instrOfOperator_setA (op := .bitOr) rfl,
    exec_instrOfOperator_setA (op := .bitXor) rfl,
    aluEquivalence s.b s.a, exec_instrOfOperator_setA (op := .bitEqv) rfl, fun _ => aluEquivalence_getLsbD s.b s.a⟩

/-! ## Multiply, Divide, Add and Subtract (R225, R226, R228, R229) -/

/-- Settles O41: each of the four is its row of the ALU. -/
theorem arithmeticResults : Obligations.ArithmeticResults := by
  unfold Obligations.ArithmeticResults
  intro s
  exact ⟨exec_instrOfOperator_setA (op := .multiply) rfl, exec_instrOfOperator_setA (op := .divide) rfl,
    exec_instrOfOperator_setA (op := .add) rfl, exec_instrOfOperator_setA (op := .subtract) rfl⟩

/-! ## The comparisons (R230 to R235, R247) -/

theorem boolWord_decide (c : Prop) [Decidable c] : boolWord (decide c) = if c then -1 else 0 := by
  simp only [boolWord, decide_eq_true_iff]

/-- An operator that compares `b` with `a` writes -1 or 0 to `a` (R14, R247). -/
theorem exec_comparison {op : Operator} {s : State} {c : Prop} [Decidable c]
    (h : runOperator op (s.past 1) = .ok ((s.past 1).setA (boolWord (decide c)))) :
    exec (instrOfOperator op) s = .next { s with pc := s.pc + 1, a := if c then -1 else 0 } := by
  rw [exec_instrOfOperator_setA h, boolWord_decide]

/-- Settles O44: each comparison is the truth value of its relation on signed Words. -/
theorem comparisonResults : Obligations.ComparisonResults := by
  unfold Obligations.ComparisonResults
  intro s
  exact ⟨exec_comparison (op := .equal) rfl, exec_comparison (op := .notEqual) rfl, exec_comparison (op := .less) rfl,
    exec_comparison (op := .greaterOrEqual) rfl, exec_comparison (op := .greater) rfl,
    exec_comparison (op := .lessOrEqual) rfl⟩

/-! ## Finish (R242) -/

/-- A loaded core that halted without a fault reports success with the exit value `a` (R170). -/
theorem reportOf_success {t : State} (hphase : t.phase = .loaded) (hfault : t.faultReg = none)
    (hhalt : t.running = false) : reportOf t = some ⟨true, t.output, t.warnings, some t.a, none⟩ := by
  simp only [reportOf, hphase, hfault, hhalt]

/-- Settles O46: Finish clears the running flag, so the state after it is one that has ended with success. -/
theorem finishResult : Obligations.FinishResult := by
  unfold Obligations.FinishResult
  intro s
  exact ⟨exec_instrOfOperator_ok (op := .finish) rfl, fun hphase hfault => reportOf_success hphase hfault rfl⟩

end Sys2Proof.Machine
end

section
/-! PROOFS. The runtime calls: the port itself, the calls of one argument, and the calls that read the input (R260 to
R267, R276, R279). -/

namespace Sys2Proof.Machine

/-! ## The port: unknown numbers and the first argument (R260 to R262) -/

/-- Settles O20: a number that no name has takes the port's other branch. -/
theorem unknownSystemCallWarns : Obligations.UnknownSystemCallWarns := by
  unfold Obligations.UnknownSystemCallWarns
  intro o s d hd ha hunknown
  have hname : sysNameOf (s.past o.words).params.sysNums (s.past o.words).a = none :=
    sysNameOf_none_iff.2 hunknown
  rw [exec_call_system (resolve_ok_iff.2 hd) ha, syscall, hname]
  rfl

/-- The calls that read no argument (R206, R265, R268, R269, R276, R280). -/
def argumentFree : List SysName := [.readChar, .readNumber, .findInput, .findOutput, .level, .freeVector]

/-- Every other call reads its first argument before it does anything else (R261). -/
theorem runSyscall_reads_firstArgument {n : SysName} (h : n ∉ argumentFree) (frame : Int) (t : State) :
    ∃ f, runSyscall n frame t = argument t frame 0 >>= f := by
  cases n
  case readChar | readNumber | findInput | findOutput | level | freeVector => simp [argumentFree] at h
  all_goals exact ⟨_, rfl⟩

/-- Settles O21: a read outside memory, before any effect, is the whole call. -/
theorem firstArgumentOutsideMemoryFaults : Obligations.FirstArgumentOutsideMemoryFaults := by
  unfold Obligations.FirstArgumentOutsideMemoryFaults
  intro o s n frame hcall hbad hn
  obtain ⟨f, hf⟩ := runSyscall_reads_firstArgument hn frame (s.past o.words)
  exact exec_callsSystem_fault hcall (hf.trans (firstArgument_fault hbad))

/-! ## Calls of one argument (R266, R267, R279) -/

/-- Settles O25: the call reads one argument, then writes `a` and the running flag. -/
theorem stopResult : Obligations.StopResult := by
  unfold Obligations.StopResult
  intro o s frame hcall
  exact exec_call_oneArgument hcall rfl

/-- Settles O34: the call reads one argument, then writes the watermark and `a`. -/
theorem getVectorResult : Obligations.GetVectorResult := by
  unfold Obligations.GetVectorResult
  intro o s frame hcall
  exact exec_call_oneArgument hcall rfl

/-- The state after a call that outputs `l` and changes nothing else (R281). -/
def printed (s : State) (n : Nat) (l : List Byte) : State :=
  { s with pc := s.pc + n, output := s.output ++ if s.cout = s.params.printHandle then l else [] }

/-- A call that ends in `out` completes in the state that has its output. -/
theorem out_past (s : State) (n : Nat) (l : List Byte) : (s.past n).out l = printed s n l := out_eq _ l

/-- Settles O26: the call reads one argument and outputs its low byte. -/
theorem writeCharResult : Obligations.WriteCharResult := by
  unfold Obligations.WriteCharResult
  intro o s frame hcall
  obtain ⟨hok, hfault⟩ := exec_call_oneArgument hcall (f := fun v => (s.past o.words).out [v.extractLsb' 0 8]) rfl
  simp only [out_past, extract_low_byte] at hok
  exact ⟨hok, hfault⟩

/-! ## Input (R265, R276) -/

theorem zeroExtend_byte (x : Byte) : x.zeroExtend 16 = wrap16 x.toNat := by
  rw [wrap16, BitVec.ofInt_natCast, BitVec.ofNat_toNat]

theorem sysReadChar_nil {t : State} (h : t.input = []) : sysReadChar t = .ok (t.setA (-1)) := by
  unfold sysReadChar; rw [h]

theorem sysReadChar_cons {t : State} {x : Byte} {rest : List Byte} (h : t.input = x :: rest) :
    sysReadChar t = .ok ((t.setA (wrap16 x.toNat)).setInput rest) := by
  unfold sysReadChar; rw [h, ← zeroExtend_byte]

/-- Settles O23, by the two shapes of the input buffer. -/
theorem readCharResult : Obligations.ReadCharResult := by
  unfold Obligations.ReadCharResult
  intro o s frame hcall
  exact ⟨fun hin => exec_callsSystem_ok hcall (sysReadChar_nil (t := s.past o.words) hin),
    fun x rest hin => exec_callsSystem_ok hcall (sysReadChar_cons (t := s.past o.words) hin)⟩

/-- A run of digits is taken whole, up to the first byte that is no digit. -/
theorem takeDecimal_append {ds rest : List Byte} (hds : ∀ x ∈ ds, isDigitByte x)
    (hrest : ∀ x ∈ rest.head?, ¬ isDigitByte x) (v : Nat) :
    takeDecimal (ds ++ rest) v = (ds.foldl (fun v x => v * 10 + (x.toNat - 48)) v, rest) := by
  induction ds generalizing v with
  | nil =>
    cases rest with
    | nil => rfl
    | cons x rest => exact if_neg (hrest x rfl)
  | cons x ds ih =>
    have hx : isDigitByte x := hds x List.mem_cons_self
    have hrun : takeDecimal (x :: ds ++ rest) v = takeDecimal (ds ++ rest) (v * 10 + (x.toNat - 48)) := if_pos hx
    rw [hrun, ih fun y hy => hds y (List.mem_cons_of_mem x hy)]
    rfl

theorem parseNumber_minus (l : List Byte) :
    parseNumber (45 :: l) = (-((takeDecimal l 0).1 : Int), (takeDecimal l 0).2) := rfl

theorem parseNumber_unsigned {l : List Byte} (h : l.head? ≠ some 45) :
    parseNumber l = (((takeDecimal l 0).1 : Int), (takeDecimal l 0).2) := by
  unfold parseNumber
  split
  · exact absurd rfl h
  · rfl

/-- A number without its sign does not begin with one, whether it has digits or not. -/
theorem head_ne_minus {ds rest : List Byte} (hds : ∀ x ∈ ds, isDigitByte x)
    (hrest : ds = [] → rest.head? ≠ some 45) : (ds ++ rest).head? ≠ some 45 := by
  cases ds with
  | nil => exact hrest rfl
  | cons x ds =>
    rintro ⟨⟩
    exact absurd (hds 45 List.mem_cons_self).1 (by decide)

/-- Settles O24: the sign, and then the run of digits. -/
theorem readNumberResult : Obligations.ReadNumberResult := by
  unfold Obligations.ReadNumberResult
  intro o s frame neg ds rest hcall hds hrest hsign hin
  have hrun := takeDecimal_append hds hrest 0
  have hparse : parseNumber s.input = (if neg then -(digitsValue ds : Int) else digitsValue ds, rest) := by
    cases neg with
    | true =>
      have hminus : s.input = 45 :: (ds ++ rest) := hin
      rw [hminus, parseNumber_minus, hrun]
      rfl
    | false =>
      have hplain : s.input = ds ++ rest := hin
      rw [hplain, parseNumber_unsigned (head_ne_minus hds (hsign rfl)), hrun]
      rfl
  refine exec_callsSystem_ok hcall ?_
  simp only [runSyscall, sysReadNumber, past_input, hparse]
  rfl

end Sys2Proof.Machine
end

section
/-! PROOFS. The text of numbers: the decimal rendering and the digits of a pattern (R273, R274, R282), and the calls
that output them (R271 to R274). -/

namespace Sys2Proof.Machine

/-! ## The decimal rendering (R282) -/

/-- `ds` is the decimal rendering of `n`: digits only, at least one, with the value `n` and no leading zero but of 0. -/
structure IsDecimal (n : Nat) (ds : List Byte) : Prop where
  digits : ∀ x ∈ ds, isDigitByte x
  value : digitsValue ds = n
  nonempty : ds ≠ []
  leading : ds.head? = some 48 → n = 0 ∧ ds = [48]

theorem digitByte_toNat {d : Nat} (h : d < 10) : (digitByte d).toNat = 48 + d := by
  rw [digitByte, if_pos h, BitVec.toNat_ofNat]
  omega

theorem isDigitByte_digitByte {d : Nat} (h : d < 10) : isDigitByte (digitByte d) := by
  rw [isDigitByte, digitByte_toNat h]
  omega

theorem digitByte_eq_zero {d : Nat} (h : d < 10) (h0 : digitByte d = 48) : d = 0 := by
  have hcode : (digitByte d).toNat = 48 := by rw [h0]; rfl
  rw [digitByte_toNat h] at hcode
  omega

theorem digitsValue_snoc (ds : List Byte) {d : Nat} (h : d < 10) :
    digitsValue (ds ++ [digitByte d]) = digitsValue ds * 10 + d := by
  simp [digitsValue, digitByte_toNat h]

theorem IsDecimal.single {d : Nat} (h : d < 10) : IsDecimal d [digitByte d] where
  digits x hx := by
    rw [List.mem_singleton.1 hx]
    exact isDigitByte_digitByte h
  value := by simpa [digitsValue] using digitsValue_snoc [] h
  nonempty := List.cons_ne_nil _ _
  leading h0 := by
    obtain rfl := digitByte_eq_zero h (Option.some.inj h0)
    exact ⟨rfl, rfl⟩

/-- A digit after the rendering of a positive number. -/
theorem IsDecimal.snoc {n d : Nat} {ds : List Byte} (hds : IsDecimal n ds) (hn : n ≠ 0) (h : d < 10) :
    IsDecimal (n * 10 + d) (ds ++ [digitByte d]) where
  digits x hx := by
    rcases List.mem_append.1 hx with hx | hx
    · exact hds.digits x hx
    · rw [List.mem_singleton.1 hx]
      exact isDigitByte_digitByte h
  value := by rw [digitsValue_snoc ds h, hds.value]
  nonempty := List.append_ne_nil_of_left_ne_nil hds.nonempty _
  leading h0 := by
    rw [List.head?_append_of_ne_nil _ hds.nonempty] at h0
    exact absurd (hds.leading h0).1 hn

/-- With fuel for every digit, `decimalDigits` puts the rendering of `n` before its accumulator. -/
theorem decimalDigits_isDecimal {fuel n : Nat} (hn : n < 10 ^ (fuel + 1)) (acc : List Byte) :
    ∃ ds, IsDecimal n ds ∧ decimalDigits (fuel + 1) n acc = ds ++ acc := by
  induction fuel generalizing n acc with
  | zero =>
    have hlt : n < 10 := by simpa using hn
    refine ⟨_, IsDecimal.single hlt, ?_⟩
    rw [decimalDigits, if_pos (by omega), Nat.mod_eq_of_lt hlt]
    rfl
  | succ fuel ih =>
    have hdigit : n % 10 < 10 := Nat.mod_lt n (by omega)
    by_cases hlast : n / 10 = 0
    · have hlt : n < 10 := by omega
      refine ⟨_, IsDecimal.single hlt, ?_⟩
      rw [decimalDigits, if_pos hlast, Nat.mod_eq_of_lt hlt]
      rfl
    · have hquot : n / 10 < 10 ^ (fuel + 1) := by rw [pow_succ] at hn; omega
      obtain ⟨ds, hds, hrun⟩ := ih hquot (digitByte (n % 10) :: acc)
      have hsnoc := hds.snoc hlast hdigit
      rw [Nat.div_add_mod'] at hsnoc
      refine ⟨_, hsnoc, ?_⟩
      rw [decimalDigits, if_neg hlast, hrun, List.append_assoc]
      rfl

/-- Settles O28: the magnitude of a Word has at most five digits. -/
theorem decimalRendering : Obligations.DecimalRendering := by
  unfold Obligations.DecimalRendering
  intro v
  have hmagnitude : v.toInt.natAbs < 10 ^ (4 + 1) := by
    have hlo := BitVec.le_toInt v
    have hhi := BitVec.toInt_lt (x := v)
    omega
  obtain ⟨ds, hds, hrun⟩ := decimalDigits_isDecimal hmagnitude []
  refine ⟨ds, ?_, hds.digits, hds.value, hds.nonempty, fun h0 => ?_⟩
  · rw [decBytes, hrun, List.append_nil]
  · obtain ⟨hzero, hds0⟩ := hds.leading h0
    exact ⟨BitVec.eq_of_toInt_eq (Int.natAbs_eq_zero.1 hzero), hds0⟩

/-! ## Calls of two arguments that output text (R272 to R274) -/

section
variable {α : Type} {t : State} {frame : Int} {f : Word → Word → Except FaultCause α}

theorem twoArguments_ok (h : ArgsReadable t frame 2) :
    (argument t frame 0 >>= fun v => argument t frame 1 >>= f v) = f (argAt t frame 0) (argAt t frame 1) := by
  rw [argument_bind_ok (h 0 (by omega)), argument_bind_ok (h 1 (by omega))]

theorem twoArguments_fault {i : Nat} (hi : i < 2) (h : FirstBadArgument t frame i) :
    (argument t frame 0 >>= fun v => argument t frame 1 >>= f v) = .error (.memoryFault (frame + 2 + i) .read) := by
  obtain ⟨hread, hbad⟩ := h
  interval_cases i
  · exact argument_bind_fault hbad
  · rw [argument_bind_ok (hread 0 (by omega)), argument_bind_fault hbad]

end

/-- A system call that only reads its two arguments and then updates the state completes, or faults on the first of them
outside memory. -/
theorem exec_call_twoArguments {o : Operand} {s : State} {n : SysName} {frame : Int} {f : Word → Word → State}
    (h : CallsSystem o s n frame)
    (hn : runSyscall n frame (s.past o.words) =
      argument (s.past o.words) frame 0 >>= fun v => argument (s.past o.words) frame 1 >>= fun w => pure (f v w)) :
    (ArgsReadable s frame 2 → exec (.call o) s = .next (f (argAt s frame 0) (argAt s frame 1))) ∧
      ∀ i < 2, FirstBadArgument s frame i →
        exec (.call o) s = .next (Faulted s (.memoryFault (frame + 2 + (i : Nat)) .read)) :=
  ⟨fun hargs => exec_callsSystem_ok h (hn.trans (twoArguments_ok (t := s.past o.words) hargs)),
    fun _ hi hbad => exec_callsSystem_fault h (hn.trans (twoArguments_fault (t := s.past o.words) hi hbad))⟩

/-- Settles O29: the two calls read one and two arguments, and output text made of the rendering alone. -/
theorem numberOutputResults : Obligations.NumberOutputResults := by
  unfold Obligations.NumberOutputResults
  intro o s frame
  refine ⟨fun hcall => ?_, fun hcall => ?_⟩
  · obtain ⟨hok, hfault⟩ := exec_call_oneArgument hcall (f := fun v => (s.past o.words).out (decBytes v)) rfl
    simp only [out_past] at hok
    refine ⟨fun hargs => hok (by simpa using hargs 0 (by omega)), fun i hi hbad => ?_⟩
    obtain rfl : i = 0 := by omega
    simpa using hfault (by simpa using hbad.2)
  · obtain ⟨hok, hfault⟩ :=
      exec_call_twoArguments hcall (f := fun v w => (s.past o.words).out (paddedBytes v w.toInt)) rfl
    simp only [out_past] at hok
    exact ⟨fun hargs => ⟨_, (Int.toNat_eq_max _).trans (max_comm _ _), hok hargs⟩, hfault⟩

/-! ## Digits of a pattern (R273, R274) -/

/-- The loop over the digits, from the most significant one down. -/
theorem radixBytes_eq_map (bits pattern m : Nat) :
    radixBytes bits pattern m =
      (List.range m).map fun j => digitCode (pattern / (2 ^ bits) ^ (m - 1 - j) % 2 ^ bits) := by
  induction m with
  | zero => rfl
  | succ m ih =>
    rw [radixBytes, ih, List.range_succ_eq_map, List.map_cons, List.map_map, Nat.shiftRight_eq_div_pow, pow_mul]
    refine congrArg₂ List.cons rfl (List.map_congr_left fun j _ => ?_)
    have hplace : m + 1 - 1 - (j + 1) = m - 1 - j := by omega
    simp only [Function.comp_apply, Nat.succ_eq_add_one, hplace]

/-- Write-hex and Write-octal read a value and a count, and output that many digits of `bits` bits, at least one. -/
theorem exec_call_radix {o : Operand} {s : State} {n : SysName} {frame : Int} {bits : Nat}
    (h : CallsSystem o s n frame)
    (hn : runSyscall n frame (s.past o.words) =
      argument (s.past o.words) frame 0 >>= fun v => argument (s.past o.words) frame 1 >>= fun k =>
        pure ((s.past o.words).out (radixBytes bits (bits16 v) (digitCount k)))) :
    (ArgsReadable s frame 2 → ∀ m : Nat, (m : Int) = max (argAt s frame 1).toInt 1 →
      exec (.call o) s = .next (printed s o.words ((List.range m).map fun j =>
        digitCode ((argAt s frame 0).toNat / (2 ^ bits) ^ (m - 1 - j) % 2 ^ bits)))) ∧
    ∀ i < 2, FirstBadArgument s frame i →
      exec (.call o) s = .next (Faulted s (.memoryFault (frame + 2 + (i : Nat)) .read)) := by
  obtain ⟨hok, hfault⟩ := exec_call_twoArguments h hn
  refine ⟨fun hargs m hm => ?_, hfault⟩
  have hcount : digitCount (argAt s frame 1) = m := by rw [digitCount, ← hm, Int.toNat_natCast]
  rw [hok hargs, out_past, hcount, radixBytes_eq_map]
  rfl

/-- Settles O30: one loop for both calls, over digits of four and of three bits. -/
theorem radixOutputResults : Obligations.RadixOutputResults := by
  unfold Obligations.RadixOutputResults
  intro o s frame name radix hname hcall
  rcases List.mem_pair.1 hname with h | h
  · obtain ⟨rfl, rfl⟩ := Prod.mk.inj h
    exact exec_call_radix (bits := 4) hcall rfl
  · obtain ⟨rfl, rfl⟩ := Prod.mk.inj h
    exact exec_call_radix (bits := 3) hcall rfl

end Sys2Proof.Machine
end

section
/-! PROOFS. Write-formatted: the loop of R275, one equation for each way a round goes, and the rounds in a row. -/

namespace Sys2Proof.Machine

/-! ## Moving `pc` moves no byte that the loop reads -/

theorem bytesFrom_past (s : State) (n : Nat) (addr : Int) (count : Nat) (off : Int) :
    bytesFrom (s.past n) addr count off = bytesFrom s addr count off := by
  induction count generalizing off with
  | zero => rfl
  | succ count ih => rw [bytesFrom, bytesFrom, ih]; rfl

theorem stringBytes_past (s : State) (n : Nat) (addr : Int) : stringBytes (s.past n) addr = stringBytes s addr := by
  simp only [stringBytes, bytesFrom_past]; rfl

theorem getByte_past (s : State) (n : Nat) (addr off : Int) : getByte (s.past n) addr off = getByte s addr off := rfl

theorem argument_past (s : State) (n : Nat) (frame : Int) (i : Nat) :
    argument (s.past n) frame i = argument s frame i := rfl

theorem formatBytes_past (s : State) (n : Nat) (frame f : Int) (len fuel i k : Nat) :
    formatBytes (s.past n) frame f len fuel i k = formatBytes s frame f len fuel i k := by
  induction fuel generalizing i k with
  | zero => rfl
  | succ fuel ih => simp only [formatBytes, ih, getByte_past, argument_past, stringBytes_past]

/-! ## Reads of one byte -/

section
variable {α : Type} {s : State} {addr off : Int} {g : Byte → Except FaultCause α}

theorem getByte_bind_ok (h : s.inBounds (byteWord addr off)) : getByte s addr off >>= g = g (byteAt s addr off) := by
  rw [getByte_eq_byteAt, if_pos h]; rfl

theorem getByte_bind_fault (h : ¬ s.inBounds (byteWord addr off)) :
    getByte s addr off >>= g = .error (.memoryFault (byteWord addr off) .read) := by
  rw [getByte_eq_byteAt, if_neg h]; rfl

end

/-! ## One round (R275) -/

/-- What the specifier `%x` at byte `i` outputs, and the byte and the argument of the next round. -/
def specifierRound (s : State) (frame f : Int) (len i k : Nat) (x : Byte) :
    Except FaultCause (List Byte × Nat × Nat) :=
  if x = 83 then do
    let addr ← argument s frame k
    let text ← stringBytes s addr.toInt
    return (text, i + 2, k + 1)
  else if x = 78 then do
    let v ← argument s frame k
    return (decBytes v, i + 2, k + 1)
  else if x = 67 then do
    let v ← argument s frame k
    return ([v.extractLsb' 0 8], i + 2, k + 1)
  else if x = 73 then
    if i + 2 ≤ len then do
      let wc ← getByte s f (i + 2 : Nat)
      let v ← argument s frame k
      return (paddedBytes v (formatWidth wc), i + 3, k + 1)
    else do
      let v ← argument s frame k
      return (paddedBytes v 0, i + 2, k + 1)
  else return ([x], i + 2, k)

/-- What the round at byte `i` outputs, and the byte and the argument of the next round. -/
def roundAt (s : State) (frame f : Int) (len i k : Nat) : Except FaultCause (List Byte × Nat × Nat) := do
  let c ← getByte s f i
  if c ≠ 37 then return ([c], i + 1, k)
  if len < i + 1 then return ([], i + 1, k)
  let x ← getByte s f (i + 1 : Nat)
  specifierRound s frame f len i k x

section
variable {s : State} {frame f : Int} {len : Nat}

theorem formatBytes_end {i : Nat} (h : len < i) (fuel k : Nat) : formatBytes s frame f len fuel i k = .ok [] := by
  cases fuel with
  | zero => rfl
  | succ fuel => rw [formatBytes, if_pos h]; rfl

/-- The loop is one round and then the loop from where the round ends. -/
theorem formatBytes_round {i : Nat} (h : i ≤ len) (fuel k : Nat) :
    formatBytes s frame f len (fuel + 1) i k =
      roundAt s frame f len i k >>= fun r =>
        formatBytes s frame f len fuel r.2.1 r.2.2 >>= fun rest => pure (r.1 ++ rest) := by
  rw [formatBytes, if_neg (by omega), roundAt, bind_assoc]
  refine congrArg (bind _) (funext fun c => ?_)
  by_cases hc : c ≠ 37
  · rw [if_pos hc, if_pos hc]; rfl
  rw [if_neg hc, if_neg hc]
  by_cases hend : len < i + 1
  · rw [if_pos hend, if_pos hend, pure_bind, formatBytes_end hend]; rfl
  rw [if_neg hend, if_neg hend, bind_assoc]
  refine congrArg (bind _) (funext fun x => ?_)
  rw [specifierRound]
  split_ifs <;> simp only [bind_assoc, pure_bind, List.singleton_append]

/-! ### The specifiers -/

section
variable {i k : Nat} {x : Byte}

theorem roundAt_specifier (h : SpecifierAt s f len i x) :
    roundAt s frame f len i k = specifierRound s frame f len i k x := by
  obtain ⟨hlen, hin, hpercent, hin', rfl⟩ := h
  rw [roundAt, getByte_bind_ok hin, if_neg (not_not.2 hpercent), if_neg (by omega), getByte_bind_ok hin']

theorem specifierRound_string :
    specifierRound s frame f len i k 83 =
      argument s frame k >>= fun addr => stringBytes s addr.toInt >>= fun text => pure (text, i + 2, k + 1) := rfl

theorem specifierRound_number :
    specifierRound s frame f len i k 78 = argument s frame k >>= fun v => pure (decBytes v, i + 2, k + 1) := rfl

theorem specifierRound_char :
    specifierRound s frame f len i k 67 =
      argument s frame k >>= fun v => pure ([v.extractLsb' 0 8], i + 2, k + 1) := rfl

theorem specifierRound_padded (h : i + 2 ≤ len) :
    specifierRound s frame f len i k 73 =
      getByte s f (i + 2 : Nat) >>= fun wc => argument s frame k >>= fun v =>
        pure (paddedBytes v (formatWidth wc), i + 3, k + 1) := if_pos h

theorem specifierRound_paddedAtEnd (h : len < i + 2) :
    specifierRound s frame f len i k 73 = argument s frame k >>= fun v => pure (paddedBytes v 0, i + 2, k + 1) :=
  if_neg (Nat.not_le.2 h)

theorem specifierRound_other (h : x ∉ ([83, 78, 67, 73] : List Byte)) :
    specifierRound s frame f len i k x = .ok ([x], i + 2, k) := by
  simp only [List.mem_cons, List.not_mem_nil, or_false, not_or] at h
  obtain ⟨hS, hN, hC, hI⟩ := h
  rw [specifierRound, if_neg hS, if_neg hN, if_neg hC, if_neg hI]
  rfl

/-- The four specifiers read their argument, `%I` after its width byte. -/
theorem specifierRound_argumentFault (hx : x ∈ ([83, 78, 67, 73] : List Byte))
    (hwidth : x = 73 → i + 2 ≤ len → s.inBounds (byteWord f (i + 2 : Nat))) (h : ¬ s.inBounds (frame + 2 + k)) :
    specifierRound s frame f len i k x = .error (.memoryFault (frame + 2 + k) .read) := by
  fin_cases hx
  · exact argument_bind_fault h
  · exact argument_bind_fault h
  · exact argument_bind_fault h
  · by_cases hlen : i + 2 ≤ len
    · exact (specifierRound_padded hlen).trans ((getByte_bind_ok (hwidth rfl hlen)).trans (argument_bind_fault h))
    · exact (specifierRound_paddedAtEnd (by omega)).trans (argument_bind_fault h)

end

theorem paddedBytes_zero (v : Word) : paddedBytes v 0 = decBytes v := by
  have hnone : ((0 : Int) - (decBytes v).length).toNat = 0 := by omega
  rw [paddedBytes, hnone]; rfl

theorem formatWidth_eq (x : Byte) : formatWidth x = widthOf x := by
  unfold formatWidth widthOf
  split
  · omega
  · rfl

theorem paddedBytes_width (v : Word) (x : Byte) :
    paddedBytes v (formatWidth x) = List.replicate (widthOf x - (decBytes v).length) 32 ++ decBytes v := by
  rw [paddedBytes, formatWidth_eq, Int.toNat_sub]

/-! ### The rounds of the statement -/

section
variable {i k i' k' : Nat} {out : List Byte}

/-- A round that completes is the model's round. -/
theorem roundAt_eq_ok (h : FormatRound s frame f len i k out i' k') :
    roundAt s frame f len i k = .ok (out, i', k') := by
  cases h with
  | plain hin hplain => rw [roundAt, getByte_bind_ok hin, if_pos hplain]; rfl
  | finalPercent hin hpercent hend =>
    rw [roundAt, getByte_bind_ok hin, if_neg (not_not.2 hpercent), if_pos hend]; rfl
  | string hspec harg htext =>
    rw [roundAt_specifier hspec, specifierRound_string, argument_bind_ok harg, stringBytes_readable htext]; rfl
  | number hspec harg => rw [roundAt_specifier hspec, specifierRound_number, argument_bind_ok harg]; rfl
  | char hspec harg =>
    rw [roundAt_specifier hspec, specifierRound_char, argument_bind_ok harg, extract_low_byte]; rfl
  | padded hspec hlen hwidth harg =>
    rw [roundAt_specifier hspec, specifierRound_padded hlen, getByte_bind_ok hwidth, argument_bind_ok harg,
      paddedBytes_width]
    rfl
  | paddedAtEnd hspec hend harg =>
    rw [roundAt_specifier hspec, specifierRound_paddedAtEnd hend, argument_bind_ok harg, paddedBytes_zero]; rfl
  | other x hspec hx => rw [roundAt_specifier hspec, specifierRound_other hx]

/-- A round that meets an address outside memory faults there. -/
theorem roundAt_eq_fault {bad : Int} (h : FormatRoundFaults s frame f len i k bad) :
    roundAt s frame f len i k = .error (.memoryFault bad .read) := by
  cases h with
  | formatByte hbad => exact getByte_bind_fault hbad
  | specifierByte hin hpercent hlen hbad =>
    rw [roundAt, getByte_bind_ok hin, if_neg (not_not.2 hpercent), if_neg (by omega), getByte_bind_fault hbad]
  | widthByte hspec hlen hbad => rw [roundAt_specifier hspec, specifierRound_padded hlen, getByte_bind_fault hbad]
  | argument x hspec hx hwidth hbad => rw [roundAt_specifier hspec, specifierRound_argumentFault hx hwidth hbad]
  | string _ hspec harg hbad =>
    rw [roundAt_specifier hspec, specifierRound_string, argument_bind_ok harg, stringBytes_fault hbad]; rfl

/-- Every round passes at least one byte of the format. -/
theorem FormatRound.lt (h : FormatRound s frame f len i k out i' k') : i < i' := by
  cases h <;> omega

/-- After some rounds in a row the loop has output their text, and has fuel left for the rest of the format. -/
theorem formatBytes_rounds (h : FormatRounds s frame f len i k out i' k') {fuel : Nat} (hfuel : len < i + fuel) :
    ∃ fuel', len < i' + fuel' ∧
      formatBytes s frame f len fuel i k =
        formatBytes s frame f len fuel' i' k' >>= fun rest => pure (out ++ rest) := by
  induction h generalizing fuel with
  | none i k => exact ⟨fuel, hfuel, (bind_pure _).symm⟩
  | more hi hround hrest ih =>
    have hlt := hround.lt
    obtain ⟨fuel, rfl⟩ : ∃ n, fuel = n + 1 := ⟨fuel - 1, by omega⟩
    obtain ⟨fuel', hfuel', hrun⟩ := ih (fuel := fuel) (by omega)
    refine ⟨fuel', hfuel', ?_⟩
    rw [formatBytes_round hi, roundAt_eq_ok hround, ← pure_eq_ok, pure_bind]
    simp only [hrun, bind_assoc, pure_bind, List.append_assoc]

end

/-! ## The whole format -/

section
variable {text : List Byte} {i k : Nat}

theorem formatBytes_complete (h : FormatRounds s frame f len 1 1 text i k) (hend : len < i) :
    formatBytes s frame f len len 1 1 = .ok text := by
  obtain ⟨fuel, -, hrun⟩ := formatBytes_rounds h (fuel := len) (by omega)
  rw [hrun, formatBytes_end hend]
  exact congrArg Except.ok (List.append_nil text)

theorem formatBytes_fault {bad : Int} (h : FormatRounds s frame f len 1 1 text i k) (hi : i ≤ len)
    (hbad : FormatRoundFaults s frame f len i k bad) :
    formatBytes s frame f len len 1 1 = .error (.memoryFault bad .read) := by
  obtain ⟨fuel, hfuel, hrun⟩ := formatBytes_rounds h (fuel := len) (by omega)
  obtain ⟨fuel, rfl⟩ : ∃ n, fuel = n + 1 := ⟨fuel - 1, by omega⟩
  rw [hrun, formatBytes_round hi, roundAt_eq_fault hbad]
  rfl

end

end

/-- With its argument and its length byte in memory, the call outputs what the loop over the format answers. -/
theorem sysWriteFormatted_past {s : State} {frame : Int} (n : Nat) (harg : s.inBounds (frame + 2))
    (hlen : s.inBounds (byteWord (argAt s frame 0).toInt 0)) :
    sysWriteFormatted frame (s.past n) =
      formatBytes s frame (argAt s frame 0).toInt (lengthAt s (argAt s frame 0).toInt)
        (lengthAt s (argAt s frame 0).toInt) 1 1 >>= fun text => pure (printed s n text) := by
  simp only [sysWriteFormatted, formatBytes_past, argument_past, getByte_past, out_past]
  rw [argument_bind_ok (by simpa using harg), getByte_bind_ok hlen, lengthAt]

theorem sysWriteFormatted_lengthFault {t : State} {frame : Int} (harg : t.inBounds (frame + 2))
    (hlen : ¬ t.inBounds (byteWord (argAt t frame 0).toInt 0)) :
    sysWriteFormatted frame t = .error (.memoryFault (byteWord (argAt t frame 0).toInt 0) .read) := by
  rw [sysWriteFormatted, argument_bind_ok (by simpa using harg), getByte_bind_fault hlen]

/-- Settles O31: the loop follows the rounds of the statement one by one. -/
theorem writeFormattedResult : Obligations.WriteFormattedResult := by
  unfold Obligations.WriteFormattedResult
  intro o s frame f hcall
  refine ⟨fun hbad => exec_callsSystem_fault hcall (firstArgument_fault hbad), fun harg hf => ?_⟩
  subst hf
  refine ⟨fun hlen => exec_callsSystem_fault hcall (sysWriteFormatted_lengthFault (t := s.past o.words) harg hlen),
    fun hlen text i k hrounds => ?_⟩
  have hrun := sysWriteFormatted_past o.words harg hlen
  refine ⟨fun hend => exec_callsSystem_ok hcall ?_, fun bad hi hbad => exec_callsSystem_fault hcall ?_⟩
  · exact hrun.trans (bind_ok_iff.2 ⟨text, formatBytes_complete hrounds hend, rfl⟩)
  · exact hrun.trans (bind_error_iff.2 (.inl (formatBytes_fault hrounds hi hbad)))

end Sys2Proof.Machine
end

section
/-! PROOFS. Exceptions and reset: a word with a reserved bit set, what a load leaves of an image that fits, and the
reset state (R302, R330 to R332). -/

namespace Sys2Proof.Machine

/-! ## A word with a reserved bit set (R302) -/

/-- Such a word takes no data word, so its fetch ends with the word itself. -/
theorem fetch_reserved {s : State} (hpc : s.inBounds s.pc) (hres : hasReservedBits (wordAt s s.pc) = true) :
    fetch s = .ok (.unknownOpcode (wordAt s s.pc)) := by
  have htakes : ¬ takesDataWord (wordAt s s.pc) = true := fun h => by
    obtain ⟨hclear, -⟩ := (takesDataWord_iff _).1 h
    exact Bool.false_ne_true (hclear.symm.trans hres)
  rw [fetch_eq, if_pos hpc, if_neg htakes, decodeWords_reserved hres]

/-- Settles O10: the fetch answers the unknown-opcode instruction, whose whole meaning is its fault. -/
theorem reservedBitsFault : Obligations.ReservedBitsFault := by
  unfold Obligations.ReservedBitsFault
  refine ⟨fun w s => exec_unknownOpcode s w, fun s hp hr hf hb hpc hres => ?_⟩
  rw [step_loaded hp, coreStep_of_fetch_ok hf hr hb (fetch_reserved hpc hres), exec_unknownOpcode, retire_next]
  rfl

/-! ## The words of memory after a load (R53, R331) -/

/-- A number's low 16 bits from its two lanes, the high one first (R57). -/
theorem ofNat_lanes (n : Nat) : BitVec.ofNat 8 (n / 256) ++ BitVec.ofNat 8 n = BitVec.ofNat 16 n := by
  apply BitVec.eq_of_toNat_eq
  rw [BitVec.toNat_append, ← Nat.shiftLeft_add_eq_or_of_lt (BitVec.isLt _), Nat.shiftLeft_eq]
  simp only [BitVec.toNat_ofNat]
  omega

/-- The construction values of memory, Word by Word (R53). -/
theorem readWord_nil (i : Nat) : readWord [] i = if i ≤ 400 then BitVec.ofNat 16 i else 0 := by
  have hlow : 2 * i / 2 = i ∧ 2 * i % 2 = 0 := by omega
  have hhigh : (2 * i + 1) / 2 = i ∧ (2 * i + 1) % 2 = 1 := by omega
  simp only [readWord, readByte, constructionByte, hlow, hhigh, pow_zero, pow_one, Nat.div_one]
  split
  · exact ofNat_lanes i
  · rfl

theorem readWord_copyWords_above {m : Memory} {addr i : Nat} {l : List Word} (h : addr + l.length ≤ i) :
    readWord (copyWords m addr l) i = readWord m i := by
  rw [readWord, readByte_copyWords (by omega), readByte_copyWords (by omega), readWord]

/-- The words of a memory built from an image: the image below its length, the construction values above. -/
theorem readWord_copyWords_nil (image : List Word) (i : Nat) :
    readWord (copyWords [] 0 image) i =
      if h : i < image.length then image[i] else if i ≤ 400 then BitVec.ofNat 16 i else 0 := by
  split
  · rename_i h
    exact (congrArg _ (Nat.zero_add i).symm).trans (readWord_copyWords [] 0 h)
  · rw [readWord_copyWords_above (by omega), readWord_nil]

/-! ## The state after a load (R331, R332) -/

theorem loadImage_fits {image : List Word} {s : State} (h : image.length ≤ s.params.memSize) :
    loadImage image s = { startRegisters s with mem := copyWords s.mem 0 image, sp := wrap16 image.length } :=
  if_neg (Nat.not_lt.2 h)

/-- Settles O56: the registers are those of `startRegisters`; MEMSIZE is at most 32767 (R6), so `sp` holds the length
itself. -/
theorem loadGivesStartState : Obligations.LoadGivesStartState := by
  unfold Obligations.LoadGivesStartState
  intro p input image hp hfits
  have hlen : (image.map wrap16).length = image.length := List.length_map _
  have hload := loadImage_fits (s := construct p input) (hlen.symm ▸ hfits)
  have hsp : (wrap16 (image.map wrap16).length).toInt = image.length := by
    have hmem := hp.memSize_le
    rw [hlen, wrap16_toInt (by omega) (by omega)]
  refine ⟨_, congrArg _ hload, rfl, rfl, rfl, hsp, rfl, rfl, rfl, rfl, rfl, rfl, rfl, rfl, rfl, rfl, rfl, fun i => ?_⟩
  exact (readWord_copyWords_nil (image.map wrap16) i).trans (by simp only [List.length_map, List.getElem_map])

/-! ## The reset state (R330, R332) -/

/-- The parameters named at reset are legal (R6, R284). -/
theorem reference_valid : Params.reference.Valid where
  memSize_ge := by decide
  memSize_le := by decide
  budget_pos := by decide
  handles_ne := by decide
  sysNum_nodup := by decide
  sysNum_range := by decide

theorem load_nil_reference : load [] (construct Params.reference []) = .next State.reset := rfl

/-- Settles O54: reset is a load into a fresh instance, and every load into one meets the invariant. -/
theorem resetMeetsInvariant : Obligations.ResetMeetsInvariant := by
  unfold Obligations.ResetMeetsInvariant
  refine ⟨?_, load_nil_reference⟩
  rw [load_next load_nil_reference]
  exact loadImage_inv reference_valid wf_nil (fun _ hc => absurd hc List.not_mem_nil) []

end Sys2Proof.Machine
end
